-- ==== Sys2Proof/Word.lean ====
section
/-! DEFINITION. The widths of the unit's values (00_scope.md R6, R7; 10_state.md R20) and the plainest arithmetic on them (R12). -/

namespace Sys2Proof

/-- One element of the operand stream DIN or of the result stream DOUT: CHAR_W = BYTE_W = 8 bits (R6, R7). -/
abbrev Byte := BitVec 8

/-- A 7-bit ASCII code: an entry of ALPHA, and the index of an entry of DT and IG (R20, R65). -/
abbrev Code7 := BitVec 7

/-- A symbol value, `0 .. N-1` with `N` at most 128 (R18): the index of an entry of ALPHA. -/
abbrev Symbol := BitVec 7

/-- A command word: CMD_W = 32 bits (R7, R71). -/
abbrev CmdWord := BitVec 32

/-- The contents of one entry of the decode table (R15): UNMAPPED, or MAPPED(v).
The eight bits that stand for the two are `dtEntryBits` of Machine/Flags.lean (R24). -/
inductive DtEntry where
  | unmapped
  | mapped (v : Symbol)
  deriving DecidableEq, Repr, Inhabited

/-- LEN_W: the width of the LEN field (R7). -/
def lenWidth : Nat := 28

/-- MAXLEN = 2^28 - 1, the largest operand length one command can carry (R7). -/
def maxLen : Nat := 2 ^ lenWidth - 1

/-- `ceil(a / b)`, the least integer not below the exact quotient, for `b > 0` (R12). -/
def ceilDiv (a b : Nat) : Nat := (a + b - 1) / b

end Sys2Proof
end

