-- ==== Sys2Proof/Syntax.lean ====
section
/-! DEFINITION. The commands of the unit: one constructor per row of spec/opcode_table.json (30_encoding.md R73). -/

namespace Sys2Proof

/-- A command as the decoder reads it from the command word (R76). `len` is the LEN field, the number of
operand elements on DIN (R72); the elements themselves are no part of the command word. -/
inductive Instr where
  /-- CREATE, OP = 1: construct a configuration from an alphabet of `len` characters (R91). -/
  | create (len : Nat)
  /-- PRESET.B32CI, OP = 2 with LEN = 0: construct the case-insensitive base32 configuration (R97). -/
  | presetB32CI
  /-- ADDSYN, OP = 3: add decode synonyms, the first of `len` characters being the anchor (R100). -/
  | addsyn (len : Nat)
  /-- IGNORE, OP = 4: add `len` characters to the ignore set (R106). -/
  | ignore (len : Nat)
  /-- ENCODE, OP = 5: render `len` bytes as text (R120). -/
  | encode (len : Nat)
  /-- DECODE, OP = 6: parse a text of `len` characters back into bytes (R140). -/
  | decode (len : Nat)
  deriving DecidableEq, Repr

/-- The operand length of a command, in elements of 8 bits (R72). -/
def Instr.len : Instr → Nat
  | .create n => n
  | .presetB32CI => 0
  | .addsyn n => n
  | .ignore n => n
  | .encode n => n
  | .decode n => n

/-- The command's name in the opcode map (R73). -/
def Instr.mnemonic : Instr → String
  | .create _ => "CREATE"
  | .presetB32CI => "PRESET.B32CI"
  | .addsyn _ => "ADDSYN"
  | .ignore _ => "IGNORE"
  | .encode _ => "ENCODE"
  | .decode _ => "DECODE"

end Sys2Proof
end

