-- ==== Sys2Proof/WellFormed.lean ====
section
/-! DEFINITION. Which terms of Instr are commands: the LEN field has 28 bits (30_encoding.md R72). -/

namespace Sys2Proof

/-- A command is well formed when its operand length fits the LEN field: "an operand longer than that cannot
be expressed in one command" (R72; notes/assumptions/12.md). PRESET.B32CI has no LEN of its own. -/
def Instr.wf : Instr → Bool
  | .create n => n ≤ maxLen
  | .presetB32CI => true
  | .addsyn n => n ≤ maxLen
  | .ignore n => n ≤ maxLen
  | .encode n => n ≤ maxLen
  | .decode n => n ≤ maxLen

end Sys2Proof
end

