-- ==== Sys2Proof/Decode.lean ====
section
/-! DEFINITION. The command word (30_encoding.md R71), the opcode map (R73), the decoder, total on every 32-bit word (R76), and the encoder. -/

namespace Sys2Proof

/-- The OP field, bits 31:28 (R71). -/
def opField (w : CmdWord) : BitVec 4 := w.extractLsb' 28 4

/-- The LEN field, bits 27:0, as an unsigned number (R71, R72). -/
def lenField (w : CmdWord) : Nat := (w.extractLsb' 0 28).toNat

/-- Why a word is reserved (R75). -/
inductive ReservedKind where
  /-- OP = 0x0, or OP = 0x7 to 0xF. -/
  | unassignedOp
  /-- OP = 0x2 with LEN not 0. -/
  | presetWithOperand
  deriving DecidableEq, Repr

/-- What the decoder answers for a word (R76): a command, or RESERVED(len), rejected by name. -/
inductive Decoded where
  | command (i : Instr)
  | reserved (kind : ReservedKind) (len : Nat)
  deriving DecidableEq, Repr

/-- The decoder of R76. It needs neither the operand nor the configuration nor VALID. -/
def decodeWord (w : CmdWord) : Decoded :=
  match (opField w).toNat with
  | 1 => .command (.create (lenField w))
  | 2 => if lenField w = 0 then .command .presetB32CI else .reserved .presetWithOperand (lenField w)
  | 3 => .command (.addsyn (lenField w))
  | 4 => .command (.ignore (lenField w))
  | 5 => .command (.encode (lenField w))
  | 6 => .command (.decode (lenField w))
  | _ => .reserved .unassignedOp (lenField w)

/-- A word of the layout of R71: OP in bits 31:28, LEN in bits 27:0. -/
def commandWord (op : BitVec 4) (len : Nat) : CmdWord := op ++ BitVec.ofNat 28 len

/-- The OP number of a command (R73). -/
def Instr.op : Instr → BitVec 4
  | .create _ => 0x1#4
  | .presetB32CI => 0x2#4
  | .addsyn _ => 0x3#4
  | .ignore _ => 0x4#4
  | .encode _ => 0x5#4
  | .decode _ => 0x6#4

/-- The command word of a command (R71, R73).

DESIGN CHOICE (notes/assumptions/12.md): a length of more than 28 bits has no word (R72). For one, LEN is its low 28
bits; such an Instr is not well formed. -/
def encodeInstr (i : Instr) : CmdWord := commandWord i.op i.len

/-- One row of the opcode map (R73): a word `w` selects the row when `w & mask = match`. -/
structure OpRow where
  mnemonic : String
  pattern  : CmdWord
  mask     : CmdWord
  deriving DecidableEq, Repr

/-- The row's test on a word (R73). -/
def opRowSelects (r : OpRow) (w : CmdWord) : Bool := w &&& r.mask == r.pattern

/-- The opcode map (R73). -/
def opcodeMap : List OpRow :=
  [⟨"CREATE", 0x10000000#32, 0xF0000000#32⟩,
   ⟨"PRESET.B32CI", 0x20000000#32, 0xFFFFFFFF#32⟩,
   ⟨"ADDSYN", 0x30000000#32, 0xF0000000#32⟩,
   ⟨"IGNORE", 0x40000000#32, 0xF0000000#32⟩,
   ⟨"ENCODE", 0x50000000#32, 0xF0000000#32⟩,
   ⟨"DECODE", 0x60000000#32, 0xF0000000#32⟩]

/-- How many bytes of the table's numbering make the command word: the first 32 bits of an instruction, bit 0
of the table being bit 0 of the word. The bits above `nbits` are zero. -/
def tableWord (nbits w : Nat) : CmdWord := BitVec.ofNat 32 (w % 2 ^ nbits)

/-- The command the decoder reads from an instruction whose bits are `w`, numbered as the opcode table numbers
them; none where the word is reserved. A command word arrives whole, as one 32-bit number (R54). -/
def decodeTableWord (nbits w : Nat) : Option Instr :=
  match decodeWord (tableWord nbits w) with
  | .command i => some i
  | .reserved _ _ => none

end Sys2Proof
end

