-- ==== Sys2Proof/Config.lean ====
section
/-! DEFINITION. What one unit fixes, and the values the spec leaves open: the two OPEN parameters of the preset (00_scope.md R8) and the unspecified table contents after reset (10_state.md R34). -/

namespace Sys2Proof

/-- A value of the two OPEN parameters of PRESET.B32CI (R8): PRESET_CONFUSABLES, a list of ADDSYN specs,
and PRESET_IGNORE, an IGNORE operand. Which values are legal is R98's constraint, `presetLegal`. -/
structure PresetParams where
  confusables : List (List Byte)
  ignored     : List Byte
  deriving DecidableEq, Repr, Inhabited

/-- DESIGN CHOICE (notes/assumptions/2.md; safe). The preset's two constants, OPEN in the spec (R8, D16).
No body: nothing can be proved of the value. `presetParams` of Machine/Preset.lean keeps it to the legal ones. -/
opaque Config.freePreset : PresetParams

/-- DESIGN CHOICE (notes/assumptions/1.md). The contents of ALPHA after reset, by index: unspecified (R34). -/
opaque Config.alphaAtReset : Nat → Code7

/-- DESIGN CHOICE (notes/assumptions/1.md). The contents of DT after reset, by index: unspecified (R34). -/
opaque Config.dtAtReset : Nat → DtEntry

/-- DESIGN CHOICE (notes/assumptions/1.md). The contents of IG after reset, by index: unspecified (R34). -/
opaque Config.igAtReset : Nat → Bool

end Sys2Proof
end

