-- ==== Sys2Proof/Machine/State.lean ====
section
/-! DEFINITION. The unit's state, all of it and as plain data (10_state.md R20, R34; 20_memory.md R50), the status codes (60_exceptions.md R160), and the state after reset. -/

namespace Sys2Proof.Machine

/-- The outcome of a command, by name (R160). The numbers are `statusNumber` of Machine/Flags.lean. -/
inductive StatusCode where
  | ok
  | invalidLength
  | nonAsciiCharacter
  | duplicateCharacter
  | unmappedAnchor
  | conflictingSynonym
  | invalidCharacter
  | notCreated
  | illegalCommand
  deriving DecidableEq, Repr

/-- What `raise E(ch, pos)` names (R14): the code, the offending element and its index. -/
structure Raised where
  code : StatusCode
  ch   : Byte
  pos  : Nat
  deriving DecidableEq, Repr

/-- No step of the unit ends in a fault: "none of the unit's errors is a fault of the machine; each is a
defined, total outcome of the step function" (R174; notes/assumptions/16.md). Nobody raises one, so there is
no constructor. -/
inductive Fault where
  deriving DecidableEq, Repr

/-- Why a command or a run is refused. -/
inductive Refusal where
  /-- Raised by exec's arm of a command that has no meaning yet, and by nothing else; no arm of this model
  raises it. Safe: a claim about such a command could not be proved. -/
  | notModelled (mnemonic : String)
  /-- Raised by transact, and so by runPackets, for a packet whose number of elements is not its LEN; no step of
  the unit raises it. "The model should refuse only what this spec does not define, namely command sequences whose
  packets are malformed" (R174; 93_implementation_defined.md H1, H2; notes/assumptions/4.md). Safe: no claim about
  what such a run gives could be proved. -/
  | malformedPacket
  deriving DecidableEq, Repr

/-- The configuration (R20): the two configuration registers and the three tables. -/
structure Codec where
  /-- VALID, 1 bit (R22). -/
  valid : Bool
  /-- BPS, 3 bits (R22). -/
  bps   : BitVec 3
  /-- ALPHA, 128 entries of 7 bits, by symbol value (R23). -/
  alpha : Vector Code7 128
  /-- DT, 128 entries, by 7-bit code (R24). -/
  dt    : Vector DtEntry 128
  /-- IG, 128 entries of 1 bit, by 7-bit code (R25). -/
  ig    : Vector Bool 128
  deriving DecidableEq, Repr

/-- The whole state of the unit (R20) with the three channels the host and the unit share
(R50, R59; notes/assumptions/3.md). -/
structure State where
  /-- VALID, BPS, ALPHA, DT and IG. -/
  codec  : Codec
  /-- STATUS (R27). -/
  status : BitVec 32
  /-- ERRPOS (R28). -/
  errpos : BitVec 32
  /-- RESLEN (R29). -/
  reslen : BitVec 32
  /-- The CMD channel: command words not yet completed, oldest first (R59, R70). -/
  cmd    : List CmdWord
  /-- The DIN channel: operand elements not yet consumed, oldest first (R51). -/
  din    : List Byte
  /-- The DOUT channel: result elements the host has not yet drained, oldest first
  (R52; notes/assumptions/6.md). -/
  dout   : List Byte
  deriving DecidableEq, Repr

/-- The state of R34 with the given contents in the three tables, whose contents after reset the spec leaves
unspecified. -/
def State.resetWith (alpha : Vector Code7 128) (dt : Vector DtEntry 128) (ig : Vector Bool 128) : State where
  codec  := ⟨false, 0#3, alpha, dt, ig⟩
  status := 0#32
  errpos := 0#32
  reslen := 0#32
  cmd    := []
  din    := []
  dout   := []

/-- The state after reset (R34). The tables hold free values (notes/assumptions/1.md). -/
def State.reset : State :=
  State.resetWith (Vector.ofFn fun i => Config.alphaAtReset i.val)
    (Vector.ofFn fun i => Config.dtAtReset i.val) (Vector.ofFn fun i => Config.igAtReset i.val)

end Sys2Proof.Machine
end

