-- ==== Sys2Proof/Machine/Flags.lean ====
section
/-! DEFINITION. The numeric codes and the layouts of STATUS and of a DT entry: the unit has no arithmetic flags (10_state.md R32), its status bits are the fields of STATUS (R27) and VALID. -/

namespace Sys2Proof.Machine

/-- The number of a status code (R160). -/
def statusNumber : StatusCode → BitVec 4
  | .ok => 0#4
  | .invalidLength => 1#4
  | .nonAsciiCharacter => 2#4
  | .duplicateCharacter => 3#4
  | .unmappedAnchor => 4#4
  | .conflictingSynonym => 5#4
  | .invalidCharacter => 6#4
  | .notCreated => 7#4
  | .illegalCommand => 8#4

/-- STATUS as the unit composes it (R27): bits 31:16 zero, ERRCHAR 15:8, BPS 7:5, VALID 4, CODE 3:0. -/
def statusWord (code : StatusCode) (valid : Bool) (bps : BitVec 3) (ch : Byte) : BitVec 32 :=
  0#16 ++ ch ++ bps ++ BitVec.ofBool valid ++ statusNumber code

/-- STATUS.CODE, bits 3:0 (R27). -/
def statusCodeField (w : BitVec 32) : BitVec 4 := w.extractLsb' 0 4

/-- STATUS.VALID, bit 4 (R27). -/
def statusValidField (w : BitVec 32) : Bool := w.getLsbD 4

/-- STATUS.BPS, bits 7:5 (R27). -/
def statusBpsField (w : BitVec 32) : BitVec 3 := w.extractLsb' 5 3

/-- STATUS.ERRCHAR, bits 15:8 (R27). -/
def statusErrcharField (w : BitVec 32) : Byte := w.extractLsb' 8 8

/-- STATUS bits 31:16, reserved, read as 0 (R27). -/
def statusReservedField (w : BitVec 32) : BitVec 16 := w.extractLsb' 16 16

/-- The eight bits of a DT entry (R24): M in bit 7, V in bits 6:0; UNMAPPED is 0x00, MAPPED(v) is 0x80 | v. -/
def dtEntryBits : DtEntry → BitVec 8
  | .unmapped => 0x00#8
  | .mapped v => 0x80#8 ||| v.setWidth 8

end Sys2Proof.Machine
end

