-- ==== Sys2Proof/Machine/Operands.lean ====
section
/-! DEFINITION. How an operand of DIN elements is looked at: the 7-bit test and the table index of an element (20_memory.md R65), and the scans that find the offending element at the lowest index (60_exceptions.md R162). -/

namespace Sys2Proof.Machine

/-- An element is 7-bit ASCII when its code is below 0x80 (R6, R51). -/
def isAscii (ch : Byte) : Bool := ch.toNat < 128

/-- The table index of an element below 0x80: `c[6:0]` (R65). -/
def tableIndex (ch : Byte) : Code7 := ch.extractLsb' 0 7

/-- The first element that `bad` holds of, scanning from index `pos` upward, with its index. -/
def firstBad (bad : Byte → Bool) (pos : Nat) : List Byte → Option (Byte × Nat)
  | [] => none
  | ch :: rest => if bad ch then some (ch, pos) else firstBad bad (pos + 1) rest

/-- The element at the lowest index that is 0x80 or more (R93, R101, R107). -/
def firstNonAscii (din : List Byte) : Option (Byte × Nat) := firstBad (fun ch => !isAscii ch) 0 din

/-- The first element, scanning from index `pos` upward, that is equal to an element of `seen` or to an earlier
one of the scan. -/
def firstRepeat (seen : List Byte) (pos : Nat) : List Byte → Option (Byte × Nat)
  | [] => none
  | ch :: rest => if seen.contains ch then some (ch, pos) else firstRepeat (ch :: seen) (pos + 1) rest

/-- The element at the lowest index `j` that equals an element at a lower index (R94). -/
def firstDuplicate (din : List Byte) : Option (Byte × Nat) := firstRepeat [] 0 din

/-- The alphabet lengths CREATE accepts (R91, R92). -/
def alphabetLengths : List Nat := [2, 4, 8, 16, 32, 64, 128]

/-- `log2(len)` as the 3 bits of BPS (R12, R95). -/
def bitsPerSymbol (len : Nat) : BitVec 3 := BitVec.ofNat 3 (Nat.log2 len)

end Sys2Proof.Machine
end

