-- ==== Sys2Proof/Machine/Ops.lean ====
section
/-! DEFINITION. The shared operations: one element of a table (20_memory.md R50, R56), one packet of the channels (30_encoding.md R70), the completion of a command with OK and its completion with an error (00_scope.md R14, 60_exceptions.md R165). -/

namespace Sys2Proof.Machine

/-! ### Tables -/

/-- `ALPHA[v]` (R23). -/
def Codec.readAlpha (c : Codec) (v : Symbol) : Code7 := c.alpha[v.toNat]'v.isLt

/-- `ALPHA[v] <- a` (R23). -/
def Codec.writeAlpha (c : Codec) (v : Symbol) (a : Code7) : Codec := { c with alpha := c.alpha.set v.toNat a v.isLt }

/-- `DT[c]` (R24). -/
def Codec.readDt (c : Codec) (i : Code7) : DtEntry := c.dt[i.toNat]'i.isLt

/-- `DT[c] <- e` (R24). -/
def Codec.writeDt (c : Codec) (i : Code7) (e : DtEntry) : Codec := { c with dt := c.dt.set i.toNat e i.isLt }

/-- `IG[c]` (R25). -/
def Codec.readIg (c : Codec) (i : Code7) : Bool := c.ig[i.toNat]'i.isLt

/-- `IG[c] <- b` (R25). -/
def Codec.writeIg (c : Codec) (i : Code7) (b : Bool) : Codec := { c with ig := c.ig.set i.toNat b i.isLt }

/-- A DT table with every entry UNMAPPED (R91). -/
def emptyDt : Vector DtEntry 128 := Vector.replicate 128 .unmapped

/-- An IG table with every entry 0 (R91). -/
def emptyIg : Vector Bool 128 := Vector.replicate 128 false

/-- `N = 2^BPS`, the alphabet length (R22). -/
def Codec.size (c : Codec) : Nat := 2 ^ c.bps.toNat

/-! ### Packets -/

/-- The command word the unit takes next: the oldest on CMD (R21, R59); none when CMD is empty. -/
def fetchWord (s : State) : Option CmdWord := s.cmd.head?

/-- A unit with no command word on CMD executes nothing and keeps all its state
(R171, R181; notes/assumptions/5.md). -/
def idle (s : State) : Host.Outcome State Fault Refusal := .next s

/-- The operand of a packet of `len` elements: the `len` oldest elements on DIN (R51). -/
def operand (len : Nat) (s : State) : List Byte := s.din.take len

/-- The whole packet is consumed: its word from CMD and its `len` elements from DIN (R51, R70). -/
def consumePacket (len : Nat) (s : State) : State := { s with cmd := s.cmd.tail, din := s.din.drop len }

/-- A whole packet put before everything else on the channels: its word on CMD, its elements on DIN. -/
def pushPacket (w : CmdWord) (elements : List Byte) (s : State) : State :=
  { s with cmd := w :: s.cmd, din := elements ++ s.din }

/-! ### Completion -/

/-- A command completes with OK: it leaves the configuration `c`, puts `out` on DOUT and writes the result
registers, ERRCHAR = 0 and ERRPOS = 0 (R14, R30, R52). -/
def completeOk (c : Codec) (out : List Byte) (s : State) : State :=
  { s with
    codec := c
    status := statusWord .ok c.valid c.bps 0#8
    errpos := 0#32
    reslen := BitVec.ofNat 32 out.length
    dout := s.dout ++ out }

/-- A command raises (R14, R165): VALID, BPS, ALPHA, DT and IG stay as they were, nothing is put on DOUT, and the
result registers are written with the code, the unchanged VALID and BPS, ERRCHAR, ERRPOS and RESLEN = 0. Control
goes nowhere, so there is no return operation beside it (R166). -/
def completeError (r : Raised) (s : State) : State :=
  { s with
    status := statusWord r.code s.codec.valid s.codec.bps r.ch
    errpos := BitVec.ofNat 32 r.pos
    reslen := 0#32 }

/-- Completion with what the command's body answers. -/
def complete (answer : Except Raised (Codec × List Byte)) (s : State) : State :=
  match answer with
  | .ok (c, out) => completeOk c out s
  | .error r => completeError r s

/-- One whole command of `len` operand elements (R9): when DIN holds them all, the packet is consumed and the
command completes with what `body` answers on the configuration and the operand; otherwise the unit waits for
the rest, and nothing changes (R172; notes/assumptions/4.md). -/
def runCommand (len : Nat) (body : Codec → List Byte → Except Raised (Codec × List Byte)) (s : State) :
    Host.Outcome State Fault Refusal :=
  if s.din.length < len then .next s
  else .next (complete (body s.codec (operand len s)) (consumePacket len s))

/-- The answer of a command that writes the configuration and puts nothing on DOUT. -/
def configured (answer : Except Raised Codec) : Except Raised (Codec × List Byte) :=
  match answer with
  | .ok c => .ok (c, [])
  | .error r => .error r

/-- The answer of a command that leaves the configuration `c` and puts its result on DOUT. -/
def produced (c : Codec) (answer : Except Raised (List Byte)) : Except Raised (Codec × List Byte) :=
  match answer with
  | .ok out => .ok (c, out)
  | .error r => .error r

/-- A reserved command word (R75): its `len` elements are consumed and it completes with IllegalCommand. -/
def execReserved (len : Nat) (s : State) : Host.Outcome State Fault Refusal :=
  runCommand len (fun _ _ => .error ⟨.illegalCommand, 0#8, 0⟩) s

/-! ### What ADDSYN, IGNORE, ENCODE and DECODE begin with -/

/-- NotCreated, which names no element (R90, R162). -/
def notCreated : Raised := ⟨.notCreated, 0#8, 0⟩

end Sys2Proof.Machine
end

