-- ==== Sys2Proof/Machine/Packing.lean ====
section
/-! DEFINITION. The packing unit: the bit stream of ENCODE and DECODE (41_encode.md R121, 42_decode.md R141, the normative forms by 00_scope.md R19), and the derived window, accumulator and whole-number forms (R124, R125, R126, R145, R146). -/

namespace Sys2Proof.Machine

/-! ### The bit stream -/

/-- The eight bits of a byte, most significant first (R53). -/
def byteBits (b : Byte) : List Bool := (List.range 8).map fun j => b.getLsbD (7 - j)

/-- The low `B` bits of a symbol value, most significant first (R54). -/
def symbolBits (B : Nat) (v : Symbol) : List Bool := (List.range B).map fun t => v.getLsbD (B - 1 - t)

/-- The number whose binary digits are `bits`, most significant first: `v = 2*v + bit` for each (R120, R140). -/
def ofBits (bits : List Bool) : Nat := bits.foldl (fun v bit => 2 * v + bit.toNat) 0

/-- The values of the first `m` consecutive groups of `w` bits, the group at the lowest bit offsets first (R54). -/
def groups (w : Nat) : Nat → List Bool → List Nat
  | 0, _ => []
  | m + 1, bits => ofBits (bits.take w) :: groups w m (bits.drop w)

/-! ### ENCODE: bytes to symbol values -/

/-- `M = ceil(8*L / B)`, the number of symbols (R121, R122). -/
def symbolCount (B L : Nat) : Nat := ceilDiv (8 * L) B

/-- `P = M*B - 8*L`, the number of padding bits (R121, R123). -/
def paddingBits (B L : Nat) : Nat := symbolCount B L * B - 8 * L

/-- `S`: the bytes as one bit stream (R121). -/
def byteStream (data : List Byte) : List Bool := data.flatMap byteBits

/-- `S'`: the stream followed by the padding zeros (R121). -/
def paddedStream (B : Nat) (data : List Byte) : List Bool :=
  byteStream data ++ List.replicate (paddingBits B data.length) false

/-- `v_0 .. v_(M-1)`: the symbol values of a buffer, in the normative bit-stream form (R121). -/
def symbolValues (B : Nat) (data : List Byte) : List Nat :=
  groups B (symbolCount B data.length) (paddedStream B data)

/-- Symbol `k` in the bit-offset window form (R124): `(w >> (16 - r - B)) & (2^B - 1)` with `w = hi ++ lo`. -/
def windowSymbol (B : Nat) (data : List Byte) (k : Nat) : Nat :=
  let i := k * B / 8
  let r := k * B % 8
  let hi := data.getD i 0#8
  let lo := data.getD (i + 1) 0#8
  let w : BitVec 16 := hi ++ lo
  (w >>> (16 - r - B)).toNat &&& (2 ^ B - 1)

/-- ACC and NBITS, the packing unit's hidden state inside one command (R33; notes/assumptions/8.md). -/
structure Accumulator where
  acc   : Nat
  nbits : Nat
  deriving DecidableEq, Repr

/-- ACC = 0 and NBITS = 0, at the start of every ENCODE and DECODE (R33, R127, R151). -/
def accumulatorStart : Accumulator := ⟨0, 0⟩

/-- The loop `while NBITS >= B` of R125: the symbols emitted and what is left. `fuel` bounds the passes. -/
def accEmit (B : Nat) : Nat → Accumulator → List Nat × Accumulator
  | 0, a => ([], a)
  | fuel + 1, a =>
    if B ≤ a.nbits then
      let n := a.nbits - B
      let v := (a.acc >>> n) &&& (2 ^ B - 1)
      let (vs, a') := accEmit B fuel ⟨a.acc &&& (2 ^ n - 1), n⟩
      (v :: vs, a')
    else ([], a)

/-- One byte taken into the accumulator (R125): `ACC = (ACC << 8) | din[i] ; NBITS = NBITS + 8`. -/
def accTakeByte (a : Accumulator) (b : Byte) : Accumulator := ⟨(a.acc <<< 8) ||| b.toNat, a.nbits + 8⟩

/-- The accumulator form of ENCODE's symbol values (R125), from the accumulator `a` on. -/
def accSymbols (B : Nat) (a : Accumulator) : List Byte → List Nat
  | [] => if 0 < a.nbits then [(a.acc <<< (B - a.nbits)) &&& (2 ^ B - 1)] else []
  | b :: rest =>
    let (vs, a') := accEmit B (a.nbits + 8) (accTakeByte a b)
    vs ++ accSymbols B a' rest

/-- `D`: the buffer read as one big-endian number (R126). -/
def bufferNumber (data : List Byte) : Nat := data.foldl (fun d b => 256 * d + b.toNat) 0

/-- Symbol `k` in the whole-number form (R126): `((D * 2^P) div 2^(B*(M-1-k))) mod 2^B`. -/
def wholeNumberSymbol (B : Nat) (data : List Byte) (k : Nat) : Nat :=
  bufferNumber data * 2 ^ paddingBits B data.length / 2 ^ (B * (symbolCount B data.length - 1 - k)) % 2 ^ B

/-! ### DECODE: symbol values to bytes -/

/-- `S`: the symbol values as one bit stream (R141). -/
def symbolStream (B : Nat) (values : List Symbol) : List Bool := values.flatMap (symbolBits B)

/-- `R = |S| div 8`, the number of whole bytes (R141, R143). -/
def byteCount (B m : Nat) : Nat := m * B / 8

/-- The bytes of a sequence of symbol values, in the normative bit-stream form: consecutive 8-bit groups, the last
`|S| mod 8` bits dropped whatever they are (R141, R144). -/
def valueBytes (B : Nat) (values : List Symbol) : List Byte :=
  (groups 8 ((symbolStream B values).length / 8) (symbolStream B values)).map (BitVec.ofNat 8)

/-- One symbol taken into the accumulator (R145): the byte it completes, if any, and what is left. -/
def accTakeSymbol (B : Nat) (a : Accumulator) (v : Symbol) : Option Byte × Accumulator :=
  let acc := (a.acc <<< B) ||| v.toNat
  let n := a.nbits + B
  if 8 ≤ n then (some (BitVec.ofNat 8 ((acc >>> (n - 8)) &&& 0xFF)), ⟨acc &&& (2 ^ (n - 8) - 1), n - 8⟩)
  else (none, ⟨acc, n⟩)

/-- The accumulator form of DECODE's bytes (R145), from the accumulator `a` on. -/
def accBytes (B : Nat) (a : Accumulator) : List Symbol → List Byte
  | [] => []
  | v :: rest =>
    match accTakeSymbol B a v with
    | (some b, a') => b :: accBytes B a' rest
    | (none, a') => accBytes B a' rest

/-- A sequence of symbol values read as one numeral, most significant digit first, in radix `2^B` (R146). -/
def textNumber (B : Nat) (values : List Symbol) : Nat := values.foldl (fun t v => 2 ^ B * t + v.toNat) 0

/-- Output byte `n` in the bit-offset window form (R146): `(W >> (cnt*B - r - 8)) & 0xFF`. -/
def windowByte (B : Nat) (values : List Symbol) (n : Nat) : Nat :=
  let q := 8 * n / B
  let r := 8 * n % B
  let cnt := ceilDiv (r + 8) B
  (textNumber B ((values.drop q).take cnt) >>> (cnt * B - r - 8)) &&& 0xFF

/-- Output byte `n` in the whole-number form (R146): `T div 2^drop` written as exactly `R` bytes. -/
def wholeNumberByte (B : Nat) (values : List Symbol) (n : Nat) : Nat :=
  textNumber B values / 2 ^ (values.length * B % 8) / 256 ^ (byteCount B values.length - 1 - n) % 256

end Sys2Proof.Machine
end

