-- ==== Sys2Proof/Machine/DecodeText.lean ====
section
/-! DEFINITION. DECODE (42_decode.md R140 to R154). -/

namespace Sys2Proof.Machine

/-- The class of one text element (R142). -/
inductive CharClass where
  | ignored
  | mapped (v : Symbol)
  | invalid
  deriving DecidableEq, Repr

/-- Classification, in the order of R142: ignored, then mapped, else invalid. An element of 0x80 or more is
always invalid. -/
def classify (c : Codec) (ch : Byte) : CharClass :=
  if isAscii ch then
    if c.readIg (tableIndex ch) then .ignored
    else
      match c.readDt (tableIndex ch) with
      | .mapped v => .mapped v
      | .unmapped => .invalid
  else .invalid

/-- The scan of a text, left to right, from index `pos` on (R141, R147): the values of the mapped characters in
text order, or InvalidCharacter at the first invalid one. -/
def scanText (c : Codec) (pos : Nat) : List Byte → Except Raised (List Symbol)
  | [] => .ok []
  | ch :: rest =>
    match classify c ch with
    | .ignored => scanText c (pos + 1) rest
    | .mapped v =>
      match scanText c (pos + 1) rest with
      | .ok vs => .ok (v :: vs)
      | .error r => .error r
    | .invalid => .error ⟨.invalidCharacter, ch, pos⟩

/-- DECODE on a configuration (R140): NotCreated, InvalidCharacter, or the bytes of the whole text. -/
def decodeText (c : Codec) (text : List Byte) : Except Raised (List Byte) :=
  if !c.valid then .error notCreated
  else
    match scanText c 0 text with
    | .ok vs => .ok (valueBytes c.bps.toNat vs)
    | .error r => .error r

/-- DECODE in the one-pass accumulator form (R145), from index `pos` and the accumulator `a` on: `out` holds the
bytes withheld until the whole text has passed. -/
def scanAccumulate (c : Codec) (pos : Nat) (a : Accumulator) (out : List Byte) : List Byte → Except Raised (List Byte)
  | [] => .ok out
  | ch :: rest =>
    match classify c ch with
    | .ignored => scanAccumulate c (pos + 1) a out rest
    | .mapped v =>
      match accTakeSymbol c.bps.toNat a v with
      | (some b, a') => scanAccumulate c (pos + 1) a' (out ++ [b]) rest
      | (none, a') => scanAccumulate c (pos + 1) a' out rest
    | .invalid => .error ⟨.invalidCharacter, ch, pos⟩

/-- DECODE (R140). -/
def execDecode (len : Nat) (s : State) : Host.Outcome State Fault Refusal :=
  runCommand len (fun c din => produced c (decodeText c din)) s

end Sys2Proof.Machine
end

