-- ==== Sys2Proof/Machine/Encode.lean ====
section
/-! DEFINITION. ENCODE (41_encode.md R120 to R132). -/

namespace Sys2Proof.Machine

/-- The text of a buffer under a configuration: `zext_8(ALPHA[v_k])` for each symbol value (R121). -/
def encodeText (c : Codec) (data : List Byte) : List Byte :=
  (symbolValues c.bps.toNat data).map fun v => (c.readAlpha (BitVec.ofNat 7 v)).setWidth 8

/-- ENCODE on a configuration (R120): NotCreated, and no other error. -/
def encodeBytes (c : Codec) (data : List Byte) : Except Raised (List Byte) :=
  if !c.valid then .error notCreated else .ok (encodeText c data)

/-- ENCODE (R120). -/
def execEncode (len : Nat) (s : State) : Host.Outcome State Fault Refusal :=
  runCommand len (fun c din => produced c (encodeBytes c din)) s

end Sys2Proof.Machine
end

