-- ==== Sys2Proof/Machine/Configuration.lean ====
section
/-! DEFINITION. The table unit: CREATE, ADDSYN and IGNORE (40_configuration.md R90 to R96, R100 to R111). -/

namespace Sys2Proof.Machine

/-! ### CREATE -/

/-- The loop of CREATE's commit from symbol value `v` on: `ALPHA[v] <- din[v][6:0] ; DT[din[v]] <- MAPPED(v)` (R91). -/
def placeAlphabet (v : Nat) (c : Codec) : List Byte → Codec
  | [] => c
  | ch :: rest =>
    placeAlphabet (v + 1)
      ((c.writeAlpha (BitVec.ofNat 7 v) (tableIndex ch)).writeDt (tableIndex ch) (.mapped (BitVec.ofNat 7 v))) rest

/-- CREATE's commit (R95): VALID and BPS, every DT entry UNMAPPED and every IG entry 0, then the alphabet's
entries. ALPHA entries at `len` and above keep what they held. -/
def createCommit (c : Codec) (din : List Byte) : Codec :=
  placeAlphabet 0
    { c with valid := true, bps := bitsPerSymbol din.length, dt := emptyDt, ig := emptyIg } din

/-- CREATE on a configuration (R91): the tests of R92, R93 and R94 in that order, then the commit. A
configuration that exists is replaced (R96). -/
def createAlphabet (c : Codec) (din : List Byte) : Except Raised Codec :=
  if !alphabetLengths.contains din.length then .error ⟨.invalidLength, 0#8, 0⟩
  else
    match firstNonAscii din with
    | some (ch, i) => .error ⟨.nonAsciiCharacter, ch, i⟩
    | none =>
      match firstDuplicate din with
      | some (ch, j) => .error ⟨.duplicateCharacter, ch, j⟩
      | none => .ok (createCommit c din)

/-- CREATE (R91). -/
def execCreate (len : Nat) (s : State) : Host.Outcome State Fault Refusal :=
  runCommand len (fun c din => configured (createAlphabet c din)) s

/-! ### ADDSYN -/

/-- A later element of a spec conflicts with the anchor's value `v` when it is mapped to another value or is in
the ignore set (R103). -/
def synonymConflicts (c : Codec) (v : Symbol) (ch : Byte) : Bool :=
  (match c.readDt (tableIndex ch) with
    | .unmapped => false
    | .mapped w => w != v) || c.readIg (tableIndex ch)

/-- ADDSYN's commit (R104): `DT[din[j]] <- MAPPED(v)` for every later element of the spec. -/
def mapSynonyms (v : Symbol) (c : Codec) (synonyms : List Byte) : Codec :=
  synonyms.foldl (fun c ch => c.writeDt (tableIndex ch) (.mapped v)) c

/-- ADDSYN on a configuration (R100): NotCreated, NonAsciiCharacter, UnmappedAnchor and ConflictingSynonym are
tested in that order, then the commit. An empty spec has no anchor (R102). -/
def addSynonyms (c : Codec) (din : List Byte) : Except Raised Codec :=
  if !c.valid then .error notCreated
  else
    match firstNonAscii din with
    | some (ch, i) => .error ⟨.nonAsciiCharacter, ch, i⟩
    | none =>
      match din with
      | [] => .error ⟨.unmappedAnchor, 0#8, 0⟩
      | anchor :: synonyms =>
        match c.readDt (tableIndex anchor) with
        | .unmapped => .error ⟨.unmappedAnchor, anchor, 0⟩
        | .mapped v =>
          match firstBad (synonymConflicts c v) 1 synonyms with
          | some (ch, j) => .error ⟨.conflictingSynonym, ch, j⟩
          | none => .ok (mapSynonyms v c synonyms)

/-- ADDSYN (R100). -/
def execAddsyn (len : Nat) (s : State) : Host.Outcome State Fault Refusal :=
  runCommand len (fun c din => configured (addSynonyms c din)) s

/-! ### IGNORE -/

/-- A character cannot be ignored when DT maps it (R108). -/
def isMapped (c : Codec) (ch : Byte) : Bool :=
  match c.readDt (tableIndex ch) with
  | .unmapped => false
  | .mapped _ => true

/-- IGNORE's commit (R109): `IG[din[i]] <- 1` for every element. -/
def setIgnored (c : Codec) (din : List Byte) : Codec :=
  din.foldl (fun c ch => c.writeIg (tableIndex ch) true) c

/-- IGNORE on a configuration (R106): NotCreated, NonAsciiCharacter and ConflictingSynonym are tested in that
order, then the commit. -/
def ignoreCharacters (c : Codec) (din : List Byte) : Except Raised Codec :=
  if !c.valid then .error notCreated
  else
    match firstNonAscii din with
    | some (ch, i) => .error ⟨.nonAsciiCharacter, ch, i⟩
    | none =>
      match firstBad (isMapped c) 0 din with
      | some (ch, i) => .error ⟨.conflictingSynonym, ch, i⟩
      | none => .ok (setIgnored c din)

/-- IGNORE (R106). -/
def execIgnore (len : Nat) (s : State) : Host.Outcome State Fault Refusal :=
  runCommand len (fun c din => configured (ignoreCharacters c din)) s

end Sys2Proof.Machine
end

