-- ==== Sys2Proof/Machine/Preset.lean ====
section
/-! DEFINITION. PRESET.B32CI (40_configuration.md R97 to R99): the configuration that a fixed sequence of CREATE, ADDSYN and IGNORE leaves. -/

namespace Sys2Proof.Machine

/-- `ABCDEFGHIJKLMNOPQRSTUVWXYZ234567` (R97), as character codes: 0x41 to 0x5A, then 0x32 to 0x37 (R99). -/
def base32Alphabet : List Byte :=
  (List.range 26).map (fun k => BitVec.ofNat 8 (0x41 + k)) ++ (List.range 6).map (fun k => BitVec.ofNat 8 (0x32 + k))

/-- The 26 case specs `"Aa"` to `"Zz"` (R97). -/
def caseSpecs : List (List Byte) :=
  (List.range 26).map fun k => [BitVec.ofNat 8 (0x41 + k), BitVec.ofNat 8 (0x61 + k)]

/-- The reference value of the two parameters (R8): PRESET_CONFUSABLES = `["O0", "I1"]`, PRESET_IGNORE = `""`. -/
def referencePreset : PresetParams := ⟨[[0x4F#8, 0x30#8], [0x49#8, 0x31#8]], []⟩

/-- The configuration after a command of a sequence: what it commits, or, when it raises, what was there (R110). -/
def afterCommand (c : Codec) (answer : Except Raised Codec) : Codec :=
  match answer with
  | .ok c' => c'
  | .error _ => c

/-- The configuration after the CREATE of R97, executed from `c`. -/
def presetCreated (c : Codec) : Codec := afterCommand c (createAlphabet c base32Alphabet)

/-- The configuration after the ADDSYNs of a list of specs, in list order (R97). -/
def afterSpecs (c : Codec) (specs : List (List Byte)) : Codec :=
  specs.foldl (fun c spec => afterCommand c (addSynonyms c spec)) c

/-- The configuration that the whole sequence of R97 leaves, executed from `c`, for a value of the two parameters. -/
def presetSequence (p : PresetParams) (c : Codec) : Codec :=
  let synonymed := afterSpecs (afterSpecs (presetCreated c) caseSpecs) p.confusables
  afterCommand synonymed (ignoreCharacters synonymed p.ignored)

/-- What PRESET.B32CI writes (R36, R97): VALID, BPS and ALPHA as the CREATE of the sequence leaves them, since no
ADDSYN and no IGNORE touches them (R104, R109), and DT and IG as the whole sequence leaves them. -/
def presetConfiguration (p : PresetParams) (c : Codec) : Codec :=
  { presetCreated c with dt := (presetSequence p c).dt, ig := (presetSequence p c).ig }

/-- Does every ADDSYN of `specs`, executed in list order from `c`, complete with OK? -/
def specsAccepted (c : Codec) : List (List Byte) → Bool
  | [] => true
  | spec :: rest =>
    match addSynonyms c spec with
    | .ok c' => specsAccepted c' rest
    | .error _ => false

/-- The configuration after the CREATE and the 26 case specs of R97, from a blank unit. -/
def caseConfiguration : Codec :=
  afterSpecs (presetCreated ⟨false, 0#3, Vector.replicate 128 0#7, emptyDt, emptyIg⟩) caseSpecs

/-- R98's constraint on a value of the parameters: executed after the CREATE and the case specs, every ADDSYN of
PRESET_CONFUSABLES and the IGNORE of PRESET_IGNORE complete with OK. An operand longer than a command can carry is
held to the same tests (notes/assumptions/2.md). -/
def presetLegal (p : PresetParams) : Bool :=
  specsAccepted caseConfiguration p.confusables &&
    (match ignoreCharacters (afterSpecs caseConfiguration p.confusables) p.ignored with
      | .ok _ => true
      | .error _ => false)

/-- The unit's two preset constants: any legal value, and nothing is known of which (R8, R98;
notes/assumptions/2.md). The free value stands for itself where it is legal; where it is not a legal value of
the parameters, the reference value takes its place, so that this is a legal value whatever the free value is. -/
def presetParams : PresetParams :=
  if presetLegal Config.freePreset then Config.freePreset else referencePreset

/-- PRESET.B32CI with the two parameters as an argument (R97): it has no operand and raises nothing, and produces
one result record. A configuration that exists is replaced (R96). -/
def execPresetWith (p : PresetParams) (s : State) : Host.Outcome State Fault Refusal :=
  runCommand 0 (fun c _ => .ok (presetConfiguration p c, [])) s

/-- PRESET.B32CI (R97). -/
def execPresetB32CI (s : State) : Host.Outcome State Fault Refusal := execPresetWith presetParams s

end Sys2Proof.Machine
end

