-- ==== Sys2Proof/Machine/Dispatch.lean ====
section
/-! DEFINITION. One arm per command: the meaning of every row of spec/opcode_table.json. -/

namespace Sys2Proof.Machine

def exec (i : Instr) (s : State) : Host.Outcome State Fault Refusal :=
  match i with
  | .create len => Sys2Proof.Machine.execCreate len s
  | .presetB32CI => Sys2Proof.Machine.execPresetB32CI s
  | .addsyn len => Sys2Proof.Machine.execAddsyn len s
  | .ignore len => Sys2Proof.Machine.execIgnore len s
  | .encode len => Sys2Proof.Machine.execEncode len s
  | .decode len => Sys2Proof.Machine.execDecode len s

end Sys2Proof.Machine
end

