-- ==== Sys2Proof/Machine/Step.lean ====
section
/-! DEFINITION. One step of the unit: the oldest command word on CMD, decoded and run as one whole command (00_scope.md R9, 20_memory.md R59). -/

namespace Sys2Proof.Machine

/-- One step (R9): with no word on CMD the unit is idle; otherwise it runs the oldest word, a command or a
reserved word. -/
def step (s : State) : Host.Outcome State Fault Refusal :=
  match fetchWord s with
  | none => idle s
  | some w =>
    match decodeWord w with
    | .command i => exec i s
    | .reserved _ len => execReserved len s

/-- `s` with the command whose bits are `w` (numbered as the opcode table numbers them) as the next packet: its
word before every other word on CMD, and as many zero elements as its LEN field says before every other element
on DIN, so that the very next step runs it (notes/assumptions/11.md). -/
def State.withFetchWord (s : State) (nbits w : Nat) : State :=
  pushPacket (tableWord nbits w) (List.replicate (lenField (tableWord nbits w)) 0#8) s

end Sys2Proof.Machine
end

