-- ==== Sys2Proof/Machine/Environment.lean ====
section
/-! DEFINITION. The host's side of the channels (70_reset_and_hazards.md R181, R189), the result record (30_encoding.md R77), and a run as a sequence of packets (R191). -/

namespace Sys2Proof.Machine

/-- A command packet (R70): one command word and the elements the host sends with it. -/
structure Packet where
  word     : CmdWord
  elements : List Byte
  deriving DecidableEq, Repr

/-- A packet is whole when it has exactly LEN elements, as the host must send it (R189). -/
def packetWhole (p : Packet) : Bool := p.elements.length == lenField p.word

/-- What the host gets back for a command (R77, R189): the three result registers, and the elements drained from
DOUT. -/
structure ResultRecord where
  status : BitVec 32
  errpos : BitVec 32
  reslen : BitVec 32
  output : List Byte
  deriving DecidableEq, Repr

/-- What the host can do to the unit (R189): put a word on CMD, put elements on DIN, drain elements from DOUT, and
reset the unit, after which the tables hold anything (R34, R181; notes/assumptions/13.md). -/
inductive HostAction where
  | putWord (w : CmdWord)
  | putElements (elements : List Byte)
  | drain (n : Nat)
  | reset (alpha : Vector Code7 128) (dt : Vector DtEntry 128) (ig : Vector Bool 128)
  deriving DecidableEq, Repr

/-- The host drains `n` elements from DOUT, the oldest first (R52). -/
def drainDout (n : Nat) (s : State) : State := { s with dout := s.dout.drop n }

/-- The state after a host action. The host reaches VALID, BPS and the tables through commands and reset only. -/
def hostAct (a : HostAction) (s : State) : State :=
  match a with
  | .putWord w => { s with cmd := s.cmd ++ [w] }
  | .putElements elements => { s with din := s.din ++ elements }
  | .drain n => drainDout n s
  | .reset alpha dt ig => State.resetWith alpha dt ig

/-- The host issues a packet: behind everything it sent before (R70). -/
def putPacket (p : Packet) (s : State) : State :=
  { s with cmd := s.cmd ++ [p.word], din := s.din ++ p.elements }

/-- The result record of the command just completed, as the host collects it: the registers and the RESLEN oldest
elements on DOUT (R29, R77). -/
def resultRecord (s : State) : ResultRecord := ⟨s.status, s.errpos, s.reslen, s.dout.take s.reslen.toNat⟩

/-- `n` steps of the unit with nothing from the host between them. -/
def runSteps : Nat → State → Host.Outcome State Fault Refusal
  | 0, s => .next s
  | n + 1, s =>
    match step s with
    | .next t => runSteps n t
    | .fault f => .fault f
    | .refused r => .refused r

/-- One transaction: the host issues a packet, the unit makes one step, the host collects the record and drains
DOUT (R9, R189). A packet that is not whole is refused before anything is sent: a model that takes whole packets
refuses it (R174; 93_implementation_defined.md H1, H2; notes/assumptions/4.md).

DESIGN CHOICE (notes/assumptions/19.md): the channels are presumed empty before a transaction. In a state with a
word on CMD or elements on DIN or DOUT, the step runs the oldest word with the oldest elements, and the record takes
the oldest elements on DOUT, so the record is then not that of `p`. -/
def transact (p : Packet) (s : State) : Host.Outcome (State × ResultRecord) Fault Refusal :=
  if packetWhole p = true then
    match step (putPacket p s) with
    | .next t => .next (drainDout t.reslen.toNat t, resultRecord t)
    | .fault f => .fault f
    | .refused r => .refused r
  else .refused .malformedPacket

/-- A run (R191): packets one after the other, with the sequence of result records as its observable outcome. A
sequence with a packet that is not whole is refused (R174).

DESIGN CHOICE (notes/assumptions/19.md): R191 lets a run start in any state that meets R26 and says nothing of what
is then on the channels. A run presumes that nothing is: the host has collected the records and drained the elements
of everything it sent before. -/
def runPackets (s : State) : List Packet → Host.Outcome (State × List ResultRecord) Fault Refusal
  | [] => .next (s, [])
  | p :: rest =>
    match transact p s with
    | .next (t, r) =>
      match runPackets t rest with
      | .next (u, rs) => .next (u, r :: rs)
      | .fault f => .fault f
      | .refused e => .refused e
    | .fault f => .fault f
    | .refused e => .refused e

end Sys2Proof.Machine
end

