-- ==== Sys2Proof/Machine/Assembler.lean ====
section
/-! DEFINITION. The text form of listings and the assembler (30_encoding.md R78, R82). A line is read as its list of characters. -/

namespace Sys2Proof.Machine

/-- One line of a listing (R78). -/
inductive Listing where
  | create (elements : List Byte)
  | presetB32CI
  | addsyn (elements : List Byte)
  | ignore (elements : List Byte)
  | encode (elements : List Byte)
  | decode (elements : List Byte)
  /-- `.word`: any word, for reserved encodings. -/
  | word (w : CmdWord) (elements : List Byte)
  deriving DecidableEq, Repr

/-- "The assembler sets `LEN` to the number of elements of the operand and `OP` from the mnemonic" (R78).

DESIGN CHOICE (notes/assumptions/12.md): an operand of more than MAXLEN elements cannot be issued (R72;
93_implementation_defined.md H4). For one, LEN is the low 28 bits of its length, and the packet keeps all its
elements, so that it is not whole and a run refuses it. -/
def assemble : Listing → Packet
  | .create es => ⟨encodeInstr (.create es.length), es⟩
  | .presetB32CI => ⟨encodeInstr .presetB32CI, []⟩
  | .addsyn es => ⟨encodeInstr (.addsyn es.length), es⟩
  | .ignore es => ⟨encodeInstr (.ignore es.length), es⟩
  | .encode es => ⟨encodeInstr (.encode es.length), es⟩
  | .decode es => ⟨encodeInstr (.decode es.length), es⟩
  | .word w es => ⟨w, es⟩

/-- The value of a hexadecimal digit, in either case (R10). -/
def hexDigit (ch : Char) : Option Nat :=
  if '0'.toNat ≤ ch.toNat ∧ ch.toNat ≤ '9'.toNat then some (ch.toNat - '0'.toNat)
  else if 'A'.toNat ≤ ch.toNat ∧ ch.toNat ≤ 'F'.toNat then some (ch.toNat - 'A'.toNat + 10)
  else if 'a'.toNat ≤ ch.toNat ∧ ch.toNat ≤ 'f'.toNat then some (ch.toNat - 'a'.toNat + 10)
  else none

/-- The number that a sequence of hexadecimal digits writes, from `acc` on. -/
def hexNumber (acc : Nat) : List Char → Option Nat
  | [] => some acc
  | ch :: rest =>
    match hexDigit ch with
    | some d => hexNumber (16 * acc + d) rest
    | none => none

/-- The element two hexadecimal digits write. -/
def hexByte (a b : Char) : Option Byte :=
  match hexDigit a, hexDigit b with
  | some x, some y => some (BitVec.ofNat 8 (16 * x + y))
  | _, _ => none

/-- Spaces at the front of a line's rest. -/
def skipSpaces (line : List Char) : List Char := line.dropWhile fun ch => ch == ' '

/-- Nothing but spaces is left, or a `;` starts a comment (R78). -/
def endOfLine (line : List Char) : Bool :=
  match skipSpaces line with
  | [] => true
  | ch :: _ => ch == ';'

/-- The elements of a quoted operand, read behind its opening quote, and what stands behind its closing quote
(R78): `\xHH`, `\"` and `\\` are the escapes. -/
def quotedElements : List Char → Option (List Byte × List Char)
  | [] => none
  | '"' :: rest => some ([], rest)
  | '\\' :: 'x' :: a :: b :: rest =>
    match hexByte a b, quotedElements rest with
    | some e, some (es, tail) => some (e :: es, tail)
    | _, _ => none
  | '\\' :: '"' :: rest =>
    match quotedElements rest with
    | some (es, tail) => some (0x22#8 :: es, tail)
    | none => none
  | '\\' :: '\\' :: rest =>
    match quotedElements rest with
    | some (es, tail) => some (0x5C#8 :: es, tail)
    | none => none
  | '\\' :: _ => none
  | ch :: rest =>
    if ch.toNat < 128 then
      match quotedElements rest with
      | some (es, tail) => some (BitVec.ofNat 8 ch.toNat :: es, tail)
      | none => none
    else none

/-- The elements of an operand in hexadecimal: two digits each, separated by spaces, up to the end of the line
(R78). -/
def hexElements : List Char → Option (List Byte)
  | [] => some []
  | ';' :: _ => some []
  | ' ' :: rest => hexElements rest
  | [_] => none
  | [a, b] => (hexByte a b).map fun e => [e]
  | a :: b :: ch :: rest =>
    if ch == ' ' || ch == ';' then
      match hexByte a b, hexElements (ch :: rest) with
      | some e, some es => some (e :: es)
      | _, _ => none
    else none

/-- An operand, to the end of the line (R78). -/
def parseOperand (line : List Char) : Option (List Byte) :=
  match skipSpaces line with
  | '"' :: rest =>
    match quotedElements rest with
    | some (es, tail) => if endOfLine tail then some es else none
    | none => none
  | other => hexElements other

/-- One line with a command (R78); none where it is not of the text form (notes/assumptions/17.md). -/
def parseListing (line : List Char) : Option Listing :=
  let line := skipSpaces line
  let name := line.takeWhile fun ch => !(ch == ' ' || ch == ';')
  let rest := line.drop name.length
  if name == "CREATE".toList then (parseOperand rest).map .create
  else if name == "PRESET.B32CI".toList then (if endOfLine rest then some .presetB32CI else none)
  else if name == "ADDSYN".toList then (parseOperand rest).map .addsyn
  else if name == "IGNORE".toList then (parseOperand rest).map .ignore
  else if name == "ENCODE".toList then (parseOperand rest).map .encode
  else if name == "DECODE".toList then (parseOperand rest).map .decode
  else if name == ".word".toList then
    let after := skipSpaces rest
    let number := after.takeWhile fun ch => !(ch == ' ' || ch == ';')
    match number with
    | '0' :: 'x' :: digits =>
      if digits.length = 8 then
        match hexNumber 0 digits, parseOperand (after.drop number.length) with
        | some n, some es => some (.word (BitVec.ofNat 32 n) es)
        | _, _ => none
      else none
    | _ => none
  else none

/-- The hexadecimal digit that writes a number below 16. -/
def hexChar (n : Nat) : Char := "0123456789ABCDEF".toList.getD n '0'

/-- An element as two hexadecimal digits behind a space. -/
def printElement (e : Byte) : List Char := [' ', hexChar (e.toNat / 16), hexChar (e.toNat % 16)]

/-- A word as `0x` and eight hexadecimal digits. -/
def printWord (w : CmdWord) : List Char :=
  '0' :: 'x' :: (List.range 8).map fun k => hexChar (w.toNat / 16 ^ (7 - k) % 16)

/-- A line of a listing in the text form of R78, its operand in hexadecimal. -/
def printListing : Listing → List Char
  | .create es => "CREATE".toList ++ es.flatMap printElement
  | .presetB32CI => "PRESET.B32CI".toList
  | .addsyn es => "ADDSYN".toList ++ es.flatMap printElement
  | .ignore es => "IGNORE".toList ++ es.flatMap printElement
  | .encode es => "ENCODE".toList ++ es.flatMap printElement
  | .decode es => "DECODE".toList ++ es.flatMap printElement
  | .word w es => ".word ".toList ++ printWord w ++ es.flatMap printElement

end Sys2Proof.Machine
end

