-- ==== Sys2Proof/Safety.lean ====
section
/-! DEFINITION. What holds of every state the unit can reach (10_state.md R26, R27, R28), and what it can reach: any interleaving of steps and host actions from reset. -/

namespace Sys2Proof.Machine

/-- The invariants of a configuration (R22, R26). BPS is 0 while VALID = 0; with VALID = 1 the items of R26: the
range of BPS, the alphabet's characters pairwise distinct and mapped to their positions, every mapped value below
N, and no ignored character mapped. -/
structure Codec.Wf (c : Codec) : Prop where
  bps_of_invalid : c.valid = false → c.bps = 0#3
  bps_pos : c.valid = true → 1 ≤ c.bps.toNat
  alpha_distinct : c.valid = true → ∀ v w : Symbol, v.toNat < c.size → w.toNat < c.size →
    c.readAlpha v = c.readAlpha w → v = w
  canonical_mapped : c.valid = true → ∀ v : Symbol, v.toNat < c.size → c.readDt (c.readAlpha v) = .mapped v
  values_below : c.valid = true → ∀ (i : Code7) (v : Symbol), c.readDt i = .mapped v → v.toNat < c.size
  ignored_unmapped : c.valid = true → ∀ i : Code7, c.readIg i = true → c.readDt i = .unmapped

/-- The invariants of a state: its configuration's, and what the result registers' layouts say (R27, R28): CODE at
most 8, VALID and BPS copies of the registers, the reserved bits 0, an index below MAXLEN and a count of at most
8 * MAXLEN (R28, R29). -/
structure State.Wf (s : State) : Prop where
  codec : s.codec.Wf
  status_valid : statusValidField s.status = s.codec.valid
  status_bps : statusBpsField s.status = s.codec.bps
  status_code : (statusCodeField s.status).toNat ≤ 8
  status_reserved : statusReservedField s.status = 0#16
  errpos_bound : s.errpos.toNat < maxLen
  reslen_bound : s.reslen.toNat ≤ 8 * maxLen

/-- The states the unit can be in, whatever the host does and whatever the tables held at reset (R34, R189). -/
inductive Reachable : State → Prop where
  | reset (alpha : Vector Code7 128) (dt : Vector DtEntry 128) (ig : Vector Bool 128) :
      Reachable (State.resetWith alpha dt ig)
  | step {s t : State} : Reachable s → Sys2Proof.Machine.step s = .next t → Reachable t
  | host {s : State} (a : HostAction) : Reachable s → Reachable (hostAct a s)

/-- Two states the host cannot tell apart by any result (R23, R34; 93_implementation_defined.md U1, U2): they agree
on everything but the table contents that the spec leaves unspecified, which are ALPHA at N and above, and all
three tables while VALID = 0. -/
structure SameButUnspecified (s t : State) : Prop where
  valid : s.codec.valid = t.codec.valid
  bps : s.codec.bps = t.codec.bps
  alpha : s.codec.valid = true → ∀ v : Symbol, v.toNat < s.codec.size → s.codec.readAlpha v = t.codec.readAlpha v
  dt : s.codec.valid = true → s.codec.dt = t.codec.dt
  ig : s.codec.valid = true → s.codec.ig = t.codec.ig
  status : s.status = t.status
  errpos : s.errpos = t.errpos
  reslen : s.reslen = t.reslen
  cmd : s.cmd = t.cmd
  din : s.din = t.din
  dout : s.dout = t.dout

end Sys2Proof.Machine
end

