-- ==== Sys2Proof/Certificates/Slice0/Obligations.lean ====
section
/-! DEFINITION. The statements about the model, for the provers: each formalises a rule of spec/ (its docstring names it) or is derived from the sections it names. -/

namespace Sys2Proof.Claims

open Sys2Proof Sys2Proof.Machine

/-- DIN holds the whole operand of `len` elements (R51). -/
def Supplied (len : Nat) (s : State) : Prop := len ≤ s.din.length

/-- The state after a command of `len` elements that completes with OK, written out (R14, R27, R30, R51, R52): the
configuration is `c`, `out` is behind what DOUT held, the packet is gone, STATUS has CODE 0, VALID and BPS of `c` and
ERRCHAR 0, ERRPOS is 0 and RESLEN counts `out`. -/
def okState (c : Codec) (out : List Byte) (len : Nat) (s : State) : State where
  codec := c
  status := 0#16 ++ 0#8 ++ c.bps ++ BitVec.ofBool c.valid ++ 0#4
  errpos := 0#32
  reslen := BitVec.ofNat 32 out.length
  cmd := s.cmd.tail
  din := s.din.drop len
  dout := s.dout ++ out

/-- The state after a command of `len` elements that raises the code `number`, written out (R14, R27, R28, R165): the
configuration and DOUT are what they were, the packet is gone, STATUS has the code, the unchanged VALID and BPS and
ERRCHAR, ERRPOS is the index and RESLEN is 0. -/
def errorState (number : BitVec 4) (ch : Byte) (pos len : Nat) (s : State) : State where
  codec := s.codec
  status := 0#16 ++ ch ++ s.codec.bps ++ BitVec.ofBool s.codec.valid ++ number
  errpos := BitVec.ofNat 32 pos
  reslen := 0#32
  cmd := s.cmd.tail
  din := s.din.drop len
  dout := s.dout

/-- Every element is 7-bit ASCII: its code is below 128. -/
def AllAscii (din : List Byte) : Prop := ∀ ch ∈ din, ch.toNat < 128

/-- `ch` stands at index `i`, `bad` holds of it, and of no element at a lower index. -/
def LowestBad (bad : Byte → Prop) (din : List Byte) (i : Nat) (ch : Byte) : Prop :=
  din[i]? = some ch ∧ bad ch ∧ ∀ (k : Nat) (d : Byte), k < i → din[k]? = some d → ¬ bad d

/-- The alphabet lengths of R91. -/
def Lengths : List Nat := [2, 4, 8, 16, 32, 64, 128]

/-- `ch` stands at index `j`, an element at a lower index equals it, and no element below index `j` repeats one at a
lower index (R94). -/
def LowestRepeat (din : List Byte) (j : Nat) (ch : Byte) : Prop :=
  din[j]? = some ch ∧ (∃ i < j, din[i]? = some ch) ∧ (din.take j).Nodup

/-- A later element of an ADDSYN spec that R103 rejects: mapped to a value other than `v`, or ignored. -/
def Conflicting (c : Codec) (v : Symbol) (ch : Byte) : Prop :=
  (∃ w, w ≠ v ∧ c.readDt (ch.setWidth 7) = .mapped w) ∨ c.readIg (ch.setWidth 7) = true

/-- Bit `o` of the bit stream of a buffer (R53, R121): bit `7 - o mod 8` of byte `o div 8`; behind the last byte the
padding zeros. -/
def streamBit (data : List Byte) (o : Nat) : Nat :=
  match data[o / 8]? with
  | some b => (b.getLsbD (7 - o % 8)).toNat
  | none => 0

/-- Symbol value `k` of a buffer: `sum over t in 0..B-1 of S'[k*B + t] * 2^(B-1-t)` (R121). -/
def specSymbol (B : Nat) (data : List Byte) (k : Nat) : Nat :=
  ∑ t ∈ Finset.range B, streamBit data (k * B + t) * 2 ^ (B - 1 - t)

/-- The value a text element contributes to DECODE (R142): none when it is ignored, else its symbol value. -/
def elementValue (c : Codec) (ch : Byte) : Option Symbol :=
  if c.readIg (ch.setWidth 7) = true then none
  else
    match c.readDt (ch.setWidth 7) with
    | .mapped v => some v
    | .unmapped => none

/-- `v_0 .. v_(m-1)`: the values of the mapped characters in text order (R141). -/
def textValues (c : Codec) (text : List Byte) : List Symbol := text.filterMap (elementValue c)

/-- A text element that is neither ignored nor mapped, or is 0x80 or more (R142). -/
def Invalid (c : Codec) (ch : Byte) : Prop :=
  128 ≤ ch.toNat ∨ (c.readIg (ch.setWidth 7) = false ∧ c.readDt (ch.setWidth 7) = .unmapped)

/-- Bit `o` of the bit stream of a text: bit `B - 1 - o mod B` of symbol value `o div B` (R141). -/
def valueBit (B : Nat) (values : List Symbol) (o : Nat) : Nat :=
  match values[o / B]? with
  | some v => (v.getLsbD (B - 1 - o % B)).toNat
  | none => 0

/-- Byte `n` of a text: `sum over j in 0..7 of S[8*n + j] * 2^(7-j)` (R141). -/
def specByte (B : Nat) (values : List Symbol) (n : Nat) : Nat :=
  ∑ j ∈ Finset.range 8, valueBit B values (8 * n + j) * 2 ^ (7 - j)

/-- Two configurations that ENCODE cannot tell apart (R128): VALID, BPS and ALPHA below N agree. -/
def SameAlphabet (c d : Codec) : Prop :=
  c.valid = d.valid ∧ c.bps = d.bps ∧ ∀ v : Symbol, v.toNat < c.size → c.readAlpha v = d.readAlpha v

/-- The packets of the sequence of R97, one command each, for a value of the two parameters. -/
def presetPackets (p : PresetParams) : List Packet :=
  (Listing.create base32Alphabet :: (caseSpecs ++ p.confusables).map Listing.addsyn ++
    [Listing.ignore p.ignored]).map assemble

/-- A unit between two transactions: the host has taken everything, and has sent nothing more. -/
def Quiet (s : State) : Prop := s.cmd = [] ∧ s.din = [] ∧ s.dout = []

/-- The other case of a letter, and every other character itself (R97: 0x41 to 0x5A, 0x61 to 0x7A). -/
def swapCase (ch : Byte) : Byte :=
  if 0x41 ≤ ch.toNat ∧ ch.toNat ≤ 0x5A then ch + 0x20#8
  else if 0x61 ≤ ch.toNat ∧ ch.toNat ≤ 0x7A then ch - 0x20#8
  else ch

end Sys2Proof.Claims

open Sys2Proof Sys2Proof.Machine Sys2Proof.Claims

/-! ### Encoding -/

/-- Derived from 30_encoding.md sections 1 to 4 (R71, R73, R76): every well-formed command decodes from its own word,
and every word that decodes to a command is that command's word. -/
def Obligations.DecodeAndEncodeAgree : Prop :=
  (∀ i : Instr, i.wf = true → decodeWord (encodeInstr i) = .command i) ∧
  (∀ (w : CmdWord) (i : Instr), decodeWord w = .command i → i.wf = true ∧ encodeInstr i = w)

/-- R73: a word selects a row of the opcode map when `w & mask = match`; the rows are disjoint; the selected row is
that of the decoded command, its OP number the row's, and a word that selects none is reserved. -/
def Obligations.DecoderFollowsTheOpcodeMap : Prop :=
  opcodeMap.map (fun r => (r.mnemonic, r.pattern, r.mask)) =
    [("CREATE", 0x10000000#32, 0xF0000000#32), ("PRESET.B32CI", 0x20000000#32, 0xFFFFFFFF#32),
     ("ADDSYN", 0x30000000#32, 0xF0000000#32), ("IGNORE", 0x40000000#32, 0xF0000000#32),
     ("ENCODE", 0x50000000#32, 0xF0000000#32), ("DECODE", 0x60000000#32, 0xF0000000#32)] ∧
  (∀ w : CmdWord,
    (opcodeMap.filter fun r => decide (w &&& r.mask = r.pattern)).map (·.mnemonic) =
      match decodeWord w with
      | .command i => [i.mnemonic]
      | .reserved _ _ => []) ∧
  ∀ (w : CmdWord) (i : Instr), decodeWord w = .command i →
    (i.mnemonic, opField w) ∈ [("CREATE", 0x1#4), ("PRESET.B32CI", 0x2#4), ("ADDSYN", 0x3#4), ("IGNORE", 0x4#4),
      ("ENCODE", 0x5#4), ("DECODE", 0x6#4)] ∧ i.len = lenField w

/-- Derived from 30_encoding.md sections 3, 4, 6 and 7 (R82 of section 7, which the spec marks as derived from R71 and
R73; R78 for the listings; R75 and R76 for the two reserved words): the worked encodings, each read from its listing,
assembled and decoded. Details of the text form are the model's choice (notes/assumptions/17.md). -/
def Obligations.WorkedEncodings : Prop :=
  (parseListing "CREATE \"ABCDEFGHIJKLMNOPQRSTUVWXYZ234567\"".toList).map assemble =
    some ⟨0x10000020#32, [0x41, 0x42, 0x43, 0x44, 0x45, 0x46, 0x47, 0x48, 0x49, 0x4A, 0x4B, 0x4C, 0x4D, 0x4E, 0x4F,
      0x50, 0x51, 0x52, 0x53, 0x54, 0x55, 0x56, 0x57, 0x58, 0x59, 0x5A, 0x32, 0x33, 0x34, 0x35, 0x36, 0x37]⟩ ∧
  (parseListing "PRESET.B32CI".toList).map assemble = some ⟨0x20000000#32, []⟩ ∧
  (parseListing "ADDSYN \"A0O\"".toList).map assemble = some ⟨0x30000003#32, [0x41, 0x30, 0x4F]⟩ ∧
  (parseListing "IGNORE \"-\"".toList).map assemble = some ⟨0x40000001#32, [0x2D]⟩ ∧
  (parseListing "ENCODE 66".toList).map assemble = some ⟨0x50000001#32, [0x66]⟩ ∧
  (parseListing "DECODE \"MY\"".toList).map assemble = some ⟨0x60000002#32, [0x4D, 0x59]⟩ ∧
  (parseListing "DECODE \"\"".toList).map assemble = some ⟨0x60000000#32, []⟩ ∧
  (parseListing ".word 0x70000002 00 00".toList).map assemble = some ⟨0x70000002#32, [0x00, 0x00]⟩ ∧
  (parseListing ".word 0x20000001 41".toList).map assemble = some ⟨0x20000001#32, [0x41]⟩ ∧
  decodeWord 0x10000020#32 = .command (.create 32) ∧ decodeWord 0x20000000#32 = .command .presetB32CI ∧
  decodeWord 0x30000003#32 = .command (.addsyn 3) ∧ decodeWord 0x40000001#32 = .command (.ignore 1) ∧
  decodeWord 0x50000001#32 = .command (.encode 1) ∧ decodeWord 0x60000002#32 = .command (.decode 2) ∧
  decodeWord 0x60000000#32 = .command (.decode 0) ∧
  decodeWord 0x70000002#32 = .reserved .unassignedOp 2 ∧
  decodeWord 0x20000001#32 = .reserved .presetWithOperand 1 ∧
  (∀ s : State, s.cmd = [0x70000002#32] → s.din = [0x00, 0x00] → step s = .next (errorState 8#4 0#8 0 2 s)) ∧
  (∀ s : State, s.cmd = [0x20000001#32] → s.din = [0x41] → step s = .next (errorState 8#4 0#8 0 1 s))

/-- R75: the words that match no row are OP = 0, OP = 7 to 15, and OP = 2 with LEN not 0; each consumes its LEN
elements, changes no configuration, puts nothing on DOUT and completes with IllegalCommand. -/
def Obligations.ReservedWordsCompleteWithIllegalCommand : Prop :=
  ∀ w : CmdWord,
    ((∀ r ∈ opcodeMap, w &&& r.mask ≠ r.pattern) ↔
      (opField w = 0x0#4 ∨ 0x7#4 ≤ opField w ∨ (opField w = 0x2#4 ∧ lenField w ≠ 0))) ∧
    ((∀ r ∈ opcodeMap, w &&& r.mask ≠ r.pattern) →
      ∀ (s : State) (rest : List CmdWord), s.cmd = w :: rest → Supplied (lenField w) s →
        step s = .next (errorState 8#4 0#8 0 (lenField w) s))

/-! ### The step -/

/-- Derived from 00_scope.md section 5 (R9) and 30_encoding.md sections 1 and 4 (R70, R76): when the oldest word on
CMD decodes to a command, the step is exec of it, and with its operand on DIN the command completes and exactly its
packet is gone. The step adds nothing around exec. -/
def Obligations.StepRunsTheDecodedCommand : Prop :=
  ∀ (s : State) (w : CmdWord) (rest : List CmdWord) (i : Instr), s.cmd = w :: rest → decodeWord w = .command i →
    step s = exec i s ∧
    (Supplied i.len s → ∃ t, exec i s = .next t ∧ t.cmd = rest ∧ t.din = s.din.drop (lenField w))

/-- Derived from 60_exceptions.md section 8 and 70_reset_and_hazards.md section 1 (R171, R181): with CMD empty the
unit executes nothing and keeps all its state. -/
def Obligations.IdleUnitKeepsItsState : Prop :=
  ∀ s : State, s.cmd = [] → step s = .next s

/-- Derived from 60_exceptions.md section 9 (R172): with fewer than LEN elements on DIN the unit waits, however many
steps it makes; when the host puts the missing elements on DIN, the very next step completes the command. That a
waiting step changes nothing is the model's reading (notes/assumptions/4.md). -/
def Obligations.UndersuppliedCommandWaits : Prop :=
  ∀ (s : State) (w : CmdWord) (rest : List CmdWord), s.cmd = w :: rest → s.din.length < lenField w →
    (∀ n : Nat, runSteps n s = .next s) ∧
    (∀ more : List Byte, lenField w ≤ s.din.length + more.length →
      ∃ t, step (hostAct (.putElements more) s) = .next t ∧ t.cmd = rest ∧
        t.din = (s.din ++ more).drop (lenField w))

/-- Derived from 60_exceptions.md section 9 (R172, and R174, which the spec marks as derived): no step of the unit
faults or is refused. R174 has the unit's errors be no faults, but also has a model refuse command sequences with an
under-supplied packet. That a step is refused in no state rests on the model's reading (notes/assumptions/16.md): a
step with too few elements on DIN waits (notes/assumptions/4.md), an idle step changes nothing
(notes/assumptions/5.md), and it is the run that refuses a malformed packet (RunsRefuseMalformedPackets). -/
def Obligations.EveryStepAnswersANextState : Prop :=
  ∀ s : State, ∃ t, step s = .next t

/-- Derived from 20_memory.md section 7 and 30_encoding.md section 1 (R59, R70): words are taken strictly in order,
each with its own elements: after `n` steps of a unit whose DIN holds all the operands, exactly the first `n` packets
are gone. -/
def Obligations.PacketsAreConsumedInOrder : Prop :=
  ∀ (s : State) (n : Nat), n ≤ s.cmd.length → (s.cmd.map lenField).sum ≤ s.din.length →
    ∃ t, runSteps n s = .next t ∧ t.cmd = s.cmd.drop n ∧
      t.din = s.din.drop ((s.cmd.take n).map lenField).sum

/-! ### CREATE -/

/-- R95: CREATE's commit, and what the host observes. -/
def Obligations.CreateCommitsTheAlphabet : Prop :=
  ∀ (len : Nat) (s : State), Supplied len s → len ∈ Lengths → AllAscii (s.din.take len) → (s.din.take len).Nodup →
    ∃ c : Codec, exec (.create len) s = .next (okState c [] len s) ∧
      c.valid = true ∧ c.bps.toNat = Nat.log2 len ∧ 2 ^ c.bps.toNat = len ∧
      (∀ (v : Symbol) (ch : Byte), (s.din.take len)[v.toNat]? = some ch →
        c.readAlpha v = ch.setWidth 7 ∧ c.readDt (ch.setWidth 7) = .mapped v) ∧
      (∀ i : Code7, (∀ ch ∈ s.din.take len, ch.setWidth 7 ≠ i) → c.readDt i = .unmapped) ∧
      (∀ i : Code7, c.readIg i = false) ∧
      (∀ v : Symbol, len ≤ v.toNat → c.readAlpha v = s.codec.readAlpha v) ∧
      (okState c [] len s).status = BitVec.ofNat 32 (0x10 + 2 ^ 5 * Nat.log2 len)

/-- R92: CREATE raises InvalidLength exactly when `len` is none of the seven lengths. -/
def Obligations.CreateRejectsOtherLengths : Prop :=
  ∀ (len : Nat) (s : State), Supplied len s →
    (len ∉ Lengths → exec (.create len) s = .next (errorState 1#4 0#8 0 len s)) ∧
    (len ∈ Lengths → ∀ t, exec (.create len) s = .next t → statusCodeField t.status ≠ 1#4)

/-- R93: CREATE raises NonAsciiCharacter at the lowest element of 0x80 or more of an operand of a valid length, and
never when every element is below 0x80. -/
def Obligations.CreateRejectsNonAscii : Prop :=
  ∀ (len : Nat) (s : State), Supplied len s → len ∈ Lengths →
    (∀ (i : Nat) (ch : Byte), LowestBad (fun d => 128 ≤ d.toNat) (s.din.take len) i ch →
      exec (.create len) s = .next (errorState 2#4 ch i len s)) ∧
    (AllAscii (s.din.take len) → ∀ t, exec (.create len) s = .next t → statusCodeField t.status ≠ 2#4)

/-- R94: CREATE raises DuplicateCharacter at the lowest element that repeats an earlier one, and never when all are
distinct; characters that differ only in case are different. -/
def Obligations.CreateRejectsDuplicates : Prop :=
  ∀ (len : Nat) (s : State), Supplied len s → len ∈ Lengths → AllAscii (s.din.take len) →
    (∀ (j : Nat) (ch : Byte), LowestRepeat (s.din.take len) j ch →
      exec (.create len) s = .next (errorState 3#4 ch j len s)) ∧
    ((s.din.take len).Nodup → ∀ t, exec (.create len) s = .next t → statusCodeField t.status ≠ 3#4)

/-- R96: CREATE and PRESET.B32CI on a configured unit. A successful CREATE leaves a configuration in which nothing of
the old one is left (but for the ALPHA entries at N and above, which nothing reads), and so does PRESET.B32CI; a
failed CREATE leaves the old one exactly as it was. -/
def Obligations.CreateReplacesTheConfiguration : Prop :=
  (∀ (len : Nat) (s s' t t' : State), Supplied len s → Supplied len s' → s.din.take len = s'.din.take len →
    exec (.create len) s = .next t → exec (.create len) s' = .next t' →
    (statusCodeField t.status = 0#4 ↔ statusCodeField t'.status = 0#4) ∧
    (statusCodeField t.status = 0#4 →
      SameAlphabet t.codec t'.codec ∧ t.codec.dt = t'.codec.dt ∧ t.codec.ig = t'.codec.ig) ∧
    (statusCodeField t.status ≠ 0#4 → t.codec = s.codec)) ∧
  (∀ s s' : State, ∃ t t', exec .presetB32CI s = .next t ∧ exec .presetB32CI s' = .next t' ∧
    SameAlphabet t.codec t'.codec ∧ t.codec.dt = t'.codec.dt ∧ t.codec.ig = t'.codec.ig)

/-! ### PRESET.B32CI -/

/-- Derived from 40_configuration.md section 3 (R97, R98, and R99, which the spec marks as derived): PRESET.B32CI
completes with OK, with the unit's own constants, a legal value of the two parameters; the tables it leaves, for every
legal value; and for the reference value the two entries it adds. That nothing more is known of the constants is the
model's choice (notes/assumptions/2.md). -/
def Obligations.PresetWritesItsTables : Prop :=
  (∃ p : PresetParams, presetLegal p = true ∧ ∀ s : State, exec .presetB32CI s = execPresetWith p s ∧
    ∃ c : Codec, exec .presetB32CI s = .next (okState c [] 0 s) ∧ c.valid = true ∧ c.bps = 5#3) ∧
  (∀ (p : PresetParams) (s : State), presetLegal p = true →
    ∃ c : Codec, execPresetWith p s = .next (okState c [] 0 s) ∧ c.valid = true ∧ c.bps = 5#3 ∧ c.size = 32 ∧
      (okState c [] 0 s).status = 0x000000B0#32 ∧
      (∀ k < 26, c.readAlpha (BitVec.ofNat 7 k) = BitVec.ofNat 7 (0x41 + k) ∧
        c.readDt (BitVec.ofNat 7 (0x41 + k)) = .mapped (BitVec.ofNat 7 k) ∧
        c.readDt (BitVec.ofNat 7 (0x61 + k)) = .mapped (BitVec.ofNat 7 k)) ∧
      (∀ k < 6, c.readAlpha (BitVec.ofNat 7 (26 + k)) = BitVec.ofNat 7 (0x32 + k) ∧
        c.readDt (BitVec.ofNat 7 (0x32 + k)) = .mapped (BitVec.ofNat 7 (26 + k))) ∧
      (∀ spec ∈ p.confusables, ∃ anchor synonyms v, spec = anchor :: synonyms ∧
        ∀ ch ∈ spec, c.readDt (ch.setWidth 7) = .mapped v) ∧
      (∀ i : Code7, c.readDt i ≠ .unmapped →
        (0x41 ≤ i.toNat ∧ i.toNat ≤ 0x5A) ∨ (0x61 ≤ i.toNat ∧ i.toNat ≤ 0x7A) ∨
        (0x32 ≤ i.toNat ∧ i.toNat ≤ 0x37) ∨ ∃ spec ∈ p.confusables, ∃ ch ∈ spec, ch.setWidth 7 = i) ∧
      (∀ i : Code7, c.readIg i = true ↔ ∃ ch ∈ p.ignored, ch.setWidth 7 = i)) ∧
  (∀ s : State, ∃ t, execPresetWith referencePreset s = .next t ∧ t.codec.readDt 0x30#7 = .mapped 14#7 ∧
    t.codec.readDt 0x31#7 = .mapped 8#7 ∧ ∀ i, t.codec.readIg i = false)

/-- Derived from 40_configuration.md section 3 (R97, R98): from any state of a quiet unit, the sequence CREATE, the 26
case ADDSYNs, the ADDSYNs of PRESET_CONFUSABLES and the IGNORE completes with OK at every step and leaves exactly the
configuration that PRESET.B32CI leaves, for every legal value whose operands fit a command. -/
def Obligations.PresetEqualsItsSequence : Prop :=
  ∀ (p : PresetParams) (s : State), presetLegal p = true → Quiet s →
    (∀ spec ∈ p.confusables, spec.length ≤ maxLen) → p.ignored.length ≤ maxLen →
    ∃ t u rs, runPackets s (presetPackets p) = .next (t, rs) ∧ execPresetWith p s = .next u ∧ t.codec = u.codec ∧
      rs.length = 28 + p.confusables.length ∧ ∀ r ∈ rs, statusCodeField r.status = 0#4

/-- Derived from 40_configuration.md section 3 (R98): the reference value is legal and `["I1", "L1"]` is not. A value
whose operands fit a command is legal exactly when the sequence of R97, run on a quiet unit, completes with OK at every
command. In a legal value no spec is empty, every anchor is a letter, a digit `2` to `7` or a synonym of an earlier
spec, no synonym decodes to another value by then, every element is ASCII, and no ignored character decodes. -/
def Obligations.LegalPresetValues : Prop :=
  presetLegal referencePreset = true ∧ presetLegal ⟨[[0x49#8, 0x31#8], [0x4C#8, 0x31#8]], []⟩ = false ∧
  (∀ (p : PresetParams) (s : State), Quiet s → (∀ spec ∈ p.confusables, spec.length ≤ maxLen) →
    p.ignored.length ≤ maxLen →
    (presetLegal p = true ↔ ∃ t rs, runPackets s (presetPackets p) = .next (t, rs) ∧
      ∀ r ∈ rs, statusCodeField r.status = 0#4)) ∧
  ∀ p : PresetParams, presetLegal p = true →
    (∀ (before behind : List (List Byte)) (anchor : Byte) (synonyms : List Byte),
      p.confusables = before ++ (anchor :: synonyms) :: behind →
      ((0x41 ≤ anchor.toNat ∧ anchor.toNat ≤ 0x5A) ∨ (0x61 ≤ anchor.toNat ∧ anchor.toNat ≤ 0x7A) ∨
        (0x32 ≤ anchor.toNat ∧ anchor.toNat ≤ 0x37) ∨ ∃ earlier ∈ before, anchor ∈ earlier.drop 1) ∧
      ∀ s : State, ∃ t v, execPresetWith ⟨before, []⟩ s = .next t ∧
        t.codec.readDt (anchor.setWidth 7) = .mapped v ∧ ∀ ch ∈ synonyms, ¬ Conflicting t.codec v ch) ∧
    (∀ spec ∈ p.confusables, spec ≠ [] ∧ AllAscii spec) ∧ AllAscii p.ignored ∧
    ∀ s : State, ∃ t, execPresetWith p s = .next t ∧ ∀ ch ∈ p.ignored, t.codec.readDt (ch.setWidth 7) = .unmapped

/-! ### ADDSYN -/

/-- R104: ADDSYN's commit. Every later element of the spec maps to the anchor's value, nothing else changes, no
mapping is changed or removed, and ENCODE produces what it produced. -/
def Obligations.AddsynMapsTheSynonyms : Prop :=
  ∀ (len : Nat) (s : State) (anchor : Byte) (synonyms : List Byte) (v : Symbol),
    s.codec.valid = true → Supplied len s → s.din.take len = anchor :: synonyms → AllAscii (anchor :: synonyms) →
    s.codec.readDt (anchor.setWidth 7) = .mapped v → (∀ ch ∈ synonyms, ¬ Conflicting s.codec v ch) →
    ∃ c : Codec, exec (.addsyn len) s = .next (okState c [] len s) ∧
      (∀ ch ∈ synonyms, c.readDt (ch.setWidth 7) = .mapped v) ∧
      (∀ i : Code7, (∀ ch ∈ synonyms, ch.setWidth 7 ≠ i) → c.readDt i = s.codec.readDt i) ∧
      (∀ (i : Code7) (w : Symbol), s.codec.readDt i = .mapped w → c.readDt i = .mapped w) ∧
      c.alpha = s.codec.alpha ∧ c.ig = s.codec.ig ∧ c.bps = s.codec.bps ∧ c.valid = s.codec.valid ∧
      ∀ data : List Byte, encodeText c data = encodeText s.codec data

/-- R101: ADDSYN raises NonAsciiCharacter at the lowest element of 0x80 or more, the anchor included, whatever the
anchor is mapped to; and never when every element is below 0x80. -/
def Obligations.AddsynRejectsNonAscii : Prop :=
  ∀ (len : Nat) (s : State), s.codec.valid = true → Supplied len s →
    (∀ (i : Nat) (ch : Byte), LowestBad (fun d => 128 ≤ d.toNat) (s.din.take len) i ch →
      exec (.addsyn len) s = .next (errorState 2#4 ch i len s)) ∧
    (AllAscii (s.din.take len) → ∀ t, exec (.addsyn len) s = .next t → statusCodeField t.status ≠ 2#4)

/-- R102: ADDSYN raises UnmappedAnchor when the spec is all ASCII and its anchor is not mapped, or there is no anchor;
any mapped character serves as anchor, and the new synonyms get its value, which is a canonical character's; an
ignored character never serves. -/
def Obligations.AddsynRejectsAnUnmappedAnchor : Prop :=
  ∀ (len : Nat) (s : State), s.codec.valid = true → Supplied len s → AllAscii (s.din.take len) →
    (len = 0 → exec (.addsyn len) s = .next (errorState 4#4 0#8 0 len s)) ∧
    (∀ (anchor : Byte) (synonyms : List Byte), s.din.take len = anchor :: synonyms →
      (s.codec.readDt (anchor.setWidth 7) = .unmapped →
        exec (.addsyn len) s = .next (errorState 4#4 anchor 0 len s)) ∧
      (s.codec.readDt (anchor.setWidth 7) ≠ .unmapped →
        ∀ t, exec (.addsyn len) s = .next t → statusCodeField t.status ≠ 4#4) ∧
      (∀ v, s.codec.readDt (anchor.setWidth 7) = .mapped v →
        ∀ t, exec (.addsyn len) s = .next t → statusCodeField t.status = 0#4 →
          ∀ ch ∈ synonyms, t.codec.readDt (ch.setWidth 7) = .mapped v) ∧
      (s.codec.Wf → (∀ v, s.codec.readDt (anchor.setWidth 7) = .mapped v →
        ∃ w : Symbol, w.toNat < s.codec.size ∧ s.codec.readDt (s.codec.readAlpha w) = .mapped v)) ∧
      (s.codec.Wf → s.codec.readIg (anchor.setWidth 7) = true →
        exec (.addsyn len) s = .next (errorState 4#4 anchor 0 len s)))

/-- R103: ADDSYN raises ConflictingSynonym at the lowest later element that is mapped to a value other than the
anchor's or is ignored, and never when there is none; so no canonical character becomes a synonym of another. -/
def Obligations.AddsynRejectsConflicts : Prop :=
  ∀ (len : Nat) (s : State) (anchor : Byte) (synonyms : List Byte) (v : Symbol),
    s.codec.valid = true → Supplied len s → s.din.take len = anchor :: synonyms → AllAscii (anchor :: synonyms) →
    s.codec.readDt (anchor.setWidth 7) = .mapped v →
    (∀ (k : Nat) (ch : Byte), LowestBad (Conflicting s.codec v) synonyms k ch →
      exec (.addsyn len) s = .next (errorState 5#4 ch (k + 1) len s)) ∧
    ((∀ ch ∈ synonyms, ¬ Conflicting s.codec v ch) →
      ∀ t, exec (.addsyn len) s = .next t → statusCodeField t.status ≠ 5#4) ∧
    (s.codec.Wf → ∀ w : Symbol, w.toNat < s.codec.size → w ≠ v → (s.codec.readAlpha w).setWidth 8 ∈ synonyms →
      ∀ t, exec (.addsyn len) s = .next t → statusCodeField t.status = 5#4 ∧ t.codec = s.codec)

/-! ### IGNORE -/

/-- R109: IGNORE's commit: the listed entries are set, no other entry changes, and nothing else. -/
def Obligations.IgnoreSetsItsCharacters : Prop :=
  ∀ (len : Nat) (s : State), s.codec.valid = true → Supplied len s → AllAscii (s.din.take len) →
    (∀ ch ∈ s.din.take len, s.codec.readDt (ch.setWidth 7) = .unmapped) →
    ∃ c : Codec, exec (.ignore len) s = .next (okState c [] len s) ∧
      (∀ ch ∈ s.din.take len, c.readIg (ch.setWidth 7) = true) ∧
      (∀ i : Code7, (∀ ch ∈ s.din.take len, ch.setWidth 7 ≠ i) → c.readIg i = s.codec.readIg i) ∧
      c.alpha = s.codec.alpha ∧ c.dt = s.codec.dt ∧ c.bps = s.codec.bps ∧ c.valid = s.codec.valid ∧
      ∀ data : List Byte, encodeText c data = encodeText s.codec data

/-- R107: IGNORE raises NonAsciiCharacter at the lowest element of 0x80 or more, and adds no character. -/
def Obligations.IgnoreRejectsNonAscii : Prop :=
  ∀ (len : Nat) (s : State), s.codec.valid = true → Supplied len s →
    (∀ (i : Nat) (ch : Byte), LowestBad (fun d => 128 ≤ d.toNat) (s.din.take len) i ch →
      exec (.ignore len) s = .next (errorState 2#4 ch i len s)) ∧
    (AllAscii (s.din.take len) → ∀ t, exec (.ignore len) s = .next t → statusCodeField t.status ≠ 2#4)

/-- R108: IGNORE raises ConflictingSynonym at the lowest element that DT maps, and never when there is none; with
R103, no step makes a character both mapped and ignored. -/
def Obligations.IgnoreRejectsMappedCharacters : Prop :=
  ∀ (len : Nat) (s : State), s.codec.valid = true → Supplied len s → AllAscii (s.din.take len) →
    (∀ (i : Nat) (ch : Byte),
      LowestBad (fun d => s.codec.readDt (d.setWidth 7) ≠ .unmapped) (s.din.take len) i ch →
      exec (.ignore len) s = .next (errorState 5#4 ch i len s)) ∧
    ((∀ ch ∈ s.din.take len, s.codec.readDt (ch.setWidth 7) = .unmapped) →
      ∀ t, exec (.ignore len) s = .next t → statusCodeField t.status ≠ 5#4) ∧
    ((∀ i, s.codec.readIg i = true → s.codec.readDt i = .unmapped) →
      ∀ t, (exec (.ignore len) s = .next t ∨ exec (.addsyn len) s = .next t) →
        ∀ i, t.codec.readIg i = true → t.codec.readDt i = .unmapped)

/-! ### Before construction -/

/-- R90: with VALID = 0, ADDSYN, IGNORE, ENCODE and DECODE raise NotCreated, having consumed their operand; CREATE,
PRESET.B32CI and reserved words never do. -/
def Obligations.UnconfiguredUnitRaisesNotCreated : Prop :=
  (∀ (len : Nat) (s : State), s.codec.valid = false → Supplied len s →
    exec (.addsyn len) s = .next (errorState 7#4 0#8 0 len s) ∧
    exec (.ignore len) s = .next (errorState 7#4 0#8 0 len s) ∧
    exec (.encode len) s = .next (errorState 7#4 0#8 0 len s) ∧
    exec (.decode len) s = .next (errorState 7#4 0#8 0 len s)) ∧
  (∀ (len : Nat) (s t : State), Supplied len s →
    (exec (.create len) s = .next t ∨ exec .presetB32CI s = .next t ∨ execReserved len s = .next t) →
    statusCodeField t.status ≠ 7#4)

/-! ### ENCODE -/

/-- R121: the bit-stream definition of ENCODE: element `k` of the output is `zext_8(ALPHA[v_k])`, `M = ceil(8*L/B)` of
them, each read from an entry below N and below 0x80. -/
def Obligations.EncodeFollowsTheBitStream : Prop :=
  ∀ (len : Nat) (s : State), s.codec.valid = true → 1 ≤ s.codec.bps.toNat → Supplied len s →
    ∃ out : List Byte, exec (.encode len) s = .next (okState s.codec out len s) ∧
      out.length = (8 * len + s.codec.bps.toNat - 1) / s.codec.bps.toNat ∧
      ∀ k < out.length, ∃ v : Symbol, v.toNat = specSymbol s.codec.bps.toNat (s.din.take len) k ∧
        v.toNat < s.codec.size ∧ out[k]? = some ((s.codec.readAlpha v).setWidth 8)

/-- Derived from 41_encode.md section 2 (R122): RESLEN of an ENCODE is `(8*L + BPS - 1) div BPS`, whatever the data;
and the table of R122, which the spec marks "[derived: the table is the formula evaluated]". -/
def Obligations.EncodeOutputLength : Prop :=
  (∀ (len : Nat) (s : State), s.codec.valid = true → 1 ≤ s.codec.bps.toNat → Supplied len s → len ≤ maxLen →
    ∃ t, exec (.encode len) s = .next t ∧
      t.reslen.toNat = (8 * len + s.codec.bps.toNat - 1) / s.codec.bps.toNat ∧
      t.dout.length = s.dout.length + t.reslen.toNat ∧ (len = 0 → t.reslen = 0#32)) ∧
  (List.range 8).map (fun L => (List.range 7).map fun b => symbolCount (b + 1) L) =
    [[0, 0, 0, 0, 0, 0, 0], [8, 4, 3, 2, 2, 2, 2], [16, 8, 6, 4, 4, 3, 3], [24, 12, 8, 6, 5, 4, 4],
     [32, 16, 11, 8, 7, 6, 5], [40, 20, 14, 10, 8, 7, 6], [48, 24, 16, 12, 10, 8, 7], [56, 28, 19, 14, 12, 10, 8]]

/-- Derived from 41_encode.md section 2 (R123, which the spec marks as derived from R121): the number of padding bits,
for every BPS and every length, and where they stand: the `P` low bits of the last symbol value. There is no other
padding: the output has exactly `M` elements. -/
def Obligations.PaddingIsInsideTheLastSymbol : Prop :=
  (∀ B L : Nat, 1 ≤ B → B ≤ 7 →
    paddingBits B L = (B - 8 * L % B) % B ∧ paddingBits B L < B ∧ (paddingBits B L = 0 ↔ B ∣ 8 * L)) ∧
  (∀ L : Nat, paddingBits 1 L = 0 ∧ paddingBits 2 L = 0 ∧ paddingBits 4 L = 0 ∧
    some (paddingBits 3 L) = [0, 1, 2][L % 3]? ∧ some (paddingBits 5 L) = [0, 2, 4, 1, 3][L % 5]? ∧
    some (paddingBits 6 L) = [0, 4, 2][L % 3]? ∧ some (paddingBits 7 L) = [0, 6, 5, 4, 3, 2, 1][L % 7]?) ∧
  (∀ (B : Nat) (data : List Byte), 1 ≤ B → B ≤ 7 →
    (symbolValues B data).length = symbolCount B data.length ∧
    ∀ v, (symbolValues B data).getLast? = some v → 2 ^ paddingBits B data.length ∣ v)

/-- Derived from 41_encode.md section 3 (R124, which the spec marks as derived from R121): the bit-offset window form
gives the same symbol values, and its byte index, in-byte offset and shift amount are in the ranges the rule states.
-/
def Obligations.WindowFormOfEncode : Prop :=
  ∀ (B : Nat) (data : List Byte) (k : Nat), 1 ≤ B → B ≤ 7 → k < symbolCount B data.length →
    (symbolValues B data)[k]? = some (windowSymbol B data k) ∧
    k * B / 8 < data.length ∧ k * B % 8 + B ≤ 14 ∧
    2 ≤ 16 - k * B % 8 - B ∧ 16 - k * B % 8 - B ≤ 15

/-- Derived from 41_encode.md section 3 (R125, which the spec marks as derived from R121): the accumulator form gives
the same symbol values; between two bytes NBITS is at most B - 1, behind a byte at most B + 7, ACC fits 14 bits, and
one byte yields `floor((NBITS_before + 8) / B)` symbols. -/
def Obligations.AccumulatorFormOfEncode : Prop :=
  (∀ (B : Nat) (data : List Byte), 1 ≤ B → B ≤ 7 → accSymbols B accumulatorStart data = symbolValues B data) ∧
  (∀ (B : Nat) (a : Accumulator) (b : Byte), 1 ≤ B → B ≤ 7 → a.nbits ≤ B - 1 → a.acc < 2 ^ a.nbits →
    (accTakeByte a b).nbits ≤ B + 7 ∧ (accTakeByte a b).nbits ≤ 14 ∧ (accTakeByte a b).acc < 2 ^ 14 ∧
    (accEmit B (a.nbits + 8) (accTakeByte a b)).1.length = (a.nbits + 8) / B ∧
    1 ≤ (a.nbits + 8) / B ∧ (a.nbits + 8) / B ≤ 8 ∧
    (accEmit B (a.nbits + 8) (accTakeByte a b)).2.nbits ≤ B - 1 ∧
    (accEmit B (a.nbits + 8) (accTakeByte a b)).2.acc < 2 ^ (accEmit B (a.nbits + 8) (accTakeByte a b)).2.nbits)

/-- Derived from 41_encode.md section 3 (R126, which the spec marks as derived from R121): the whole-number form gives
the same symbol values: the output is the numeral of `D * 2^P` in radix `2^B`, with exactly `M` digits, each below the
radix, most significant first, leading zeros kept. -/
def Obligations.WholeNumberFormOfEncode : Prop :=
  ∀ (B : Nat) (data : List Byte), 1 ≤ B → B ≤ 7 →
    symbolValues B data = (List.range (symbolCount B data.length)).map (wholeNumberSymbol B data) ∧
    (symbolValues B data).foldl (fun n v => 2 ^ B * n + v) 0 = bufferNumber data * 2 ^ paddingBits B data.length ∧
    ∀ v ∈ symbolValues B data, v < 2 ^ B

/-- Derived from 41_encode.md section 4 (R127): nothing is carried between commands, so the text of two buffers is the
text of the first and then that of the second, as ENCODE of the whole gives it, when the first buffer's bit length is
a multiple of BPS; and only then: otherwise some second buffer's text, put behind the first one's, is not the text of
the whole. -/
def Obligations.EncodeSplitsAtSymbolBoundaries : Prop :=
  (∀ (B : Nat) (first second : List Byte), 1 ≤ B → B ∣ 8 * first.length →
    symbolValues B (first ++ second) = symbolValues B first ++ symbolValues B second) ∧
  (∀ (B : Nat) (first : List Byte), 1 ≤ B → B ≤ 7 → ¬ B ∣ 8 * first.length →
    ∃ second, symbolValues B (first ++ second) ≠ symbolValues B first ++ symbolValues B second)

/-- R128: ENCODE reads VALID, BPS and ALPHA below N and nothing else: under two configurations that agree there it
gives the same text and the same result registers; it writes no configuration; and its output consists of canonical
characters. -/
def Obligations.EncodeReadsTheAlphabetOnly : Prop :=
  ∀ (len : Nat) (s : State) (d : Codec), SameAlphabet s.codec d → Supplied len s →
    ∃ t, exec (.encode len) s = .next t ∧
      exec (.encode len) { s with codec := d } = .next { t with codec := d } ∧
      t.codec = s.codec ∧
      ∃ text, t.dout = s.dout ++ text ∧
        ∀ ch ∈ text, ∃ v : Symbol, v.toNat < s.codec.size ∧ ch = (s.codec.readAlpha v).setWidth 8

/-- R129: ENCODE with LEN = 0 completes OK with RESLEN = 0 and an empty DOUT. -/
def Obligations.EncodeOfNothingIsNothing : Prop :=
  ∀ s : State, s.codec.valid = true →
    exec (.encode 0) s = .next (okState s.codec [] 0 s) ∧ (okState s.codec [] 0 s).reslen = 0#32 ∧
    (okState s.codec [] 0 s).dout = s.dout

/-! ### DECODE -/

/-- R141: the bit-stream definition of DECODE: on a text whose every element is ignored or mapped, byte `n` is the
eight stream bits from `8*n` on, `R = (m*B) div 8` of them, and the remaining bits are dropped; any other text fails.
-/
def Obligations.DecodeFollowsTheBitStream : Prop :=
  ∀ (len : Nat) (s : State), s.codec.valid = true → 1 ≤ s.codec.bps.toNat → Supplied len s →
    ((∀ ch ∈ s.din.take len, ¬ Invalid s.codec ch) →
      ∃ out : List Byte, exec (.decode len) s = .next (okState s.codec out len s) ∧
        out.length = (textValues s.codec (s.din.take len)).length * s.codec.bps.toNat / 8 ∧
        ∀ n < out.length, ∃ b : Byte, out[n]? = some b ∧
          b.toNat = specByte s.codec.bps.toNat (textValues s.codec (s.din.take len)) n) ∧
    ((∃ ch ∈ s.din.take len, Invalid s.codec ch) →
      ∃ t, exec (.decode len) s = .next t ∧ statusCodeField t.status = 6#4 ∧ t.dout = s.dout)

/-- Derived from 42_decode.md section 2 (R143): RESLEN of a DECODE counts mapped characters only, not which; and a
text with fewer than `ceil(8/BPS)` of them decodes to zero bytes, successfully. -/
def Obligations.DecodeOutputLength : Prop :=
  ∀ (len : Nat) (s : State), s.codec.valid = true → 1 ≤ s.codec.bps.toNat → Supplied len s → len ≤ maxLen →
    (∀ ch ∈ s.din.take len, ¬ Invalid s.codec ch) →
    ∃ t, exec (.decode len) s = .next t ∧ statusCodeField t.status = 0#4 ∧
      t.reslen.toNat = (textValues s.codec (s.din.take len)).length * s.codec.bps.toNat / 8 ∧
      t.dout.length = s.dout.length + t.reslen.toNat ∧
      ((textValues s.codec (s.din.take len)).length < (8 + s.codec.bps.toNat - 1) / s.codec.bps.toNat →
        t = okState s.codec [] len s)

/-- R144: the discarded trailing bits are not checked: two texts with equally many mapped characters, of whatever
lengths, whose streams agree on every whole byte decode alike, whatever their last bits are, and neither is an error.
-/
def Obligations.TrailingBitsAreNotChecked : Prop :=
  ∀ (len len' : Nat) (s s' : State), s'.codec = s.codec → s.codec.valid = true → 1 ≤ s.codec.bps.toNat →
    Supplied len s → Supplied len' s' →
    (∀ ch ∈ s.din.take len, ¬ Invalid s.codec ch) → (∀ ch ∈ s'.din.take len', ¬ Invalid s.codec ch) →
    (textValues s.codec (s.din.take len)).length = (textValues s.codec (s'.din.take len')).length →
    (∀ o < 8 * ((textValues s.codec (s.din.take len)).length * s.codec.bps.toNat / 8),
      valueBit s.codec.bps.toNat (textValues s.codec (s.din.take len)) o =
        valueBit s.codec.bps.toNat (textValues s.codec (s'.din.take len')) o) →
    ∃ out, exec (.decode len) s = .next (okState s.codec out len s) ∧
      exec (.decode len') s' = .next (okState s.codec out len' s')

/-- R147: DECODE raises InvalidCharacter at the lowest element that is neither ignored nor mapped, counting every
element, and outputs nothing; and never when there is none. No character has a special meaning. -/
def Obligations.DecodeRejectsInvalidCharacters : Prop :=
  ∀ (len : Nat) (s : State), s.codec.valid = true → Supplied len s →
    (∀ (i : Nat) (ch : Byte), LowestBad (Invalid s.codec) (s.din.take len) i ch →
      exec (.decode len) s = .next (errorState 6#4 ch i len s)) ∧
    ((∀ ch ∈ s.din.take len, ¬ Invalid s.codec ch) →
      ∀ t, exec (.decode len) s = .next t → statusCodeField t.status ≠ 6#4)

/-- R148: DECODE with LEN = 0, or of a text of ignored characters only, completes OK with RESLEN = 0. -/
def Obligations.DecodeOfNothingIsNothing : Prop :=
  ∀ (len : Nat) (s : State), s.codec.valid = true → Supplied len s →
    (∀ ch ∈ s.din.take len, ch.toNat < 128 ∧ s.codec.readIg (ch.setWidth 7) = true) →
    exec (.decode len) s = .next (okState s.codec [] len s) ∧ (okState s.codec [] len s).reslen = 0#32

/-- Derived from 42_decode.md section 3 (R145, which the spec marks as derived from R141): the one-pass accumulator
form of DECODE answers exactly what the bit-stream form answers, bytes or error, on every text; between two symbols
NBITS is at most 7, one symbol completes at most one byte, and ACC fits 14 bits. -/
def Obligations.AccumulatorFormOfDecode : Prop :=
  (∀ (c : Codec) (text : List Byte), c.Wf → c.valid = true →
    scanAccumulate c 0 accumulatorStart [] text = decodeText c text) ∧
  (∀ (B : Nat) (a : Accumulator) (v : Symbol), 1 ≤ B → B ≤ 7 → v.toNat < 2 ^ B → a.nbits ≤ 7 → a.acc < 2 ^ a.nbits →
    a.nbits + B ≤ 14 ∧ ((a.acc <<< B) ||| v.toNat) < 2 ^ 14 ∧
    ((accTakeSymbol B a v).1.isSome = true ↔ 8 ≤ a.nbits + B) ∧
    (accTakeSymbol B a v).2.nbits ≤ 7 ∧ (accTakeSymbol B a v).2.acc < 2 ^ (accTakeSymbol B a v).2.nbits)

/-- Derived from 42_decode.md section 3 (R146, which the spec marks as derived from R141): the bit-offset window form
and the whole-number form give the same bytes. -/
def Obligations.WindowAndWholeNumberFormsOfDecode : Prop :=
  ∀ (B : Nat) (values : List Symbol), 1 ≤ B → B ≤ 7 → (∀ v ∈ values, v.toNat < 2 ^ B) →
    (valueBytes B values).length = values.length * B / 8 ∧
    (∀ n < values.length * B / 8,
      8 * n / B + ceilDiv (8 * n % B + 8) B ≤ values.length ∧
      ∃ b, (valueBytes B values)[n]? = some b ∧ b.toNat = windowByte B values n ∧
        b.toNat = wholeNumberByte B values n) ∧
    (valueBytes B values).foldl (fun n b => 256 * n + b.toNat) 0 =
      textNumber B values / 2 ^ (values.length * B % 8)

/-- Derived from 42_decode.md section 5 (R149, which the spec marks as derived from R121, R141 and R26): the
round-trip law: for every configuration the unit can reach and every buffer that fits, DECODE of the text that ENCODE
gives returns the buffer, both completing OK. -/
def Obligations.DecodeOfEncodeIsTheBuffer : Prop :=
  ∀ (len : Nat) (s : State), Reachable s → s.codec.valid = true → Supplied len s → len ≤ maxLen →
    (8 * len + s.codec.bps.toNat - 1) / s.codec.bps.toNat ≤ maxLen →
    ∃ text, exec (.encode len) s = .next (okState s.codec text len s) ∧ text.length ≤ maxLen ∧
      ∀ u : State, u.codec = s.codec → Supplied text.length u → u.din.take text.length = text →
        exec (.decode text.length) u = .next (okState u.codec (s.din.take len) text.length u)

/-- Derived from 42_decode.md section 5 (R150, which the spec marks as derived from R141 and R149): ENCODE of what
DECODE gives is the text again exactly for the texts that ENCODE can produce: all characters canonical, `m =
ceil(8*R/B)`, and the last `m*B - 8*R` bits zero. -/
def Obligations.EncodeOfDecodeIsTheTextExactlyWhen : Prop :=
  ∀ (len : Nat) (s : State) (bytes : List Byte), Reachable s → s.codec.valid = true → Supplied len s →
    exec (.decode len) s = .next (okState s.codec bytes len s) →
    ∀ u : State, u.codec = s.codec → Supplied bytes.length u → u.din.take bytes.length = bytes →
      (exec (.encode bytes.length) u = .next (okState u.codec (s.din.take len) bytes.length u) ↔
        (∀ ch ∈ s.din.take len, ∃ v : Symbol, v.toNat < s.codec.size ∧ ch = (s.codec.readAlpha v).setWidth 8) ∧
        len = (8 * bytes.length + s.codec.bps.toNat - 1) / s.codec.bps.toNat ∧
        ∀ o, 8 * bytes.length ≤ o → o < len * s.codec.bps.toNat →
          valueBit s.codec.bps.toNat (textValues s.codec (s.din.take len)) o = 0)

/-- Derived from 42_decode.md section 5 (R152, which the spec marks as derived from R142): the synonym law: replacing
an occurrence of `a` by a character mapped to the same value does not change the result of DECODE; and after
PRESET.B32CI, with any legal value of its parameters, a text and the same text with the case of any of its letters
changed decode alike. -/
def Obligations.SynonymsDecodeAlike : Prop :=
  (∀ (s : State) (a b : Byte) (v : Symbol) (before behind rest : List Byte),
    s.codec.Wf → s.codec.valid = true → a.toNat < 128 → b.toNat < 128 →
    s.codec.readDt (a.setWidth 7) = .mapped v → s.codec.readDt (b.setWidth 7) = .mapped v →
    ∃ t, exec (.decode (before.length + 1 + behind.length)) { s with din := before ++ a :: behind ++ rest } = .next t ∧
      exec (.decode (before.length + 1 + behind.length)) { s with din := before ++ b :: behind ++ rest } = .next t) ∧
  (∀ (p : PresetParams) (s t : State) (text text' : List Byte), presetLegal p = true → execPresetWith p s = .next t →
    AllAscii text → text.length = text'.length →
    (∀ (k : Nat) (ch ch' : Byte), text[k]? = some ch → text'[k]? = some ch' → ch' = ch ∨ ch' = swapCase ch) →
    ∀ bytes, exec (.decode text.length) { t with din := text } = .next (okState t.codec bytes text.length { t with din := text }) →
      exec (.decode text'.length) { t with din := text' } = .next (okState t.codec bytes text'.length { t with din := text' }))

/-- Derived from 42_decode.md section 5 (R153, which the spec marks as derived from R142): the ignore law: inserting
an ignored character anywhere in a text does not change the result of DECODE, but that the index of an invalid
character behind it shifts by one. -/
def Obligations.IgnoredCharactersDoNotCount : Prop :=
  ∀ (s : State) (g : Byte) (before behind rest : List Byte),
    s.codec.valid = true → g.toNat < 128 → s.codec.readIg (g.setWidth 7) = true →
    ∀ (u u' : State), u = { s with din := before ++ behind ++ rest } → u' = { s with din := before ++ g :: behind ++ rest } →
      (∀ out, exec (.decode (before.length + behind.length)) u =
          .next (okState s.codec out (before.length + behind.length) u) ↔
        exec (.decode (before.length + behind.length + 1)) u' =
          .next (okState s.codec out (before.length + behind.length + 1) u')) ∧
      (∀ (i : Nat) (ch : Byte), LowestBad (Invalid s.codec) (before ++ behind) i ch →
        exec (.decode (before.length + behind.length)) u =
            .next (errorState 6#4 ch i (before.length + behind.length) u) ∧
          exec (.decode (before.length + behind.length + 1)) u' =
            .next (errorState 6#4 ch (if i < before.length then i else i + 1) (before.length + behind.length + 1) u'))

/-- R151: DECODE writes no configuration, whether it succeeds or fails, and reads VALID, BPS, DT and IG only: a state
that differs in ALPHA and in the result registers gives the same result. Nothing is carried from one DECODE to the
next: the bytes of two texts are the bytes of the whole when the first text's `m*B` is a multiple of 8, and for `M`
and `Y` of base32, 12 and 24, they are not. -/
def Obligations.DecodeReadsTheTablesOnly : Prop :=
  (∀ (len : Nat) (s : State) (alpha : Vector Code7 128) (a b c : BitVec 32), Supplied len s →
    ∃ t, exec (.decode len) s = .next t ∧ t.codec = s.codec ∧
      exec (.decode len) { s with codec := { s.codec with alpha := alpha }, status := a, errpos := b, reslen := c } =
        .next { t with codec := { t.codec with alpha := alpha } }) ∧
  (∀ (B : Nat) (first second : List Symbol), 8 ∣ first.length * B →
    valueBytes B (first ++ second) = valueBytes B first ++ valueBytes B second) ∧
  valueBytes 5 ([12#7] ++ [24#7]) ≠ valueBytes 5 [12#7] ++ valueBytes 5 [24#7]

/-! ### Errors -/

/-- R110: a command that completes with any status other than OK leaves VALID, BPS, ALPHA, DT and IG as they were; it
puts nothing on DOUT and its RESLEN is 0. -/
def Obligations.FailingCommandsChangeNothing : Prop :=
  ∀ (i : Instr) (s t : State), Supplied i.len s → exec i s = .next t → statusCodeField t.status ≠ 0#4 →
    t.codec = s.codec ∧ t.dout = s.dout ∧ t.reslen = 0#32 ∧ t.cmd = s.cmd.tail ∧ t.din = s.din.drop i.len ∧
    statusValidField t.status = s.codec.valid ∧ statusBpsField t.status = s.codec.bps

/-- Derived from 60_exceptions.md section 1 (R160, R161): the pairs of a command and a code that can occur. -/
def Obligations.OnlyTheListedCodesOccur : Prop :=
  ∀ (i : Instr) (s t : State), Supplied i.len s → exec i s = .next t →
    statusCodeField t.status ∈
      match i with
      | .create _ => [0#4, 1#4, 2#4, 3#4]
      | .presetB32CI => [0#4]
      | .addsyn _ => [0#4, 7#4, 2#4, 4#4, 5#4]
      | .ignore _ => [0#4, 7#4, 2#4, 5#4]
      | .encode _ => [0#4, 7#4]
      | .decode _ => [0#4, 7#4, 6#4]

/-- R30: the three result registers are written at the completion of every command and at no other moment, and no
command reads them: whatever they held, every command with its operand on DIN leaves the same state; while the unit
waits or is idle they keep their values. -/
def Obligations.ResultRegistersAreWrittenNotRead : Prop :=
  (∀ (i : Instr) (s : State) (a b c : BitVec 32), Supplied i.len s →
    exec i { s with status := a, errpos := b, reslen := c } = exec i s) ∧
  (∀ (i : Instr) (s t : State), Supplied i.len s → exec i s = .next t → statusCodeField t.status = 0#4 →
    statusErrcharField t.status = 0#8 ∧ t.errpos = 0#32 ∧
    t.reslen = BitVec.ofNat 32 (t.dout.length - s.dout.length)) ∧
  (∀ (s t : State), (s.cmd = [] ∨ ∃ w rest, s.cmd = w :: rest ∧ s.din.length < lenField w) → step s = .next t →
    t.status = s.status ∧ t.errpos = s.errpos ∧ t.reslen = s.reslen)

/-! ### Frames and access -/

/-- Derived from 10_state.md section 10 (R36): what each command may write. ADDSYN writes DT and nothing else of the
configuration, IGNORE writes IG and nothing else, ENCODE and DECODE write none of it, CREATE writes ALPHA below its
length and PRESET.B32CI below 32; none clears VALID (R22); DOUT only grows, and only by ENCODE and DECODE. -/
def Obligations.CommandsWriteOnlyTheirColumns : Prop :=
  ∀ (i : Instr) (s t : State), Supplied i.len s → exec i s = .next t →
    t.cmd = s.cmd.tail ∧ t.din = s.din.drop i.len ∧ (s.codec.valid = true → t.codec.valid = true) ∧
    match i with
    | .create n => t.dout = s.dout ∧ ∀ v : Symbol, n ≤ v.toNat → t.codec.readAlpha v = s.codec.readAlpha v
    | .presetB32CI => t.dout = s.dout ∧ ∀ v : Symbol, 32 ≤ v.toNat → t.codec.readAlpha v = s.codec.readAlpha v
    | .addsyn _ => t.dout = s.dout ∧ t.codec.valid = s.codec.valid ∧ t.codec.bps = s.codec.bps ∧
        t.codec.alpha = s.codec.alpha ∧ t.codec.ig = s.codec.ig ∧
        ∀ j : Code7, (∀ ch ∈ (s.din.take i.len).drop 1, ch.setWidth 7 ≠ j) → t.codec.readDt j = s.codec.readDt j
    | .ignore _ => t.dout = s.dout ∧ t.codec.valid = s.codec.valid ∧ t.codec.bps = s.codec.bps ∧
        t.codec.alpha = s.codec.alpha ∧ t.codec.dt = s.codec.dt ∧
        ∀ j : Code7, (∀ ch ∈ s.din.take i.len, ch.setWidth 7 ≠ j) → t.codec.readIg j = s.codec.readIg j
    | .encode _ => t.codec = s.codec ∧ s.dout <+: t.dout
    | .decode _ => t.codec = s.codec ∧ s.dout <+: t.dout

/-! ### Reset and the whole machine -/

/-- Derived from 10_state.md section 8 (R34): the state after reset. The tables hold anything: this says nothing of
them. -/
def Obligations.ResetClearsEverythingButTheTables : Prop :=
  State.reset.codec.valid = false ∧ State.reset.codec.bps = 0#3 ∧ State.reset.status = 0x00000000#32 ∧
  State.reset.errpos = 0x00000000#32 ∧ State.reset.reslen = 0x00000000#32 ∧ State.reset.cmd = [] ∧
  State.reset.din = [] ∧ State.reset.dout = [] ∧
  ∀ (s : State) (alpha : Vector Code7 128) (dt : Vector DtEntry 128) (ig : Vector Bool 128),
    hostAct (.reset alpha dt ig) s = { State.reset with codec := ⟨false, 0#3, alpha, dt, ig⟩ }

/-- Derived from 10_state.md sections 4 to 8 (R22, R26, R27, R34): the invariants hold after reset, whatever the
tables hold. -/
def Obligations.ResetMeetsTheInvariants : Prop :=
  ∀ (alpha : Vector Code7 128) (dt : Vector DtEntry 128) (ig : Vector Bool 128),
    (State.resetWith alpha dt ig).Wf ∧ State.reset.Wf

/-- Derived from 10_state.md sections 4 to 6 (R22, R26, R27, R28, R29): every step keeps the invariants. -/
def Obligations.EveryStepKeepsTheInvariants : Prop :=
  ∀ s t : State, s.Wf → step s = .next t → t.Wf

/-- Derived from 10_state.md section 5 (R26, which the spec marks as derived): the invariants of every reachable state
with VALID = 1, whatever the sequence of commands since reset and whatever the host does between them. -/
def Obligations.ReachableConfigurationsAreConsistent : Prop :=
  ∀ s : State, Reachable s → s.codec.valid = true →
    (1 ≤ s.codec.bps.toNat ∧ s.codec.bps.toNat ≤ 7) ∧
    (∀ v w : Symbol, v.toNat < 2 ^ s.codec.bps.toNat → w.toNat < 2 ^ s.codec.bps.toNat →
      s.codec.readAlpha v = s.codec.readAlpha w → v = w) ∧
    (∀ v : Symbol, v.toNat < 2 ^ s.codec.bps.toNat → s.codec.readDt (s.codec.readAlpha v) = .mapped v) ∧
    (∀ (i : Code7) (v : Symbol), s.codec.readDt i = .mapped v → v.toNat < 2 ^ s.codec.bps.toNat) ∧
    (∀ v : Symbol, v.toNat < 2 ^ s.codec.bps.toNat → ∃ i, s.codec.readDt i = .mapped v) ∧
    (∀ i : Code7, s.codec.readIg i = true → s.codec.readDt i = .unmapped)

/-- Derived from 10_state.md sections 5 and 8 (R23, R34) and 93_implementation_defined.md section 2 (U1, U2): no
command's result depends on an unspecified table entry: two states that agree on everything else step to states that
agree on everything else, so the host sees the same STATUS, ERRPOS, RESLEN and DOUT. -/
def Obligations.UnspecifiedEntriesAreNeverRead : Prop :=
  ∀ s s' t t' : State, SameButUnspecified s s' → step s = .next t → step s' = .next t' → SameButUnspecified t t'

/-- R77: every command, legal or reserved, produces one result record, followed on DOUT by RESLEN elements; so a run
of whole packets of a quiet unit gives one record for each packet. -/
def Obligations.EveryCommandGivesOneRecord : Prop :=
  (∀ (s : State) (w : CmdWord) (rest : List CmdWord), s.cmd = w :: rest → Supplied (lenField w) s →
    ∃ t out, step s = .next t ∧ t.dout = s.dout ++ out ∧ t.reslen.toNat = out.length) ∧
  (∀ (s : State) (p : Packet), s.Wf → Quiet s → packetWhole p = true →
    ∃ t r, transact p s = .next (t, r) ∧ Quiet t ∧ t.Wf ∧ r.status = t.status ∧ r.errpos = t.errpos ∧
      r.reslen = t.reslen ∧ r.output.length = r.reslen.toNat) ∧
  (∀ (s : State) (ps : List Packet), s.Wf → Quiet s → (∀ p ∈ ps, packetWhole p = true) →
    ∃ t rs, runPackets s ps = .next (t, rs) ∧ rs.length = ps.length ∧ Quiet t ∧ t.Wf)

/-- Derived from 10_state.md section 4 (R22) and 70_reset_and_hazards.md section 1 (R181): "No command clears VALID;
only reset does": no step clears it, whatever word it runs, and of what the host can do exactly a reset does. -/
def Obligations.OnlyResetClearsValid : Prop :=
  (∀ s t : State, s.codec.valid = true → step s = .next t → t.codec.valid = true) ∧
  (∀ (a : HostAction) (s : State), s.codec.valid = true →
    ((hostAct a s).codec.valid = false ↔ ∃ alpha dt ig, a = .reset alpha dt ig))

/-- Derived from 60_exceptions.md section 9 (R172, and R174, which the spec marks as derived),
93_implementation_defined.md section 4 (H1, H2, H4) and 30_encoding.md section 2 (R72): a run is refused exactly when
one of its packets has not LEN elements, and gives a record for each packet otherwise; a command's own word makes a
whole packet with its operand exactly when the operand fits a command. -/
def Obligations.RunsRefuseMalformedPackets : Prop :=
  (∀ (s : State) (ps : List Packet),
    runPackets s ps = .refused .malformedPacket ↔ ∃ p ∈ ps, p.elements.length ≠ lenField p.word) ∧
  (∀ (s : State) (ps : List Packet), (∀ p ∈ ps, p.elements.length = lenField p.word) →
    ∃ t rs, runPackets s ps = .next (t, rs) ∧ rs.length = ps.length) ∧
  (∀ (i : Instr) (es : List Byte), es.length = i.len →
    (packetWhole ⟨encodeInstr i, es⟩ = true ↔ es.length ≤ maxLen))
end

