-- ==== Sys2Proof/Laws/Packing.lean ====
section
/-! SUPPORT. The laws of the bit stream: its bits by offset, the numbers its groups make, and how groups and streams undo each other. -/

namespace Sys2Proof.Machine

/-! ### The count of symbols -/

theorem symbolCount_mul_ge {B : Nat} (h : 1 ≤ B) (L : Nat) : 8 * L ≤ symbolCount B L * B := by
  unfold symbolCount ceilDiv
  have := Nat.div_add_mod (8 * L + B - 1) B
  have := Nat.mod_lt (8 * L + B - 1) (show 0 < B by omega)
  rw [Nat.mul_comm _ B]
  omega

theorem symbolCount_mul_lt {B : Nat} (h : 1 ≤ B) (L : Nat) : symbolCount B L * B < 8 * L + B := by
  unfold symbolCount ceilDiv
  have := Nat.div_mul_le_self (8 * L + B - 1) B
  omega

theorem symbolCount_mul_eq {B : Nat} (h : 1 ≤ B) (L : Nat) : symbolCount B L * B = 8 * L + paddingBits B L := by
  have := symbolCount_mul_ge h L
  unfold paddingBits
  omega

/-- The count of symbols is the only one whose bits hold the stream with less than a symbol of padding. -/
theorem symbolCount_unique {B L m : Nat} (h : 1 ≤ B) (hlo : 8 * L ≤ m * B) (hhi : m * B < 8 * L + B) :
    m = symbolCount B L := by
  have h1 := symbolCount_mul_ge h L
  have h2 := symbolCount_mul_lt h L
  have h3 : m < symbolCount B L + 1 := Nat.lt_of_mul_lt_mul_right (a := B) (by rw [Nat.add_mul]; omega)
  have h4 : symbolCount B L < m + 1 := Nat.lt_of_mul_lt_mul_right (a := B) (by rw [Nat.add_mul]; omega)
  omega

/-! ### Numbers from bits -/

theorem ofBits_foldl (n : Nat) (bits : List Bool) :
    bits.foldl (fun v bit => 2 * v + bit.toNat) n = n * 2 ^ bits.length + ofBits bits := by
  unfold ofBits
  induction bits generalizing n with
  | nil => simp
  | cons b rest ih =>
    simp only [List.foldl_cons, List.length_cons]
    rw [ih, ih (2 * 0 + b.toNat), Nat.pow_succ]
    ring

@[simp] theorem ofBits_nil : ofBits [] = 0 := rfl

theorem ofBits_append (a b : List Bool) : ofBits (a ++ b) = ofBits a * 2 ^ b.length + ofBits b := by
  rw [ofBits, List.foldl_append, ofBits_foldl]
  rfl

theorem ofBits_cons (b : Bool) (rest : List Bool) : ofBits (b :: rest) = b.toNat * 2 ^ rest.length + ofBits rest := by
  rw [← List.singleton_append, ofBits_append]
  simp [ofBits]

theorem ofBits_lt (bits : List Bool) : ofBits bits < 2 ^ bits.length := by
  induction bits with
  | nil => simp
  | cons b rest ih =>
    rw [ofBits_cons, List.length_cons, Nat.pow_succ]
    have := Bool.toNat_lt b
    nlinarith [Nat.two_pow_pos rest.length]

@[simp] theorem ofBits_replicate_false (n : Nat) : ofBits (List.replicate n false) = 0 := by
  induction n with
  | zero => rfl
  | succ n ih => rw [List.replicate_succ, ofBits_cons, ih]; simp

/-- Equally long bit sequences that make the same number are the same. -/
theorem ofBits_inj {a b : List Bool} (hl : a.length = b.length) (h : ofBits a = ofBits b) : a = b := by
  induction a generalizing b with
  | nil => exact (List.eq_nil_of_length_eq_zero hl.symm).symm
  | cons x xs ih =>
    cases b with
    | nil => simp at hl
    | cons y ys =>
      simp only [List.length_cons, Nat.add_right_cancel_iff] at hl
      rw [ofBits_cons, ofBits_cons, hl] at h
      have h1 := ofBits_lt xs
      have h2 := ofBits_lt ys
      rw [hl] at h1
      have hp := Nat.two_pow_pos ys.length
      cases x <;> cases y <;> simp only [Bool.toNat_true, Bool.toNat_false, Nat.zero_mul, Nat.one_mul] at h
      · rw [ih hl (by omega)]
      · omega
      · omega
      · rw [ih hl (by omega)]

/-- A bit sequence as the sum of its bits' weights (R121, R141). -/
theorem ofBits_eq_sum (bits : List Bool) :
    ofBits bits = ∑ t ∈ Finset.range bits.length, (bits.getD t false).toNat * 2 ^ (bits.length - 1 - t) := by
  induction bits with
  | nil => simp
  | cons b rest ih =>
    rw [ofBits_cons, List.length_cons, Finset.sum_range_succ']
    simp only [List.getD_cons_succ, List.getD_cons_zero]
    rw [ih, Nat.add_comm]
    congr 1
    apply Finset.sum_congr rfl
    intro t ht
    congr 2
    have := Finset.mem_range.1 ht
    omega

/-! ### Bits of one byte or symbol -/

@[simp] theorem byteBits_length (b : Byte) : (byteBits b).length = 8 := by simp [byteBits]

@[simp] theorem symbolBits_length (B : Nat) (v : Symbol) : (symbolBits B v).length = B := by simp [symbolBits]

theorem byteBits_getElem? (b : Byte) {j : Nat} (h : j < 8) : (byteBits b)[j]? = some (b.getLsbD (7 - j)) := by
  simp [byteBits, h]

theorem symbolBits_getElem? (B : Nat) (v : Symbol) {t : Nat} (h : t < B) :
    (symbolBits B v)[t]? = some (v.getLsbD (B - 1 - t)) := by
  simp [symbolBits, h]

/-- The low bits of a number, most significant first, make the number again. -/
theorem ofBits_testBit (n w : Nat) : ofBits ((List.range w).map fun t => n.testBit (w - 1 - t)) = n % 2 ^ w := by
  induction w with
  | zero => simp [Nat.mod_one]
  | succ w ih =>
    rw [List.range_succ_eq_map, List.map_cons, ofBits_cons, List.map_map]
    have : ((fun t => n.testBit (w + 1 - 1 - t)) ∘ Nat.succ) = fun t => n.testBit (w - 1 - t) := by
      funext t
      simp only [Function.comp, Nat.succ_eq_add_one]
      congr 1
      omega
    rw [this, ih, List.length_map, List.length_range, Nat.mod_pow_succ]
    simp only [Nat.add_sub_cancel, Nat.sub_zero]
    rw [Nat.testBit_eq_decide_div_mod_eq]
    rcases Nat.mod_two_eq_zero_or_one (n / 2 ^ w) with h | h
    <;> simp [h, Nat.add_comm]

theorem ofBits_byteBits (b : Byte) : ofBits (byteBits b) = b.toNat := by
  have := ofBits_testBit b.toNat 8
  rw [Nat.mod_eq_of_lt b.isLt] at this
  exact this

theorem ofBits_symbolBits (B : Nat) (v : Symbol) : ofBits (symbolBits B v) = v.toNat % 2 ^ B :=
  ofBits_testBit v.toNat B

/-- The bits of the symbol that a group of `B` bits makes are the group. -/
theorem symbolBits_ofBits {B : Nat} {bits : List Bool} (hl : bits.length = B) (hB : B ≤ 7) :
    symbolBits B (BitVec.ofNat 7 (ofBits bits)) = bits := by
  apply ofBits_inj (by simp [hl])
  have h := ofBits_lt bits
  rw [hl] at h
  have h7 : 2 ^ B ≤ 2 ^ 7 := Nat.pow_le_pow_right (by omega) hB
  rw [ofBits_symbolBits, BitVec.toNat_ofNat, Nat.mod_eq_of_lt (Nat.lt_of_lt_of_le h h7), Nat.mod_eq_of_lt h]

/-! ### Groups -/

@[simp] theorem groups_length (w m : Nat) (bits : List Bool) : (groups w m bits).length = m := by
  induction m generalizing bits with
  | zero => rfl
  | succ m ih => simp [groups, ih]

theorem groups_getElem? {w m k : Nat} (bits : List Bool) (h : k < m) :
    (groups w m bits)[k]? = some (ofBits ((bits.drop (k * w)).take w)) := by
  induction m generalizing bits k with
  | zero => omega
  | succ m ih =>
    cases k with
    | zero => simp [groups]
    | succ k =>
      rw [groups, List.getElem?_cons_succ, ih _ (by omega), List.drop_drop]
      congr 4
      ring

theorem groups_append {w m n : Nat} {a : List Bool} (b : List Bool) (h : a.length = m * w) :
    groups w (m + n) (a ++ b) = groups w m a ++ groups w n b := by
  induction m generalizing a with
  | zero =>
    rw [Nat.zero_mul] at h
    rw [List.eq_nil_of_length_eq_zero h]
    simp [groups]
  | succ m ih =>
    have hw : w ≤ a.length := by rw [h, Nat.add_mul]; omega
    rw [show m + 1 + n = (m + n) + 1 by omega, groups, groups, List.take_append_of_le_length hw,
      List.drop_append_of_le_length hw, ih (by rw [List.length_drop, h, Nat.add_mul]; omega)]
    rfl

theorem groups_lt {w m v : Nat} {bits : List Bool} (h : v ∈ groups w m bits) : v < 2 ^ w := by
  induction m generalizing bits with
  | zero => simp [groups] at h
  | succ m ih =>
    rcases List.mem_cons.1 h with rfl | h
    · refine Nat.lt_of_lt_of_le (ofBits_lt _) (Nat.pow_le_pow_right (by omega) ?_)
      simp
    · exact ih h

/-- Groups as long as the pieces a stream was made of give back the pieces. -/
theorem groups_flatMap {α : Type} {w : Nat} (f : α → List Bool) (hf : ∀ x, (f x).length = w) (l : List α) :
    groups w l.length (l.flatMap f) = l.map fun x => ofBits (f x) := by
  induction l with
  | nil => rfl
  | cons x rest ih =>
    rw [List.length_cons, groups, List.flatMap_cons, List.map_cons]
    rw [List.take_append_of_le_length (by rw [hf]), List.drop_append_of_le_length (by rw [hf]),
      List.take_of_length_le (by rw [hf]), List.drop_of_length_le (by rw [hf]), List.nil_append, ih]

/-- The symbols that the groups of a whole number of symbols make have the stream's bits again. -/
theorem symbolStream_groups {B m : Nat} {bits : List Bool} (hl : bits.length = m * B) (hB : B ≤ 7) :
    symbolStream B ((groups B m bits).map (BitVec.ofNat 7)) = bits := by
  unfold symbolStream
  induction m generalizing bits with
  | zero =>
    rw [Nat.zero_mul] at hl
    rw [List.eq_nil_of_length_eq_zero hl]
    rfl
  | succ m ih =>
    have hw : B ≤ bits.length := by rw [hl, Nat.add_mul]; omega
    rw [groups, List.map_cons, List.flatMap_cons, symbolBits_ofBits (by simp [hw]) hB,
      ih (by rw [List.length_drop, hl, Nat.add_mul]; omega), List.take_append_drop]

/-! ### Streams -/

theorem flatMap_length_const {α β : Type} {w : Nat} (f : α → List β) (hf : ∀ x, (f x).length = w) (l : List α) :
    (l.flatMap f).length = l.length * w := by
  induction l with
  | nil => simp
  | cons x rest ih => rw [List.flatMap_cons, List.length_append, ih, hf, List.length_cons]; ring

/-- Element `o` of a stream of pieces of length `w` is element `o mod w` of piece `o div w`. -/
theorem flatMap_getElem? {α β : Type} {w : Nat} (hw : 0 < w) (f : α → List β) (hf : ∀ x, (f x).length = w)
    (l : List α) (o : Nat) : (l.flatMap f)[o]? = (l[o / w]?).bind fun x => (f x)[o % w]? := by
  induction l generalizing o with
  | nil => simp
  | cons x rest ih =>
    rw [List.flatMap_cons]
    rcases Nat.lt_or_ge o w with h | h
    · rw [List.getElem?_append_left (by rw [hf]; exact h), Nat.div_eq_of_lt h, Nat.mod_eq_of_lt h]
      rfl
    · rw [List.getElem?_append_right (by rw [hf]; exact h), hf, ih]
      have h1 : o / w = (o - w) / w + 1 := by
        rw [← Nat.add_div_right _ hw, Nat.sub_add_cancel h]
      have h2 : (o - w) % w = o % w := (Nat.mod_eq_sub_mod h).symm
      rw [h1, h2, List.getElem?_cons_succ]

@[simp] theorem byteStream_length (data : List Byte) : (byteStream data).length = 8 * data.length := by
  rw [byteStream, flatMap_length_const byteBits byteBits_length, Nat.mul_comm]

@[simp] theorem symbolStream_length (B : Nat) (values : List Symbol) :
    (symbolStream B values).length = values.length * B := by
  rw [symbolStream, flatMap_length_const _ (symbolBits_length B)]

theorem byteStream_getElem? (data : List Byte) (o : Nat) :
    (byteStream data)[o]? = (data[o / 8]?).map fun b => b.getLsbD (7 - o % 8) := by
  rw [byteStream, flatMap_getElem? (by omega) byteBits byteBits_length]
  cases data[o / 8]? with
  | none => rfl
  | some b => exact byteBits_getElem? b (Nat.mod_lt _ (by omega))

theorem symbolStream_getElem? {B : Nat} (h : 1 ≤ B) (values : List Symbol) (o : Nat) :
    (symbolStream B values)[o]? = (values[o / B]?).map fun v => v.getLsbD (B - 1 - o % B) := by
  rw [symbolStream, flatMap_getElem? (by omega) _ (symbolBits_length B)]
  cases values[o / B]? with
  | none => rfl
  | some v => exact symbolBits_getElem? B v (Nat.mod_lt _ (by omega))

theorem paddedStream_length {B : Nat} (h : 1 ≤ B) (data : List Byte) :
    (paddedStream B data).length = symbolCount B data.length * B := by
  rw [paddedStream, List.length_append, byteStream_length, List.length_replicate, symbolCount_mul_eq h]

@[simp] theorem symbolValues_length (B : Nat) (data : List Byte) :
    (symbolValues B data).length = symbolCount B data.length := by
  rw [symbolValues, groups_length]

theorem symbolValues_lt {B v : Nat} {data : List Byte} (h : v ∈ symbolValues B data) : v < 2 ^ B := groups_lt h

@[simp] theorem valueBytes_length (B : Nat) (values : List Symbol) :
    (valueBytes B values).length = values.length * B / 8 := by
  rw [valueBytes, List.length_map, groups_length, symbolStream_length]

/-- The symbol values of a buffer have the padded stream's bits. -/
theorem symbolStream_symbolValues {B : Nat} (h : 1 ≤ B) (hB : B ≤ 7) (data : List Byte) :
    symbolStream B ((symbolValues B data).map (BitVec.ofNat 7)) = paddedStream B data :=
  symbolStream_groups (paddedStream_length h data) hB

/-- A stream that begins with a buffer's bytes gives the buffer back, whatever less than a byte follows (R141). -/
theorem valueBytes_of_stream {B : Nat} {values : List Symbol} {data : List Byte} {more : List Bool}
    (h : symbolStream B values = byteStream data ++ more) (hm : more.length < 8) : valueBytes B values = data := by
  have hl : (symbolStream B values).length / 8 = data.length := by
    rw [h, List.length_append, byteStream_length]
    omega
  rw [valueBytes, hl, h, ← Nat.add_zero data.length, groups_append more (by rw [byteStream_length]; ring), groups,
    List.append_nil, byteStream, groups_flatMap byteBits byteBits_length, List.map_map]
  conv_rhs => rw [← List.map_id data]
  apply List.map_congr_left
  intro b _
  simp only [Function.comp, ofBits_byteBits, BitVec.ofNat_toNat, BitVec.setWidth_eq, id]

end Sys2Proof.Machine
end

