-- ==== Sys2Proof/Laws/Stream.lean ====
section
/-! SUPPORT. Windows of a bit stream as numbers: what a prefix, a suffix and a window of it make, the streams of a buffer and of a text as one number, and the bytes of a text as bits. -/

namespace Sys2Proof.Machine

theorem ofBits_take (bits : List Bool) (n : Nat) : ofBits (bits.take n) = ofBits bits / 2 ^ (bits.length - n) := by
  have h := ofBits_append (bits.take n) (bits.drop n)
  rw [List.take_append_drop, List.length_drop] at h
  have hl := ofBits_lt (bits.drop n)
  rw [List.length_drop] at hl
  rw [h, Nat.add_comm, Nat.add_mul_div_right _ _ (Nat.two_pow_pos _), Nat.div_eq_of_lt hl, Nat.zero_add]

theorem ofBits_drop (bits : List Bool) (n : Nat) : ofBits (bits.drop n) = ofBits bits % 2 ^ (bits.length - n) := by
  have h := ofBits_append (bits.take n) (bits.drop n)
  rw [List.take_append_drop, List.length_drop] at h
  have hl := ofBits_lt (bits.drop n)
  rw [List.length_drop] at hl
  conv_rhs => rw [h]
  rw [Nat.mul_add_mod_self_right, Nat.mod_eq_of_lt hl]

/-- The number that `w` bits from offset `a` on make. -/
theorem ofBits_window (bits : List Bool) (a w : Nat) (h : a + w ≤ bits.length) :
    ofBits ((bits.drop a).take w) = ofBits bits / 2 ^ (bits.length - a - w) % 2 ^ w := by
  rw [ofBits_take, List.length_drop, ofBits_drop]
  have : 2 ^ (bits.length - a) = 2 ^ (bits.length - a - w) * 2 ^ w := by
    rw [← Nat.pow_add]
    congr 1
    omega
  rw [this, Nat.mod_mul_right_div_self]

theorem getD_window {α : Type} (l : List α) (a w t : Nat) (d : α) (ht : t < w) :
    ((l.drop a).take w).getD t d = l.getD (a + t) d := by
  simp [List.getD_eq_getElem?_getD, ht, List.getElem?_drop]

/-- Every number below `2^n` is what some `n` bits make. -/
theorem bits_of_lt {n x : Nat} (h : x < 2 ^ n) : ∃ bits : List Bool, bits.length = n ∧ ofBits bits = x :=
  ⟨(List.range n).map fun t => x.testBit (n - 1 - t), by simp, by rw [ofBits_testBit, Nat.mod_eq_of_lt h]⟩

theorem groups_eq_map (w m : Nat) (bits : List Bool) :
    groups w m bits = (List.range m).map fun k => ofBits ((bits.drop (k * w)).take w) := by
  apply List.ext_getElem?
  intro k
  rcases Nat.lt_or_ge k m with h | h
  · rw [groups_getElem? _ h]
    simp [h]
  · rw [List.getElem?_eq_none (by simpa using h), List.getElem?_eq_none (by simpa using h)]

theorem groups_take (w m : Nat) (bits : List Bool) (n : Nat) (h : m * w ≤ n) :
    groups w m (bits.take n) = groups w m bits := by
  rw [groups_eq_map, groups_eq_map]
  apply List.map_congr_left
  intro k hk
  rw [List.mem_range] at hk
  have hw : (k + 1) * w ≤ m * w := Nat.mul_le_mul_right _ hk
  rw [Nat.add_mul] at hw
  rw [List.drop_take, List.take_take, Nat.min_eq_left (by omega)]

/-- The groups of a stream are its digits in radix `2^w`. -/
theorem groups_foldl (w m : Nat) (bits : List Bool) (n : Nat) (h : bits.length = m * w) :
    (groups w m bits).foldl (fun n v => 2 ^ w * n + v) n = n * 2 ^ (m * w) + ofBits bits := by
  induction m generalizing bits n with
  | zero =>
    rw [Nat.zero_mul] at h
    rw [List.eq_nil_of_length_eq_zero h]
    simp [groups]
  | succ m ih =>
    rw [Nat.add_mul, Nat.one_mul] at h
    rw [groups, List.foldl_cons, ih _ _ (by rw [List.length_drop]; omega)]
    conv_rhs => rw [← List.take_append_drop w bits, ofBits_append, List.length_drop, h]
    rw [Nat.add_sub_cancel, Nat.add_mul m 1, Nat.one_mul, Nat.pow_add]
    ring

/-! ### The streams of a buffer and of a text -/

theorem ofBits_byteStream (data : List Byte) : ofBits (byteStream data) = bufferNumber data := by
  have h : ∀ (l : List Byte) (n : Nat),
      l.foldl (fun d b => 256 * d + b.toNat) n = n * 2 ^ (8 * l.length) + ofBits (byteStream l) := by
    intro l
    induction l with
    | nil => intro n; simp [byteStream]
    | cons b rest ih =>
      intro n
      rw [List.foldl_cons, ih, show byteStream (b :: rest) = byteBits b ++ byteStream rest from rfl, ofBits_append,
        ofBits_byteBits, byteStream_length, List.length_cons, show 8 * (rest.length + 1) = 8 * rest.length + 8 by ring,
        Nat.pow_add]
      ring
  rw [bufferNumber, h]
  simp

theorem ofBits_paddedStream (B : Nat) (data : List Byte) :
    ofBits (paddedStream B data) = bufferNumber data * 2 ^ paddingBits B data.length := by
  rw [paddedStream, ofBits_append, ofBits_replicate_false, ofBits_byteStream, List.length_replicate, Nat.add_zero]

theorem symbolStream_cons (B : Nat) (v : Symbol) (rest : List Symbol) :
    symbolStream B (v :: rest) = symbolBits B v ++ symbolStream B rest := rfl

theorem ofBits_symbolStream {B : Nat} {values : List Symbol} (h : ∀ v ∈ values, v.toNat < 2 ^ B) :
    ofBits (symbolStream B values) = textNumber B values := by
  have h' : ∀ (l : List Symbol) (n : Nat), (∀ v ∈ l, v.toNat < 2 ^ B) →
      l.foldl (fun t v => 2 ^ B * t + v.toNat) n = n * 2 ^ (l.length * B) + ofBits (symbolStream B l) := by
    intro l
    induction l with
    | nil => intro n _; simp [symbolStream]
    | cons v rest ih =>
      intro n hl
      rw [List.foldl_cons, ih _ (fun x hx => hl x (by simp [hx])), symbolStream_cons, ofBits_append, ofBits_symbolBits,
        symbolStream_length, List.length_cons, Nat.mod_eq_of_lt (hl v (by simp)), Nat.add_mul rest.length 1,
        Nat.one_mul, Nat.pow_add]
      ring
  rw [textNumber, h' _ _ h]
  simp

theorem symbolStream_drop (B : Nat) (values : List Symbol) (q : Nat) :
    symbolStream B (values.drop q) = (symbolStream B values).drop (q * B) := by
  induction q generalizing values with
  | zero => simp
  | succ q ih =>
    cases values with
    | nil => simp [symbolStream]
    | cons v rest =>
      rw [List.drop_succ_cons, ih, symbolStream_cons, Nat.add_mul, Nat.one_mul, Nat.add_comm, ← List.drop_drop,
        List.drop_left' (symbolBits_length B v)]

theorem symbolStream_take (B : Nat) (values : List Symbol) (q : Nat) :
    symbolStream B (values.take q) = (symbolStream B values).take (q * B) := by
  induction q generalizing values with
  | zero => simp [symbolStream]
  | succ q ih =>
    cases values with
    | nil => simp [symbolStream]
    | cons v rest =>
      rw [List.take_succ_cons, symbolStream_cons, symbolStream_cons, ih, Nat.add_mul, Nat.one_mul, List.take_append,
        symbolBits_length, Nat.add_sub_cancel,
        List.take_of_length_le (l := symbolBits B v) (by rw [symbolBits_length]; omega)]

/-- Symbol values below `2^B` are told by their stream. -/
theorem symbolStream_inj {B : Nat} (hB : 1 ≤ B) {a b : List Symbol} (ha : ∀ v ∈ a, v.toNat < 2 ^ B)
    (hb : ∀ v ∈ b, v.toNat < 2 ^ B) (h : symbolStream B a = symbolStream B b) : a = b := by
  have hl : a.length = b.length := by
    have := congrArg List.length h
    simp only [symbolStream_length] at this
    exact Nat.eq_of_mul_eq_mul_right hB this
  have h1 := groups_flatMap (symbolBits B) (symbolBits_length B) a
  have h2 := groups_flatMap (symbolBits B) (symbolBits_length B) b
  unfold symbolStream at h
  rw [h, hl, h2] at h1
  clear h h2 hl
  induction a generalizing b with
  | nil => exact (List.map_eq_nil_iff.1 h1).symm
  | cons x xs ih =>
    cases b with
    | nil => simp at h1
    | cons y ys =>
      simp only [List.map_cons, List.cons.injEq] at h1
      obtain ⟨h1, h2⟩ := h1
      rw [ofBits_symbolBits, ofBits_symbolBits, Nat.mod_eq_of_lt (hb y (by simp)),
        Nat.mod_eq_of_lt (ha x (by simp))] at h1
      rw [BitVec.eq_of_toNat_eq h1, ih (fun v hv => ha v (by simp [hv])) (fun v hv => hb v (by simp [hv])) h2]

/-- The bits of a text's bytes are the whole bytes at the front of its stream (R141). -/
theorem byteStream_valueBytes (B : Nat) (values : List Symbol) :
    byteStream (valueBytes B values) = (symbolStream B values).take (values.length * B / 8 * 8) := by
  have h : ∀ (m : Nat) (bits : List Bool), m * 8 ≤ bits.length →
      byteStream ((groups 8 m bits).map (BitVec.ofNat 8)) = bits.take (m * 8) := by
    intro m
    induction m with
    | zero => intro bits _; simp [groups, byteStream]
    | succ m ih =>
      intro bits hl
      have hb : byteBits (BitVec.ofNat 8 (ofBits (bits.take 8))) = bits.take 8 := by
        apply ofBits_inj
        · simp
          omega
        · have hlt := ofBits_lt (bits.take 8)
          rw [List.length_take, Nat.min_eq_left (by omega)] at hlt
          rw [ofBits_byteBits, BitVec.toNat_ofNat]
          exact Nat.mod_eq_of_lt hlt
      rw [groups, List.map_cons, byteStream, List.flatMap_cons, hb, show (m + 1) * 8 = 8 + m * 8 by ring, List.take_add]
      congr 1
      exact ih _ (by rw [List.length_drop]; omega)
  rw [valueBytes, symbolStream_length, h _ _ (by rw [symbolStream_length]; omega)]

end Sys2Proof.Machine
end

