-- ==== Sys2Proof/Laws/Operands.lean ====
section
/-! SUPPORT. What the scans of an operand find: none where no element is bad, else the bad element at the lowest index. -/

namespace Sys2Proof.Machine

theorem tableIndex_eq (ch : Byte) : tableIndex ch = ch.setWidth 7 := by
  apply BitVec.eq_of_toNat_eq
  simp [tableIndex]

theorem tableIndex_toNat {ch : Byte} (h : ch.toNat < 128) : (tableIndex ch).toNat = ch.toNat := by
  simp [tableIndex_eq, Nat.mod_eq_of_lt h]

/-- Two 7-bit characters with the same table index are the same character. -/
theorem tableIndex_inj {a b : Byte} (ha : a.toNat < 128) (hb : b.toNat < 128) (h : tableIndex a = tableIndex b) :
    a = b := by
  apply BitVec.eq_of_toNat_eq
  rw [← tableIndex_toNat ha, ← tableIndex_toNat hb, h]

theorem tableIndex_setWidth (c : Code7) : tableIndex (c.setWidth 8) = c := by
  rw [tableIndex_eq]
  apply BitVec.eq_of_toNat_eq
  have := c.isLt
  simp only [BitVec.toNat_setWidth]
  omega

theorem isAscii_iff (ch : Byte) : isAscii ch = true ↔ ch.toNat < 128 := by simp [isAscii]

theorem isAscii_setWidth (c : Code7) : isAscii (c.setWidth 8) = true := by
  have := c.isLt
  rw [isAscii_iff, BitVec.toNat_setWidth]
  omega

theorem firstBad_eq_none {bad : Byte → Bool} {pos : Nat} {din : List Byte} :
    firstBad bad pos din = none ↔ ∀ ch ∈ din, bad ch = false := by
  induction din generalizing pos with
  | nil => simp [firstBad]
  | cons ch rest ih =>
    cases h : bad ch <;> simp [firstBad, h, ih]

theorem firstBad_eq_some {bad : Byte → Bool} {pos : Nat} {din : List Byte} {ch : Byte} {i : Nat} :
    firstBad bad pos din = some (ch, i) ↔
      ∃ k, i = pos + k ∧ din[k]? = some ch ∧ bad ch = true ∧ ∀ m d, m < k → din[m]? = some d → bad d = false := by
  induction din generalizing pos with
  | nil => simp [firstBad]
  | cons x rest ih =>
    cases h : bad x with
    | true =>
      simp only [firstBad, h, if_true, Option.some.injEq, Prod.mk.injEq]
      constructor
      · rintro ⟨rfl, rfl⟩
        exact ⟨0, rfl, rfl, h, by simp⟩
      · rintro ⟨k, rfl, hk, hb, hm⟩
        rcases Nat.eq_zero_or_pos k with rfl | hpos
        · simpa using hk
        · have := hm 0 x hpos (by simp)
          simp [h] at this
    | false =>
      simp only [firstBad, h, Bool.false_eq_true, if_false, ih]
      constructor
      · rintro ⟨k, rfl, hk, hb, hm⟩
        refine ⟨k + 1, by omega, by simpa using hk, hb, ?_⟩
        intro m d hlt hd
        cases m with
        | zero => simp at hd; subst hd; exact h
        | succ m => exact hm m d (by omega) (by simpa using hd)
      · rintro ⟨k, rfl, hk, hb, hm⟩
        cases k with
        | zero => simp at hk; subst hk; simp [h] at hb
        | succ k =>
          exact ⟨k, by omega, by simpa using hk, hb, fun m d hlt hd => hm (m + 1) d (by omega) (by simpa using hd)⟩

theorem firstNonAscii_eq_none {din : List Byte} : firstNonAscii din = none ↔ ∀ ch ∈ din, ch.toNat < 128 := by
  simp [firstNonAscii, firstBad_eq_none, isAscii]

theorem firstNonAscii_eq_some {din : List Byte} {ch : Byte} {i : Nat} :
    firstNonAscii din = some (ch, i) ↔
      din[i]? = some ch ∧ 128 ≤ ch.toNat ∧ ∀ k d, k < i → din[k]? = some d → d.toNat < 128 := by
  simp [firstNonAscii, firstBad_eq_some, isAscii]

theorem firstRepeat_eq_none {seen : List Byte} {pos : Nat} {din : List Byte} :
    firstRepeat seen pos din = none ↔ din.Nodup ∧ ∀ ch ∈ din, ch ∉ seen := by
  induction din generalizing seen pos with
  | nil => simp [firstRepeat]
  | cons ch rest ih =>
    by_cases h : ch ∈ seen
    · simp [firstRepeat, h]
    · simp only [firstRepeat, List.contains_eq_mem, h, decide_false, Bool.false_eq_true, if_false, ih,
        List.nodup_cons, List.mem_cons, not_or, forall_eq_or_imp, not_false_eq_true, true_and]
      constructor
      · rintro ⟨hn, hs⟩
        exact ⟨⟨fun hc => (hs ch hc).1 rfl, hn⟩, fun d hd => (hs d hd).2⟩
      · rintro ⟨⟨hc, hn⟩, hs⟩
        exact ⟨hn, fun d hd => ⟨fun e => hc (e ▸ hd), hs d hd⟩⟩

theorem firstRepeat_eq_some {seen : List Byte} {pos : Nat} {din : List Byte} {ch : Byte} {i : Nat} :
    firstRepeat seen pos din = some (ch, i) ↔
      ∃ k, i = pos + k ∧ din[k]? = some ch ∧ (ch ∈ seen ∨ ∃ m < k, din[m]? = some ch) ∧
        (din.take k).Nodup ∧ ∀ d ∈ din.take k, d ∉ seen := by
  induction din generalizing seen pos with
  | nil => simp [firstRepeat]
  | cons x rest ih =>
    by_cases h : x ∈ seen
    · simp only [firstRepeat, List.contains_eq_mem, h, decide_true, if_true, Option.some.injEq, Prod.mk.injEq]
      constructor
      · rintro ⟨rfl, rfl⟩
        exact ⟨0, rfl, rfl, .inl h, by simp, by simp⟩
      · rintro ⟨k, rfl, hk, -, -, hs⟩
        cases k with
        | zero => simpa using hk
        | succ k => exact absurd h (hs x (by simp))
    · simp only [firstRepeat, List.contains_eq_mem, h, decide_false, Bool.false_eq_true, if_false, ih]
      constructor
      · rintro ⟨k, rfl, hk, hr, hn, hs⟩
        refine ⟨k + 1, by omega, by simpa using hk, ?_, ?_, ?_⟩
        · rcases hr with hr | ⟨m, hm, hd⟩
          · rcases List.mem_cons.1 hr with rfl | hr
            · exact .inr ⟨0, by omega, by simp⟩
            · exact .inl hr
          · exact .inr ⟨m + 1, by omega, by simpa using hd⟩
        · simp only [List.take_succ_cons, List.nodup_cons]
          exact ⟨fun hx => hs x hx (by simp), hn⟩
        · intro d hd
          simp only [List.take_succ_cons, List.mem_cons] at hd
          rcases hd with rfl | hd
          · exact h
          · exact fun hc => hs d hd (List.mem_cons_of_mem _ hc)
      · rintro ⟨k, rfl, hk, hr, hn, hs⟩
        cases k with
        | zero =>
          simp at hk; subst hk
          rcases hr with hr | ⟨m, hm, -⟩
          · exact absurd hr h
          · omega
        | succ k =>
          simp only [List.take_succ_cons, List.nodup_cons, List.mem_cons, forall_eq_or_imp] at hn hs
          refine ⟨k, by omega, by simpa using hk, ?_, hn.2, ?_⟩
          · rcases hr with hr | ⟨m, hm, hd⟩
            · exact .inl (List.mem_cons_of_mem _ hr)
            · cases m with
              | zero => simp at hd; subst hd; exact .inl (by simp)
              | succ m => exact .inr ⟨m, by omega, by simpa using hd⟩
          · intro d hd hc
            rcases List.mem_cons.1 hc with rfl | hc
            · exact hn.1 hd
            · exact hs.2 d hd hc

theorem firstDuplicate_eq_none {din : List Byte} : firstDuplicate din = none ↔ din.Nodup := by
  simp [firstDuplicate, firstRepeat_eq_none]

theorem firstDuplicate_eq_some {din : List Byte} {ch : Byte} {j : Nat} :
    firstDuplicate din = some (ch, j) ↔
      din[j]? = some ch ∧ (∃ i < j, din[i]? = some ch) ∧ (din.take j).Nodup := by
  simp [firstDuplicate, firstRepeat_eq_some]

end Sys2Proof.Machine
end

