-- ==== Sys2Proof/Laws/State.lean ====
section
/-! SUPPORT. One lemma per field and update: what each named update of Codec and State leaves in each field. -/

namespace Sys2Proof.Machine

/-! ### Table writes -/

@[simp] theorem writeAlpha_valid (c : Codec) (v : Symbol) (a : Code7) : (c.writeAlpha v a).valid = c.valid := rfl
@[simp] theorem writeAlpha_bps (c : Codec) (v : Symbol) (a : Code7) : (c.writeAlpha v a).bps = c.bps := rfl
@[simp] theorem writeAlpha_dt (c : Codec) (v : Symbol) (a : Code7) : (c.writeAlpha v a).dt = c.dt := rfl
@[simp] theorem writeAlpha_ig (c : Codec) (v : Symbol) (a : Code7) : (c.writeAlpha v a).ig = c.ig := rfl
@[simp] theorem writeDt_valid (c : Codec) (i : Code7) (e : DtEntry) : (c.writeDt i e).valid = c.valid := rfl
@[simp] theorem writeDt_bps (c : Codec) (i : Code7) (e : DtEntry) : (c.writeDt i e).bps = c.bps := rfl
@[simp] theorem writeDt_alpha (c : Codec) (i : Code7) (e : DtEntry) : (c.writeDt i e).alpha = c.alpha := rfl
@[simp] theorem writeDt_ig (c : Codec) (i : Code7) (e : DtEntry) : (c.writeDt i e).ig = c.ig := rfl
@[simp] theorem writeIg_valid (c : Codec) (i : Code7) (b : Bool) : (c.writeIg i b).valid = c.valid := rfl
@[simp] theorem writeIg_bps (c : Codec) (i : Code7) (b : Bool) : (c.writeIg i b).bps = c.bps := rfl
@[simp] theorem writeIg_alpha (c : Codec) (i : Code7) (b : Bool) : (c.writeIg i b).alpha = c.alpha := rfl
@[simp] theorem writeIg_dt (c : Codec) (i : Code7) (b : Bool) : (c.writeIg i b).dt = c.dt := rfl

/-! ### A packet consumed -/

@[simp] theorem consumePacket_codec (len : Nat) (s : State) : (consumePacket len s).codec = s.codec := rfl
@[simp] theorem consumePacket_status (len : Nat) (s : State) : (consumePacket len s).status = s.status := rfl
@[simp] theorem consumePacket_errpos (len : Nat) (s : State) : (consumePacket len s).errpos = s.errpos := rfl
@[simp] theorem consumePacket_reslen (len : Nat) (s : State) : (consumePacket len s).reslen = s.reslen := rfl
@[simp] theorem consumePacket_cmd (len : Nat) (s : State) : (consumePacket len s).cmd = s.cmd.tail := rfl
@[simp] theorem consumePacket_din (len : Nat) (s : State) : (consumePacket len s).din = s.din.drop len := rfl
@[simp] theorem consumePacket_dout (len : Nat) (s : State) : (consumePacket len s).dout = s.dout := rfl

/-! ### Completion -/

@[simp] theorem completeOk_codec (c : Codec) (out : List Byte) (s : State) : (completeOk c out s).codec = c := rfl
@[simp] theorem completeOk_status (c : Codec) (out : List Byte) (s : State) :
    (completeOk c out s).status = statusWord .ok c.valid c.bps 0#8 := rfl
@[simp] theorem completeOk_errpos (c : Codec) (out : List Byte) (s : State) : (completeOk c out s).errpos = 0#32 := rfl
@[simp] theorem completeOk_reslen (c : Codec) (out : List Byte) (s : State) :
    (completeOk c out s).reslen = BitVec.ofNat 32 out.length := rfl
@[simp] theorem completeOk_cmd (c : Codec) (out : List Byte) (s : State) : (completeOk c out s).cmd = s.cmd := rfl
@[simp] theorem completeOk_din (c : Codec) (out : List Byte) (s : State) : (completeOk c out s).din = s.din := rfl
@[simp] theorem completeOk_dout (c : Codec) (out : List Byte) (s : State) :
    (completeOk c out s).dout = s.dout ++ out := rfl

@[simp] theorem completeError_codec (r : Raised) (s : State) : (completeError r s).codec = s.codec := rfl
@[simp] theorem completeError_status (r : Raised) (s : State) :
    (completeError r s).status = statusWord r.code s.codec.valid s.codec.bps r.ch := rfl
@[simp] theorem completeError_errpos (r : Raised) (s : State) :
    (completeError r s).errpos = BitVec.ofNat 32 r.pos := rfl
@[simp] theorem completeError_reslen (r : Raised) (s : State) : (completeError r s).reslen = 0#32 := rfl
@[simp] theorem completeError_cmd (r : Raised) (s : State) : (completeError r s).cmd = s.cmd := rfl
@[simp] theorem completeError_din (r : Raised) (s : State) : (completeError r s).din = s.din := rfl
@[simp] theorem completeError_dout (r : Raised) (s : State) : (completeError r s).dout = s.dout := rfl

/-! ### Packets put on the channels, and the host's drain -/

@[simp] theorem pushPacket_codec (w : CmdWord) (es : List Byte) (s : State) : (pushPacket w es s).codec = s.codec := rfl
@[simp] theorem pushPacket_status (w : CmdWord) (es : List Byte) (s : State) :
    (pushPacket w es s).status = s.status := rfl
@[simp] theorem pushPacket_errpos (w : CmdWord) (es : List Byte) (s : State) :
    (pushPacket w es s).errpos = s.errpos := rfl
@[simp] theorem pushPacket_reslen (w : CmdWord) (es : List Byte) (s : State) :
    (pushPacket w es s).reslen = s.reslen := rfl
@[simp] theorem pushPacket_cmd (w : CmdWord) (es : List Byte) (s : State) : (pushPacket w es s).cmd = w :: s.cmd := rfl
@[simp] theorem pushPacket_din (w : CmdWord) (es : List Byte) (s : State) : (pushPacket w es s).din = es ++ s.din := rfl
@[simp] theorem pushPacket_dout (w : CmdWord) (es : List Byte) (s : State) : (pushPacket w es s).dout = s.dout := rfl

@[simp] theorem putPacket_codec (p : Packet) (s : State) : (putPacket p s).codec = s.codec := rfl
@[simp] theorem putPacket_status (p : Packet) (s : State) : (putPacket p s).status = s.status := rfl
@[simp] theorem putPacket_errpos (p : Packet) (s : State) : (putPacket p s).errpos = s.errpos := rfl
@[simp] theorem putPacket_reslen (p : Packet) (s : State) : (putPacket p s).reslen = s.reslen := rfl
@[simp] theorem putPacket_cmd (p : Packet) (s : State) : (putPacket p s).cmd = s.cmd ++ [p.word] := rfl
@[simp] theorem putPacket_din (p : Packet) (s : State) : (putPacket p s).din = s.din ++ p.elements := rfl
@[simp] theorem putPacket_dout (p : Packet) (s : State) : (putPacket p s).dout = s.dout := rfl

@[simp] theorem drainDout_codec (n : Nat) (s : State) : (drainDout n s).codec = s.codec := rfl
@[simp] theorem drainDout_status (n : Nat) (s : State) : (drainDout n s).status = s.status := rfl
@[simp] theorem drainDout_errpos (n : Nat) (s : State) : (drainDout n s).errpos = s.errpos := rfl
@[simp] theorem drainDout_reslen (n : Nat) (s : State) : (drainDout n s).reslen = s.reslen := rfl
@[simp] theorem drainDout_cmd (n : Nat) (s : State) : (drainDout n s).cmd = s.cmd := rfl
@[simp] theorem drainDout_din (n : Nat) (s : State) : (drainDout n s).din = s.din := rfl
@[simp] theorem drainDout_dout (n : Nat) (s : State) : (drainDout n s).dout = s.dout.drop n := rfl

/-! ### Reset -/

@[simp] theorem resetWith_codec (a : Vector Code7 128) (d : Vector DtEntry 128) (g : Vector Bool 128) :
    (State.resetWith a d g).codec = ⟨false, 0#3, a, d, g⟩ := rfl
@[simp] theorem resetWith_status (a : Vector Code7 128) (d : Vector DtEntry 128) (g : Vector Bool 128) :
    (State.resetWith a d g).status = 0#32 := rfl
@[simp] theorem resetWith_errpos (a : Vector Code7 128) (d : Vector DtEntry 128) (g : Vector Bool 128) :
    (State.resetWith a d g).errpos = 0#32 := rfl
@[simp] theorem resetWith_reslen (a : Vector Code7 128) (d : Vector DtEntry 128) (g : Vector Bool 128) :
    (State.resetWith a d g).reslen = 0#32 := rfl
@[simp] theorem resetWith_cmd (a : Vector Code7 128) (d : Vector DtEntry 128) (g : Vector Bool 128) :
    (State.resetWith a d g).cmd = [] := rfl
@[simp] theorem resetWith_din (a : Vector Code7 128) (d : Vector DtEntry 128) (g : Vector Bool 128) :
    (State.resetWith a d g).din = [] := rfl
@[simp] theorem resetWith_dout (a : Vector Code7 128) (d : Vector DtEntry 128) (g : Vector Bool 128) :
    (State.resetWith a d g).dout = [] := rfl

end Sys2Proof.Machine
end

