-- ==== Sys2Proof/Laws/Tables.lean ====
section
/-! SUPPORT. The laws of the tables: a read after a write of the same entry gives the value written, and a write leaves every other entry and every other table alone. -/

namespace Sys2Proof.Machine

theorem readAlpha_writeAlpha (c : Codec) (v w : Symbol) (a : Code7) :
    (c.writeAlpha v a).readAlpha w = if v = w then a else c.readAlpha w := by
  simp [Codec.readAlpha, Codec.writeAlpha, Vector.getElem_set, BitVec.toNat_inj]

theorem readDt_writeDt (c : Codec) (i j : Code7) (e : DtEntry) :
    (c.writeDt i e).readDt j = if i = j then e else c.readDt j := by
  simp [Codec.readDt, Codec.writeDt, Vector.getElem_set, BitVec.toNat_inj]

theorem readIg_writeIg (c : Codec) (i j : Code7) (b : Bool) :
    (c.writeIg i b).readIg j = if i = j then b else c.readIg j := by
  simp [Codec.readIg, Codec.writeIg, Vector.getElem_set, BitVec.toNat_inj]

@[simp] theorem readAlpha_writeDt (c : Codec) (i : Code7) (e : DtEntry) (v : Symbol) :
    (c.writeDt i e).readAlpha v = c.readAlpha v := rfl
@[simp] theorem readAlpha_writeIg (c : Codec) (i : Code7) (b : Bool) (v : Symbol) :
    (c.writeIg i b).readAlpha v = c.readAlpha v := rfl
@[simp] theorem readDt_writeAlpha (c : Codec) (v : Symbol) (a i : Code7) :
    (c.writeAlpha v a).readDt i = c.readDt i := rfl
@[simp] theorem readDt_writeIg (c : Codec) (i : Code7) (b : Bool) (j : Code7) :
    (c.writeIg i b).readDt j = c.readDt j := rfl
@[simp] theorem readIg_writeAlpha (c : Codec) (v : Symbol) (a i : Code7) :
    (c.writeAlpha v a).readIg i = c.readIg i := rfl
@[simp] theorem readIg_writeDt (c : Codec) (i : Code7) (e : DtEntry) (j : Code7) :
    (c.writeDt i e).readIg j = c.readIg j := rfl

/-- A table of 128 entries is what its reads by a 7-bit index give. -/
theorem table_ext {α : Type} {t u : Vector α 128}
    (h : ∀ i : BitVec 7, t[i.toNat]'i.isLt = u[i.toNat]'i.isLt) : t = u := by
  apply Vector.ext
  intro i hi
  have hm : i % 128 = i := Nat.mod_eq_of_lt hi
  simpa [hm] using h (BitVec.ofNat 7 i)

/-- A configuration is what its two registers and the reads of its three tables give. -/
theorem codec_ext {c d : Codec} (hv : c.valid = d.valid) (hb : c.bps = d.bps)
    (ha : ∀ v, c.readAlpha v = d.readAlpha v) (hd : ∀ i, c.readDt i = d.readDt i)
    (hi : ∀ i, c.readIg i = d.readIg i) : c = d := by
  cases c; cases d
  simp only [Codec.mk.injEq]
  exact ⟨hv, hb, table_ext ha, table_ext hd, table_ext hi⟩

theorem readDt_emptyDt {v : Bool} {b : BitVec 3} {a : Vector Code7 128} {g : Vector Bool 128} (i : Code7) :
    Codec.readDt ⟨v, b, a, emptyDt, g⟩ i = .unmapped := by
  simp [Codec.readDt, emptyDt]

theorem readIg_emptyIg {v : Bool} {b : BitVec 3} {a : Vector Code7 128} {d : Vector DtEntry 128} (i : Code7) :
    Codec.readIg ⟨v, b, a, d, emptyIg⟩ i = false := by
  simp [Codec.readIg, emptyIg]

end Sys2Proof.Machine
end

