-- ==== Sys2Proof/Laws/Text.lean ====
section
/-! SUPPORT. What DECODE's scan of a text answers: the values of the mapped characters, or the invalid character at the lowest index. -/

namespace Sys2Proof.Machine

/-- The symbol value that an element of a class contributes. -/
def classValue : CharClass → Option Symbol
  | .ignored => none
  | .mapped v => some v
  | .invalid => none

theorem classify_eq_ignored {c : Codec} {ch : Byte} :
    classify c ch = .ignored ↔ ch.toNat < 128 ∧ c.readIg (tableIndex ch) = true := by
  unfold classify
  by_cases h : ch.toNat < 128 <;> cases hg : c.readIg (tableIndex ch) <;> cases hd : c.readDt (tableIndex ch) <;>
    simp [isAscii, h]

theorem classify_eq_mapped {c : Codec} {ch : Byte} {v : Symbol} :
    classify c ch = .mapped v ↔
      ch.toNat < 128 ∧ c.readIg (tableIndex ch) = false ∧ c.readDt (tableIndex ch) = .mapped v := by
  unfold classify
  by_cases h : ch.toNat < 128 <;> cases hg : c.readIg (tableIndex ch) <;> cases hd : c.readDt (tableIndex ch) <;>
    simp [isAscii, h]

theorem classify_eq_invalid {c : Codec} {ch : Byte} :
    classify c ch = .invalid ↔
      128 ≤ ch.toNat ∨ (c.readIg (tableIndex ch) = false ∧ c.readDt (tableIndex ch) = .unmapped) := by
  unfold classify
  by_cases h : ch.toNat < 128 <;> cases hg : c.readIg (tableIndex ch) <;> cases hd : c.readDt (tableIndex ch) <;>
    simp [isAscii, h] <;> omega

/-- Classification reads DT and IG only. -/
theorem classify_congr {c d : Codec} (hd : c.dt = d.dt) (hi : c.ig = d.ig) (ch : Byte) :
    classify c ch = classify d ch := by
  have h1 : ∀ i, c.readDt i = d.readDt i := fun i => by simp only [Codec.readDt, hd]
  have h2 : ∀ i, c.readIg i = d.readIg i := fun i => by simp only [Codec.readIg, hi]
  simp only [classify, h1, h2]

theorem scanText_congr {c d : Codec} (hd : c.dt = d.dt) (hi : c.ig = d.ig) (pos : Nat) (text : List Byte) :
    scanText c pos text = scanText d pos text := by
  induction text generalizing pos with
  | nil => rfl
  | cons ch rest ih => simp only [scanText, classify_congr hd hi, ih]

/-- A text without an invalid character gives the values of its mapped characters. -/
theorem scanText_ok {c : Codec} {pos : Nat} {text : List Byte} (h : ∀ ch ∈ text, classify c ch ≠ .invalid) :
    scanText c pos text = .ok (text.filterMap fun ch => classValue (classify c ch)) := by
  induction text generalizing pos with
  | nil => rfl
  | cons ch rest ih =>
    have ih' := ih (pos := pos + 1) fun d hd => h d (List.mem_cons_of_mem _ hd)
    have hch := h ch (by simp)
    cases hc : classify c ch with
    | ignored => simp [scanText, hc, ih', classValue]
    | mapped v => simp [scanText, hc, ih', classValue]
    | invalid => exact absurd hc hch

/-- The invalid character at the lowest index is raised, whatever follows. -/
theorem scanText_error {c : Codec} {pos k : Nat} {text : List Byte} {ch : Byte} (hk : text[k]? = some ch)
    (hc : classify c ch = .invalid) (hm : ∀ m d, m < k → text[m]? = some d → classify c d ≠ .invalid) :
    scanText c pos text = .error ⟨.invalidCharacter, ch, pos + k⟩ := by
  induction text generalizing pos k with
  | nil => simp at hk
  | cons x rest ih =>
    cases k with
    | zero =>
      simp at hk; subst hk
      simp [scanText, hc]
    | succ k =>
      simp only [List.getElem?_cons_succ] at hk
      have ih' := ih (pos := pos + 1) hk fun m d hlt hd => hm (m + 1) d (by omega) (by simpa using hd)
      have hx := hm 0 x (by omega) (by simp)
      have e : pos + 1 + k = pos + (k + 1) := by omega
      rw [e] at ih'
      cases hcx : classify c x with
      | ignored => simp [scanText, hcx, ih']
      | mapped v => simp [scanText, hcx, ih']
      | invalid => exact absurd hcx hx

/-- A text either has no invalid character or has one at a lowest index. -/
theorem text_cases (c : Codec) (text : List Byte) :
    (∀ ch ∈ text, classify c ch ≠ .invalid) ∨
    ∃ (k : Nat) (ch : Byte), text[k]? = some ch ∧ classify c ch = .invalid ∧
      ∀ (m : Nat) (d : Byte), m < k → text[m]? = some d → classify c d ≠ .invalid := by
  induction text with
  | nil => simp
  | cons x rest ih =>
    by_cases hx : classify c x = .invalid
    · exact .inr ⟨0, x, rfl, hx, fun m d hm => by omega⟩
    · rcases ih with h | ⟨k, ch, hk, hc, hm⟩
      · refine .inl fun ch hch => ?_
        rcases List.mem_cons.1 hch with rfl | hch
        · exact hx
        · exact h ch hch
      · refine .inr ⟨k + 1, ch, by simpa using hk, hc, fun m d hlt hd => ?_⟩
        cases m with
        | zero => simp at hd; subst hd; exact hx
        | succ m => exact hm m d (by omega) (by simpa using hd)

theorem decodeText_notCreated {c : Codec} {text : List Byte} (h : c.valid = false) :
    decodeText c text = .error notCreated := by
  simp [decodeText, h]

theorem decodeText_ok {c : Codec} {text : List Byte} (hv : c.valid = true)
    (h : ∀ ch ∈ text, classify c ch ≠ .invalid) :
    decodeText c text =
      .ok (valueBytes c.bps.toNat (text.filterMap fun ch => classValue (classify c ch))) := by
  simp [decodeText, hv, scanText_ok h]

theorem decodeText_error {c : Codec} {k : Nat} {text : List Byte} {ch : Byte} (hv : c.valid = true)
    (hk : text[k]? = some ch) (hc : classify c ch = .invalid)
    (hm : ∀ m d, m < k → text[m]? = some d → classify c d ≠ .invalid) :
    decodeText c text = .error ⟨.invalidCharacter, ch, k⟩ := by
  simp [decodeText, hv, scanText_error hk hc hm]

/-- DECODE completes with OK exactly on texts without an invalid character. -/
theorem decodeText_eq_ok {c : Codec} {text out : List Byte} :
    decodeText c text = .ok out ↔
      c.valid = true ∧ (∀ ch ∈ text, classify c ch ≠ .invalid) ∧
        out = valueBytes c.bps.toNat (text.filterMap fun ch => classValue (classify c ch)) := by
  cases hv : c.valid with
  | false => simp [decodeText_notCreated hv]
  | true =>
    rcases text_cases c text with h | ⟨k, ch, hk, hc, hm⟩
    · rw [decodeText_ok hv h]
      constructor
      · intro e
        cases e
        exact ⟨rfl, h, rfl⟩
      · rintro ⟨-, -, rfl⟩
        rfl
    · rw [decodeText_error hv hk hc hm]
      simp only [reduceCtorEq, false_iff, not_and]
      intro _ h
      exact absurd hc (h ch (List.mem_of_getElem? hk))

end Sys2Proof.Machine
end

