-- ==== Sys2Proof/Laws/Accumulator.lean ====
section
/-! SUPPORT. The accumulator of the packing unit holds the bits of the stream not yet given out (41_encode.md R125, 42_decode.md R145). -/

namespace Sys2Proof.Machine

/-- The loop of R125 gives the whole groups of the bits it holds and keeps the rest. -/
theorem accEmit_spec {B : Nat} (hB : 1 ≤ B) (fuel : Nat) (bits : List Bool) (hf : bits.length ≤ fuel) :
    accEmit B fuel ⟨ofBits bits, bits.length⟩ =
      (groups B (bits.length / B) bits, ⟨ofBits (bits.drop (bits.length / B * B)), bits.length % B⟩) := by
  induction fuel generalizing bits with
  | zero =>
    rw [List.eq_nil_of_length_eq_zero (show bits.length = 0 by omega)]
    simp [accEmit, groups]
  | succ fuel ih =>
    rw [accEmit]
    by_cases h : B ≤ bits.length
    · have e1 : (ofBits bits >>> (bits.length - B)) &&& (2 ^ B - 1) = ofBits (bits.take B) := by
        rw [Nat.and_two_pow_sub_one_eq_mod, Nat.shiftRight_eq_div_pow, ofBits_take, Nat.mod_eq_of_lt]
        rw [← ofBits_take]
        have := ofBits_lt (bits.take B)
        rwa [List.length_take, Nat.min_eq_left h] at this
      have e2 : ofBits bits &&& (2 ^ (bits.length - B) - 1) = ofBits (bits.drop B) := by
        rw [Nat.and_two_pow_sub_one_eq_mod, ofBits_drop]
      have e3 := ih (bits.drop B) (by rw [List.length_drop]; omega)
      rw [List.length_drop] at e3
      simp only [h, if_true]
      rw [e1, e2, e3]
      simp only [show bits.length / B = (bits.length - B) / B + 1 from Nat.div_eq_sub_div hB h, groups, List.drop_drop]
      rw [Nat.mod_eq_sub_mod h, Nat.add_mul, Nat.one_mul, Nat.add_comm B]
    · simp only [h, if_false]
      rw [Nat.div_eq_of_lt (by omega), Nat.mod_eq_of_lt (by omega)]
      simp [groups]

theorem accTakeByte_spec (bits : List Bool) (b : Byte) :
    accTakeByte ⟨ofBits bits, bits.length⟩ b = ⟨ofBits (bits ++ byteBits b), (bits ++ byteBits b).length⟩ := by
  unfold accTakeByte
  congr 1
  · simp only
    rw [← Nat.shiftLeft_add_eq_or_of_lt b.isLt, ofBits_append, ofBits_byteBits, byteBits_length, Nat.shiftLeft_eq]
  · simp

/-- One symbol below `2^B` taken into the accumulator gives its first byte, where it holds one, and keeps the rest. -/
theorem accTakeSymbol_spec {B : Nat} (bits : List Bool) {v : Symbol} (hv : v.toNat < 2 ^ B) :
    accTakeSymbol B ⟨ofBits bits, bits.length⟩ v =
      if 8 ≤ bits.length + B then
        (some (BitVec.ofNat 8 (ofBits (bits ++ symbolBits B v) / 2 ^ (bits.length + B - 8) % 256)),
          ⟨ofBits (bits ++ symbolBits B v) % 2 ^ (bits.length + B - 8), bits.length + B - 8⟩)
      else (none, ⟨ofBits (bits ++ symbolBits B v), bits.length + B⟩) := by
  have e : (ofBits bits <<< B) ||| v.toNat = ofBits (bits ++ symbolBits B v) := by
    rw [← Nat.shiftLeft_add_eq_or_of_lt hv, ofBits_append, ofBits_symbolBits, symbolBits_length, Nat.shiftLeft_eq,
      Nat.mod_eq_of_lt hv]
  unfold accTakeSymbol
  simp only [e]
  split
  · rw [show (0xFF : Nat) = 2 ^ 8 - 1 from rfl, Nat.and_two_pow_sub_one_eq_mod, Nat.and_two_pow_sub_one_eq_mod,
      Nat.shiftRight_eq_div_pow]
  · rfl

/-- The accumulator form of ENCODE, from any bits it may hold between two bytes: the groups of those bits, the rest of
the buffer's stream, and the padding. -/
theorem accSymbols_spec {B : Nat} (hB : 1 ≤ B) (data : List Byte) (bits : List Bool) (hb : bits.length < B) (m : Nat)
    (pad : List Bool) (hp : ∀ x ∈ pad, x = false) (hm : m * B = bits.length + 8 * data.length + pad.length)
    (hpl : pad.length < B) :
    accSymbols B ⟨ofBits bits, bits.length⟩ data = groups B m (bits ++ byteStream data ++ pad) := by
  induction data generalizing bits m with
  | nil =>
    simp only [List.length_nil, Nat.mul_zero, Nat.add_zero] at hm
    rw [accSymbols]
    have hpf : pad = List.replicate pad.length false := List.eq_replicate_iff.2 ⟨rfl, hp⟩
    rcases Nat.eq_zero_or_pos bits.length with h | h
    · rw [List.eq_nil_of_length_eq_zero h] at hm ⊢
      simp only [List.length_nil, Nat.zero_add] at hm
      have : m = 0 := by
        rcases Nat.eq_zero_or_pos m with h | h
        · exact h
        · have := Nat.le_mul_of_pos_left B h
          omega
      subst this
      simp [groups]
    · have : m = 1 := by
        have h1 : m < 2 := Nat.lt_of_mul_lt_mul_right (a := B) (by omega)
        have h2 : m ≠ 0 := by
          rintro rfl
          omega
        omega
      subst this
      simp only [h, if_true, groups, byteStream, List.flatMap_nil, List.append_nil]
      rw [List.take_of_length_le (by rw [List.length_append]; omega), ofBits_append]
      have hz : ofBits pad = 0 := by
        rw [hpf]
        exact ofBits_replicate_false _
      rw [hz, show B - bits.length = pad.length by omega, Nat.and_two_pow_sub_one_eq_mod, Nat.shiftLeft_eq,
        Nat.add_zero, Nat.mod_eq_of_lt]
      have e : 2 ^ B = 2 ^ bits.length * 2 ^ pad.length := by
        rw [← Nat.pow_add]
        congr 1
        omega
      rw [e]
      exact Nat.mul_lt_mul_of_pos_right (ofBits_lt bits) (Nat.two_pow_pos _)
  | cons b rest ih =>
    rw [accSymbols, accTakeByte_spec]
    have hem := accEmit_spec hB (bits.length + 8) (bits ++ byteBits b) (by simp)
    simp only at hem ⊢
    rw [hem]
    simp only
    generalize hq : bits ++ byteBits b = q at *
    have hql : q.length = bits.length + 8 := by
      rw [← hq]
      simp
    have hdm := Nat.div_add_mod q.length B
    have hmod := Nat.mod_lt q.length (show 0 < B from hB)
    set j := q.length / B with hj
    rw [Nat.mul_comm] at hdm
    have hlen : (q.drop (j * B)).length = q.length % B := by
      rw [List.length_drop]
      omega
    have hjm : j ≤ m := by
      by_contra hne
      have : (m + 1) * B ≤ j * B := Nat.mul_le_mul_right _ (by omega)
      rw [Nat.add_mul, List.length_cons] at *
      omega
    rw [← hlen, ih (q.drop (j * B)) (by omega) (m - j) (by rw [Nat.sub_mul, hm, hlen, List.length_cons]; omega)]
    have hs : bits ++ byteStream (b :: rest) ++ pad = q.take (j * B) ++ (q.drop (j * B) ++ byteStream rest ++ pad) := by
      rw [← List.append_assoc, ← List.append_assoc, List.take_append_drop, ← hq]
      simp [byteStream]
    have hg := groups_append (w := B) (m := j) (n := 0) (a := q.take (j * B)) (q.drop (j * B))
      (by rw [List.length_take]; omega)
    rw [List.take_append_drop, Nat.add_zero] at hg
    rw [hs]
    conv_rhs => rw [show m = j + (m - j) by omega]
    rw [groups_append _ (by rw [List.length_take]; omega), hg]
    simp [groups]

/-- The accumulator form of DECODE, from any bits it may hold between two symbols (R145). -/
theorem scanAccumulate_spec {c : Codec} (h7 : c.bps.toNat ≤ 7)
    (hc : ∀ i v, c.readDt i = .mapped v → v.toNat < 2 ^ c.bps.toNat) (text : List Byte) (pos : Nat) (bits : List Bool)
    (hb : bits.length ≤ 7) (out : List Byte) :
    scanAccumulate c pos ⟨ofBits bits, bits.length⟩ out text =
      match scanText c pos text with
      | .ok vs =>
        .ok (out ++ (groups 8 ((bits ++ symbolStream c.bps.toNat vs).length / 8)
          (bits ++ symbolStream c.bps.toNat vs)).map (BitVec.ofNat 8))
      | .error r => .error r := by
  induction text generalizing pos bits out with
  | nil =>
    simp only [scanAccumulate, scanText, symbolStream, List.flatMap_nil, List.append_nil]
    rw [Nat.div_eq_of_lt (by omega)]
    simp [groups]
  | cons ch rest ih =>
    simp only [scanAccumulate, scanText]
    cases hcl : classify c ch with
    | ignored => exact ih _ _ hb _
    | invalid => rfl
    | mapped v =>
      simp only
      rw [accTakeSymbol_spec bits (hc _ _ (classify_eq_mapped.1 hcl).2.2)]
      set q := bits ++ symbolBits c.bps.toNat v with hq
      have hql : q.length = bits.length + c.bps.toNat := by simp [hq]
      have hs : ∀ vs, bits ++ symbolStream c.bps.toNat (v :: vs) = q ++ symbolStream c.bps.toNat vs := by
        intro vs
        rw [hq, List.append_assoc]
        rfl
      by_cases h8 : 8 ≤ bits.length + c.bps.toNat
      · simp only [h8, if_true]
        have e1 : ofBits q / 2 ^ (bits.length + c.bps.toNat - 8) % 256 = ofBits (q.take 8) := by
          have := ofBits_lt (q.take 8)
          rw [List.length_take, Nat.min_eq_left (by omega)] at this
          rw [← hql, ← ofBits_take, show (256 : Nat) = 2 ^ 8 from rfl, Nat.mod_eq_of_lt this]
        have e2 : ofBits q % 2 ^ (bits.length + c.bps.toNat - 8) = ofBits (q.drop 8) := by rw [ofBits_drop, hql]
        have e3 : bits.length + c.bps.toNat - 8 = (q.drop 8).length := by rw [List.length_drop, hql]
        rw [e1, e2, e3, ih _ (q.drop 8) (by omega)]
        cases scanText c (pos + 1) rest with
        | error r => rfl
        | ok vs =>
          simp only
          congr 1
          have hq8 : q ++ symbolStream c.bps.toNat vs = q.take 8 ++ (q.drop 8 ++ symbolStream c.bps.toNat vs) := by
            rw [← List.append_assoc, List.take_append_drop]
          rw [hs, hq8]
          generalize q.drop 8 ++ symbolStream c.bps.toNat vs = z
          have hl : (q.take 8).length = 8 := by
            rw [List.length_take]
            omega
          rw [List.length_append, hl, show (8 + z.length) / 8 = z.length / 8 + 1 by omega, groups, List.map_cons,
            List.take_left' hl, List.drop_left' hl]
          simp
      · simp only [h8, if_false]
        rw [← hql, ih _ q (by omega)]
        cases scanText c (pos + 1) rest with
        | error r => rfl
        | ok vs => simp only [hs]

end Sys2Proof.Machine
end

