-- ==== Sys2Proof/Laws/Decoding.lean ====
section
/-! SUPPORT. The fields of a command word, and what the decoder answers by its OP field. -/

namespace Sys2Proof

@[simp] theorem opField_commandWord (op : BitVec 4) (len : Nat) : opField (commandWord op len) = op := by
  apply BitVec.eq_of_toNat_eq
  have h : (commandWord op len).toNat = op.toNat * 2 ^ 28 + len % 2 ^ 28 := by
    have : (op ++ BitVec.ofNat 28 len).toNat = op.toNat * 2 ^ 28 + len % 2 ^ 28 := by
      rw [BitVec.toNat_append, ← Nat.shiftLeft_add_eq_or_of_lt (BitVec.isLt _), Nat.shiftLeft_eq, BitVec.toNat_ofNat]
    exact this
  have := op.isLt
  rw [opField, BitVec.extractLsb'_toNat, h, Nat.shiftRight_eq_div_pow]
  omega

theorem lenField_commandWord (op : BitVec 4) {len : Nat} (h : len ≤ maxLen) : lenField (commandWord op len) = len := by
  have e : (commandWord op len).toNat = op.toNat * 2 ^ 28 + len % 2 ^ 28 := by
    have : (op ++ BitVec.ofNat 28 len).toNat = op.toNat * 2 ^ 28 + len % 2 ^ 28 := by
      rw [BitVec.toNat_append, ← Nat.shiftLeft_add_eq_or_of_lt (BitVec.isLt _), Nat.shiftLeft_eq, BitVec.toNat_ofNat]
    exact this
  simp only [maxLen, lenWidth] at h
  rw [lenField, BitVec.extractLsb'_toNat, e, Nat.shiftRight_eq_div_pow]
  omega

theorem lenField_le (w : CmdWord) : lenField w ≤ maxLen := by
  have := (w.extractLsb' 0 28).isLt
  simp only [lenField, maxLen, lenWidth]
  omega

/-- A word is its OP field and its LEN field. -/
theorem commandWord_fields (w : CmdWord) : commandWord (opField w) (lenField w) = w := by
  have h : opField w ++ BitVec.ofNat 28 (lenField w) = w.extractLsb' 28 4 ++ w.extractLsb' 0 28 := by
    rw [lenField, BitVec.ofNat_toNat, BitVec.setWidth_eq, opField]
  apply BitVec.eq_of_toNat_eq
  have e : (commandWord (opField w) (lenField w)).toNat = (w.extractLsb' 28 4 ++ w.extractLsb' 0 28).toNat :=
    congrArg BitVec.toNat h
  rw [e, BitVec.toNat_append, ← Nat.shiftLeft_add_eq_or_of_lt (BitVec.isLt _), Nat.shiftLeft_eq,
    BitVec.extractLsb'_toNat, BitVec.extractLsb'_toNat, Nat.shiftRight_eq_div_pow, Nat.shiftRight_eq_div_pow]
  have := w.isLt
  omega

/-- The command a word decodes to has the word's LEN field as its length. -/
theorem len_of_decodeWord {w : CmdWord} {i : Instr} (h : decodeWord w = .command i) : i.len = lenField w := by
  unfold decodeWord at h
  split at h <;> first | (cases h; rfl) | skip
  all_goals first | (split at h <;> first | (cases h; simp_all [Instr.len]) | cases h) | cases h

/-- The command a word decodes to has the word's OP field as its opcode. -/
theorem op_of_decodeWord {w : CmdWord} {i : Instr} (h : decodeWord w = .command i) : i.op = opField w := by
  have key : ∀ n : BitVec 4, (opField w).toNat = n.toNat → opField w = n := fun n hn => BitVec.eq_of_toNat_eq hn
  unfold decodeWord at h
  split at h
  case h_2 hop =>
    split at h
    · cases h; exact (key 2#4 hop).symm
    · cases h
  case h_7 => cases h
  all_goals
    rename_i hop
    cases h
    first
      | exact (key 1#4 hop).symm
      | exact (key 3#4 hop).symm
      | exact (key 4#4 hop).symm
      | exact (key 5#4 hop).symm
      | exact (key 6#4 hop).symm

/-- The reserved word's length is its LEN field. -/
theorem len_of_reserved {w : CmdWord} {k : ReservedKind} {len : Nat} (h : decodeWord w = .reserved k len) :
    len = lenField w := by
  unfold decodeWord at h
  split at h
  case h_2 => split at h <;> cases h; rfl
  case h_7 => cases h; rfl
  all_goals cases h

/-- An OP field is 0, one of the six opcodes, or at least 7 (R73, R75). -/
theorem opField_cases (w : CmdWord) :
    opField w = 0#4 ∨ opField w = 1#4 ∨ opField w = 2#4 ∨ opField w = 3#4 ∨ opField w = 4#4 ∨ opField w = 5#4 ∨
      opField w = 6#4 ∨ 7#4 ≤ opField w := by
  generalize opField w = x
  revert x
  decide

theorem decodeWord_of_unassigned {w : CmdWord} (h : opField w = 0#4 ∨ 7#4 ≤ opField w) :
    decodeWord w = .reserved .unassignedOp (lenField w) := by
  have hx : ∀ x : BitVec 4, x = 0#4 ∨ 7#4 ≤ x → x.toNat = 0 ∨ 7 ≤ x.toNat := by decide
  have := hx _ h
  unfold decodeWord
  split <;> first | rfl | omega

theorem opMask_getElem : ∀ i : Nat, (h : i < 32) → (0xF0000000#32)[i] = decide (28 ≤ i) := by decide

/-- Under the mask of the OP field a word is the word of its OP field and an empty LEN field. -/
theorem and_opMask (w : CmdWord) : w &&& 0xF0000000#32 = commandWord (opField w) 0 := by
  apply BitVec.eq_of_getElem_eq
  intro i hi
  rw [show (commandWord (opField w) 0)[i] = (opField w ++ 0#28)[i] from rfl, BitVec.getElem_append, opField,
    BitVec.getElem_and, opMask_getElem i hi]
  by_cases h : i < 28
  · simp [h]
  · have h28 : 28 ≤ i := by omega
    simp [h, h28]
    rw [BitVec.getLsbD_eq_getElem]

/-- A word selects a row whose mask is the OP field's exactly when its OP field is the row's (R73). -/
theorem and_opMask_eq {w : CmdWord} {op : BitVec 4} : w &&& 0xF0000000#32 = commandWord op 0 ↔ opField w = op := by
  rw [and_opMask]
  constructor
  · intro h
    simpa using congrArg opField h
  · intro h
    rw [h]

end Sys2Proof
end

