-- ==== Sys2Proof/Laws/Commands.lean ====
section
/-! SUPPORT. What a command can do, said once: exec of every command is runCommand of its length and its body, and runCommand waits, completes with OK, or raises. -/

namespace Sys2Proof.Machine

/-- What each command answers on a configuration and an operand. -/
def commandBody : Instr → Codec → List Byte → Except Raised (Codec × List Byte)
  | .create _, c, din => configured (createAlphabet c din)
  | .presetB32CI, c, _ => .ok (presetConfiguration presetParams c, [])
  | .addsyn _, c, din => configured (addSynonyms c din)
  | .ignore _, c, din => configured (ignoreCharacters c din)
  | .encode _, c, din => produced c (encodeBytes c din)
  | .decode _, c, din => produced c (decodeText c din)

/-- Every command is one whole packet run through its body. -/
theorem exec_eq_runCommand (i : Instr) (s : State) : exec i s = runCommand i.len (commandBody i) s := by
  cases i <;> rfl

theorem runCommand_waits {len : Nat} {body : Codec → List Byte → Except Raised (Codec × List Byte)} {s : State}
    (h : s.din.length < len) : runCommand len body s = .next s := if_pos h

theorem runCommand_ok {len : Nat} {body : Codec → List Byte → Except Raised (Codec × List Byte)} {s : State}
    {c : Codec} {out : List Byte} (h : len ≤ s.din.length) (hb : body s.codec (s.din.take len) = .ok (c, out)) :
    runCommand len body s = .next (completeOk c out (consumePacket len s)) := by
  simp only [runCommand, operand, Nat.not_lt.2 h, if_false, hb, complete]

theorem runCommand_error {len : Nat} {body : Codec → List Byte → Except Raised (Codec × List Byte)} {s : State}
    {r : Raised} (h : len ≤ s.din.length) (hb : body s.codec (s.din.take len) = .error r) :
    runCommand len body s = .next (completeError r (consumePacket len s)) := by
  simp only [runCommand, operand, Nat.not_lt.2 h, if_false, hb, complete]

/-- Everything a command can do: wait for its operand, complete with OK, or raise. -/
theorem runCommand_cases {len : Nat} {body : Codec → List Byte → Except Raised (Codec × List Byte)} {s t : State}
    (h : runCommand len body s = .next t) :
    (s.din.length < len ∧ t = s) ∨
    (len ≤ s.din.length ∧ ∃ c out, body s.codec (s.din.take len) = .ok (c, out) ∧
      t = completeOk c out (consumePacket len s)) ∨
    (len ≤ s.din.length ∧ ∃ r, body s.codec (s.din.take len) = .error r ∧
      t = completeError r (consumePacket len s)) := by
  rcases Nat.lt_or_ge s.din.length len with hl | hl
  · rw [runCommand_waits hl] at h
    cases h
    exact .inl ⟨hl, rfl⟩
  · cases hb : body s.codec (s.din.take len) with
    | ok p =>
      rw [runCommand_ok hl (c := p.1) (out := p.2) hb] at h
      cases h
      exact .inr (.inl ⟨hl, p.1, p.2, rfl, rfl⟩)
    | error r =>
      rw [runCommand_error hl hb] at h
      cases h
      exact .inr (.inr ⟨hl, r, rfl, rfl⟩)

/-- A command never faults and is never refused. -/
theorem runCommand_next (len : Nat) (body : Codec → List Byte → Except Raised (Codec × List Byte)) (s : State) :
    ∃ t, runCommand len body s = .next t := by
  unfold runCommand
  split
  · exact ⟨s, rfl⟩
  · exact ⟨_, rfl⟩

theorem configured_eq_ok {a : Except Raised Codec} {c : Codec} {out : List Byte} :
    configured a = .ok (c, out) ↔ a = .ok c ∧ out = [] := by
  cases a <;> simp [configured, eq_comm]

theorem configured_eq_error {a : Except Raised Codec} {r : Raised} : configured a = .error r ↔ a = .error r := by
  cases a <;> simp [configured]

theorem produced_eq_ok {c d : Codec} {a : Except Raised (List Byte)} {out : List Byte} :
    produced c a = .ok (d, out) ↔ d = c ∧ a = .ok out := by
  cases a <;> simp [produced, eq_comm]

theorem produced_eq_error {c : Codec} {a : Except Raised (List Byte)} {r : Raised} :
    produced c a = .error r ↔ a = .error r := by
  cases a <;> simp [produced]

/-! ### The step -/

theorem step_of_empty {s : State} (h : s.cmd = []) : step s = .next s := by
  simp [step, fetchWord, idle, h]

theorem step_of_command {s : State} {w : CmdWord} {rest : List CmdWord} {i : Instr} (h : s.cmd = w :: rest)
    (hd : decodeWord w = .command i) : step s = exec i s := by
  simp [step, fetchWord, h, hd]

theorem step_of_reserved {s : State} {w : CmdWord} {rest : List CmdWord} {k : ReservedKind} {len : Nat}
    (h : s.cmd = w :: rest) (hd : decodeWord w = .reserved k len) : step s = execReserved len s := by
  simp [step, fetchWord, h, hd]

/-- The command or the reserved word that the oldest word on CMD is runs as one packet of LEN elements. -/
theorem step_of_word {s : State} {w : CmdWord} {rest : List CmdWord} (h : s.cmd = w :: rest) :
    ∃ body, step s = runCommand (lenField w) body s := by
  cases hd : decodeWord w with
  | command i =>
    refine ⟨commandBody i, ?_⟩
    rw [step_of_command h hd, exec_eq_runCommand, len_of_decodeWord hd]
  | reserved k len =>
    refine ⟨fun _ _ => .error ⟨.illegalCommand, 0#8, 0⟩, ?_⟩
    rw [step_of_reserved h hd]
    rw [len_of_reserved hd]
    rfl

theorem step_of_undersupplied {s : State} {w : CmdWord} {rest : List CmdWord} (h : s.cmd = w :: rest)
    (hl : s.din.length < lenField w) : step s = .next s := by
  obtain ⟨body, hb⟩ := step_of_word h
  rw [hb, runCommand_waits hl]

/-- A step on a whole packet takes exactly that packet from the channels (R59, R70). -/
theorem step_of_supplied {s : State} {w : CmdWord} {rest : List CmdWord} (h : s.cmd = w :: rest)
    (hl : lenField w ≤ s.din.length) :
    ∃ t, step s = .next t ∧ t.cmd = rest ∧ t.din = s.din.drop (lenField w) := by
  obtain ⟨body, hb⟩ := step_of_word h
  obtain ⟨t, ht⟩ := runCommand_next (lenField w) body s
  refine ⟨t, hb.trans ht, ?_⟩
  rcases runCommand_cases ht with ⟨h1, -⟩ | ⟨-, c, out, -, rfl⟩ | ⟨-, r, -, rfl⟩
  · omega
  · simp [h]
  · simp [h]

/-- Everything a step can do: nothing, one command with its operand on DIN, or one reserved word. -/
theorem step_cases {s t : State} (h : step s = .next t) :
    t = s ∨ (∃ i : Instr, i.len ≤ maxLen ∧ i.len ≤ s.din.length ∧ exec i s = .next t) ∨
      ∃ len, len ≤ maxLen ∧ len ≤ s.din.length ∧ t = completeError ⟨.illegalCommand, 0#8, 0⟩ (consumePacket len s) := by
  cases hc : s.cmd with
  | nil =>
    rw [step_of_empty hc] at h
    cases h
    exact .inl rfl
  | cons w rest =>
    rcases Nat.lt_or_ge s.din.length (lenField w) with hl | hl
    · rw [step_of_undersupplied hc hl] at h
      cases h
      exact .inl rfl
    · cases hd : decodeWord w with
      | command i =>
        rw [step_of_command hc hd] at h
        rw [← len_of_decodeWord hd] at hl
        exact .inr (.inl ⟨i, len_of_decodeWord hd ▸ lenField_le w, hl, h⟩)
      | reserved k len =>
        rw [step_of_reserved hc hd, execReserved, runCommand_error (by rw [len_of_reserved hd]; exact hl) rfl] at h
        cases h
        exact .inr (.inr ⟨len, len_of_reserved hd ▸ lenField_le w, by rw [len_of_reserved hd]; exact hl, rfl⟩)

/-- Everything a command can do: wait, complete with OK, or raise. -/
theorem exec_cases {i : Instr} {s t : State} (h : exec i s = .next t) :
    (s.din.length < i.len ∧ t = s) ∨
    (i.len ≤ s.din.length ∧ ∃ c out, commandBody i s.codec (s.din.take i.len) = .ok (c, out) ∧
      t = completeOk c out (consumePacket i.len s)) ∨
    (i.len ≤ s.din.length ∧ ∃ r, commandBody i s.codec (s.din.take i.len) = .error r ∧
      t = completeError r (consumePacket i.len s)) := by
  rw [exec_eq_runCommand] at h
  exact runCommand_cases h

/-! ### STATUS -/

/-- STATUS as a number, its fields side by side (R27). -/
theorem toNat_statusWord (code : StatusCode) (v : Bool) (b : BitVec 3) (ch : Byte) :
    (statusWord code v b ch).toNat = 256 * ch.toNat + 32 * b.toNat + 16 * v.toNat + (statusNumber code).toNat := by
  have h : ∀ n : BitVec 4, (0#16 ++ ch ++ b ++ BitVec.ofBool v ++ n : BitVec (16 + 8 + 3 + 1 + 4)).toNat =
      256 * ch.toNat + 32 * b.toNat + 16 * v.toNat + n.toNat := by
    intro n
    have h1 := n.isLt
    have h2 := (BitVec.ofBool v).isLt
    have h3 := b.isLt
    have h4 := ch.isLt
    rw [BitVec.toNat_append, ← Nat.shiftLeft_add_eq_or_of_lt h1, BitVec.toNat_append,
      ← Nat.shiftLeft_add_eq_or_of_lt h2, BitVec.toNat_append, ← Nat.shiftLeft_add_eq_or_of_lt h3,
      BitVec.toNat_append, ← Nat.shiftLeft_add_eq_or_of_lt h4]
    simp only [Nat.shiftLeft_eq, BitVec.toNat_ofBool, BitVec.toNat_ofNat]
    omega
  exact h _

@[simp] theorem statusCodeField_statusWord (code : StatusCode) (v : Bool) (b : BitVec 3) (ch : Byte) :
    statusCodeField (statusWord code v b ch) = statusNumber code := by
  apply BitVec.eq_of_toNat_eq
  have := (statusNumber code).isLt
  rw [statusCodeField, BitVec.extractLsb'_toNat, toNat_statusWord, Nat.shiftRight_eq_div_pow]
  omega

@[simp] theorem statusValidField_statusWord (code : StatusCode) (v : Bool) (b : BitVec 3) (ch : Byte) :
    statusValidField (statusWord code v b ch) = v := by
  have := (statusNumber code).isLt
  rw [statusValidField, ← BitVec.testBit_toNat, toNat_statusWord, Nat.testBit_eq_decide_div_mod_eq]
  cases v <;> simp <;> omega

@[simp] theorem statusBpsField_statusWord (code : StatusCode) (v : Bool) (b : BitVec 3) (ch : Byte) :
    statusBpsField (statusWord code v b ch) = b := by
  apply BitVec.eq_of_toNat_eq
  have h1 := (statusNumber code).isLt
  have h2 := v.toNat_lt
  have h3 := b.isLt
  rw [statusBpsField, BitVec.extractLsb'_toNat, toNat_statusWord, Nat.shiftRight_eq_div_pow]
  omega

@[simp] theorem statusErrcharField_statusWord (code : StatusCode) (v : Bool) (b : BitVec 3) (ch : Byte) :
    statusErrcharField (statusWord code v b ch) = ch := by
  apply BitVec.eq_of_toNat_eq
  have h1 := (statusNumber code).isLt
  have h2 := v.toNat_lt
  have h3 := b.isLt
  have h4 := ch.isLt
  rw [statusErrcharField, BitVec.extractLsb'_toNat, toNat_statusWord, Nat.shiftRight_eq_div_pow]
  omega

@[simp] theorem statusReservedField_statusWord (code : StatusCode) (v : Bool) (b : BitVec 3) (ch : Byte) :
    statusReservedField (statusWord code v b ch) = 0#16 := by
  apply BitVec.eq_of_toNat_eq
  have h1 := (statusNumber code).isLt
  have h2 := v.toNat_lt
  have h3 := b.isLt
  have h4 := ch.isLt
  rw [statusReservedField, BitVec.extractLsb'_toNat, toNat_statusWord, Nat.shiftRight_eq_div_pow, BitVec.toNat_ofNat]
  omega

theorem statusNumber_inj {a b : StatusCode} : statusNumber a = statusNumber b ↔ a = b := by
  cases a <;> cases b <;> simp [statusNumber]

theorem statusNumber_le (a : StatusCode) : (statusNumber a).toNat ≤ 8 := by cases a <;> decide

end Sys2Proof.Machine
end

