-- ==== Sys2Proof/Laws/Configuration.lean ====
section
/-! SUPPORT. What CREATE, ADDSYN and IGNORE answer on a configuration, and what their commits leave in each entry. -/

namespace Sys2Proof.Machine

/-! ### CREATE -/

@[simp] theorem placeAlphabet_valid (v : Nat) (c : Codec) (din : List Byte) :
    (placeAlphabet v c din).valid = c.valid := by
  induction din generalizing v c with
  | nil => rfl
  | cons ch rest ih => simp [placeAlphabet, ih]

@[simp] theorem placeAlphabet_bps (v : Nat) (c : Codec) (din : List Byte) :
    (placeAlphabet v c din).bps = c.bps := by
  induction din generalizing v c with
  | nil => rfl
  | cons ch rest ih => simp [placeAlphabet, ih]

@[simp] theorem placeAlphabet_ig (v : Nat) (c : Codec) (din : List Byte) :
    (placeAlphabet v c din).ig = c.ig := by
  induction din generalizing v c with
  | nil => rfl
  | cons ch rest ih => simp [placeAlphabet, ih]

theorem placeAlphabet_readAlpha_other {v : Nat} {c : Codec} {din : List Byte} {w : Symbol}
    (hlen : v + din.length ≤ 128) (h : w.toNat < v ∨ v + din.length ≤ w.toNat) :
    (placeAlphabet v c din).readAlpha w = c.readAlpha w := by
  induction din generalizing v c with
  | nil => rfl
  | cons ch rest ih =>
    simp only [List.length_cons] at hlen h
    rw [placeAlphabet, ih (by omega) (by omega)]
    have hne : BitVec.ofNat 7 v ≠ w := by
      intro e
      have := congrArg BitVec.toNat e
      simp only [BitVec.toNat_ofNat] at this
      omega
    simp [readAlpha_writeAlpha, hne]

theorem placeAlphabet_readAlpha {v k : Nat} {c : Codec} {din : List Byte} {ch : Byte}
    (hlen : v + din.length ≤ 128) (h : din[k]? = some ch) :
    (placeAlphabet v c din).readAlpha (BitVec.ofNat 7 (v + k)) = tableIndex ch := by
  induction din generalizing v k c with
  | nil => simp at h
  | cons x rest ih =>
    simp only [List.length_cons] at hlen
    cases k with
    | zero =>
      simp only [List.getElem?_cons_zero, Option.some.injEq] at h
      subst h
      rw [placeAlphabet, placeAlphabet_readAlpha_other (by omega)
        (.inl (by simp only [Nat.add_zero, BitVec.toNat_ofNat]; omega))]
      simp [readAlpha_writeAlpha]
    | succ k =>
      simp only [List.getElem?_cons_succ] at h
      have := ih (v := v + 1) (k := k)
        (c := (c.writeAlpha (BitVec.ofNat 7 v) (tableIndex x)).writeDt (tableIndex x) (.mapped (BitVec.ofNat 7 v)))
        (by omega) h
      rw [show v + (k + 1) = v + 1 + k by omega]
      exact this

theorem placeAlphabet_readDt_other {v : Nat} {c : Codec} {din : List Byte} {i : Code7}
    (h : ∀ ch ∈ din, tableIndex ch ≠ i) : (placeAlphabet v c din).readDt i = c.readDt i := by
  induction din generalizing v c with
  | nil => rfl
  | cons ch rest ih =>
    rw [placeAlphabet, ih fun d hd => h d (List.mem_cons_of_mem _ hd)]
    simp [readDt_writeDt, h ch]

theorem placeAlphabet_readDt {v k : Nat} {c : Codec} {din : List Byte} {ch : Byte}
    (hn : (din.map tableIndex).Nodup) (h : din[k]? = some ch) :
    (placeAlphabet v c din).readDt (tableIndex ch) = .mapped (BitVec.ofNat 7 (v + k)) := by
  induction din generalizing v k c with
  | nil => simp at h
  | cons x rest ih =>
    simp only [List.map_cons, List.nodup_cons, List.mem_map, not_exists, not_and] at hn
    cases k with
    | zero =>
      simp only [List.getElem?_cons_zero, Option.some.injEq] at h
      subst h
      rw [placeAlphabet, placeAlphabet_readDt_other fun d hd => hn.1 d hd]
      simp [readDt_writeDt]
    | succ k =>
      simp only [List.getElem?_cons_succ] at h
      rw [placeAlphabet, ih hn.2 h, show v + 1 + k = v + (k + 1) by omega]

/-- The characters of a valid alphabet have distinct table indexes. -/
theorem nodup_tableIndex {din : List Byte} (ha : ∀ ch ∈ din, ch.toNat < 128) (hn : din.Nodup) :
    (din.map tableIndex).Nodup :=
  hn.map_on fun a h b h' e => tableIndex_inj (ha a h) (ha b h') e

theorem alphabetLengths_le {n : Nat} (h : n ∈ alphabetLengths) : 2 ≤ n ∧ n ≤ 128 := by
  simp only [alphabetLengths, List.mem_cons, List.not_mem_nil, or_false] at h
  omega

/-- BPS of a valid length is its logarithm, 1 to 7. -/
theorem bitsPerSymbol_spec {n : Nat} (h : n ∈ alphabetLengths) :
    2 ^ (bitsPerSymbol n).toNat = n ∧ 1 ≤ (bitsPerSymbol n).toNat ∧ (bitsPerSymbol n).toNat = Nat.log2 n := by
  simp only [alphabetLengths, List.mem_cons, List.not_mem_nil, or_false] at h
  rcases h with rfl | rfl | rfl | rfl | rfl | rfl | rfl <;> decide

theorem createAlphabet_eq_ok {c d : Codec} {din : List Byte} :
    createAlphabet c din = .ok d ↔
      din.length ∈ alphabetLengths ∧ (∀ ch ∈ din, ch.toNat < 128) ∧ din.Nodup ∧ d = createCommit c din := by
  unfold createAlphabet
  by_cases hl : din.length ∈ alphabetLengths
  · simp only [List.contains_eq_mem, hl, decide_true, Bool.not_true, Bool.false_eq_true, if_false, true_and]
    cases ha : firstNonAscii din with
    | some p =>
      obtain ⟨ch, i⟩ := p
      obtain ⟨h1, h2, -⟩ := firstNonAscii_eq_some.1 ha
      simp only [reduceCtorEq, false_iff, not_and]
      intro h
      have := h ch (List.mem_of_getElem? h1)
      omega
    | none =>
      have ha' := firstNonAscii_eq_none.1 ha
      cases hd : firstDuplicate din with
      | some p =>
        obtain ⟨ch, j⟩ := p
        have : firstDuplicate din ≠ none := by simp [hd]
        simp [mt firstDuplicate_eq_none.2 this]
      | none => simpa [firstDuplicate_eq_none.1 hd, eq_comm] using fun _ => ha'
  · simp [hl]

theorem createAlphabet_invalidLength {c : Codec} {din : List Byte} (h : din.length ∉ alphabetLengths) :
    createAlphabet c din = .error ⟨.invalidLength, 0#8, 0⟩ := by
  simp [createAlphabet, h]

theorem createAlphabet_nonAscii {c : Codec} {din : List Byte} {ch : Byte} {i : Nat}
    (hl : din.length ∈ alphabetLengths) (h : firstNonAscii din = some (ch, i)) :
    createAlphabet c din = .error ⟨.nonAsciiCharacter, ch, i⟩ := by
  simp [createAlphabet, hl, h]

theorem createAlphabet_duplicate {c : Codec} {din : List Byte} {ch : Byte} {j : Nat}
    (hl : din.length ∈ alphabetLengths) (ha : firstNonAscii din = none) (h : firstDuplicate din = some (ch, j)) :
    createAlphabet c din = .error ⟨.duplicateCharacter, ch, j⟩ := by
  simp [createAlphabet, hl, ha, h]

/-- What CREATE raises does not depend on the configuration. -/
theorem createAlphabet_error_congr {c d : Codec} {din : List Byte} {r : Raised}
    (h : createAlphabet c din = .error r) : createAlphabet d din = .error r := by
  unfold createAlphabet at h ⊢
  split at h
  · rename_i hl; rw [if_pos hl]; exact h
  · rename_i hl
    rw [if_neg hl]
    split at h
    · exact h
    · split at h
      · exact h
      · cases h

@[simp] theorem createCommit_valid (c : Codec) (din : List Byte) : (createCommit c din).valid = true := by
  simp [createCommit]

@[simp] theorem createCommit_bps (c : Codec) (din : List Byte) :
    (createCommit c din).bps = bitsPerSymbol din.length := by
  simp [createCommit]

@[simp] theorem createCommit_readIg (c : Codec) (din : List Byte) (i : Code7) :
    (createCommit c din).readIg i = false := by
  simp [createCommit, Codec.readIg, emptyIg]

theorem createCommit_readAlpha {c : Codec} {din : List Byte} {k : Nat} {ch : Byte} (hlen : din.length ≤ 128)
    (h : din[k]? = some ch) : (createCommit c din).readAlpha (BitVec.ofNat 7 k) = tableIndex ch := by
  have := placeAlphabet_readAlpha (v := 0)
    (c := { c with valid := true, bps := bitsPerSymbol din.length, dt := emptyDt, ig := emptyIg }) (by omega) h
  rwa [Nat.zero_add] at this

theorem createCommit_readAlpha_other {c : Codec} {din : List Byte} {v : Symbol} (hlen : din.length ≤ 128)
    (h : din.length ≤ v.toNat) : (createCommit c din).readAlpha v = c.readAlpha v := by
  rw [createCommit, placeAlphabet_readAlpha_other (by omega) (.inr (by omega))]
  rfl

theorem createCommit_readDt {c : Codec} {din : List Byte} {k : Nat} {ch : Byte}
    (ha : ∀ ch ∈ din, ch.toNat < 128) (hn : din.Nodup) (h : din[k]? = some ch) :
    (createCommit c din).readDt (tableIndex ch) = .mapped (BitVec.ofNat 7 k) := by
  have := placeAlphabet_readDt (v := 0)
    (c := { c with valid := true, bps := bitsPerSymbol din.length, dt := emptyDt, ig := emptyIg })
    (nodup_tableIndex ha hn) h
  rwa [Nat.zero_add] at this

theorem createCommit_readDt_other {c : Codec} {din : List Byte} {i : Code7} (h : ∀ ch ∈ din, tableIndex ch ≠ i) :
    (createCommit c din).readDt i = .unmapped := by
  rw [createCommit, placeAlphabet_readDt_other h, readDt_emptyDt]

/-- DT and IG after CREATE do not depend on the configuration it replaces. -/
theorem createCommit_dt_congr (c d : Codec) (din : List Byte) : (createCommit c din).dt = (createCommit d din).dt := by
  have h : ∀ (v : Nat) (c d : Codec), c.dt = d.dt → (placeAlphabet v c din).dt = (placeAlphabet v d din).dt := by
    induction din with
    | nil => exact fun _ _ _ h => h
    | cons ch rest ih =>
      intro v c d h
      exact ih _ _ _ (by simp [Codec.writeDt, Codec.writeAlpha, h])
  exact h 0 _ _ rfl

/-! ### ADDSYN -/

@[simp] theorem mapSynonyms_valid (v : Symbol) (c : Codec) (l : List Byte) : (mapSynonyms v c l).valid = c.valid := by
  induction l generalizing c with
  | nil => rfl
  | cons ch rest ih => exact ih _

@[simp] theorem mapSynonyms_bps (v : Symbol) (c : Codec) (l : List Byte) : (mapSynonyms v c l).bps = c.bps := by
  induction l generalizing c with
  | nil => rfl
  | cons ch rest ih => exact ih _

@[simp] theorem mapSynonyms_alpha (v : Symbol) (c : Codec) (l : List Byte) : (mapSynonyms v c l).alpha = c.alpha := by
  induction l generalizing c with
  | nil => rfl
  | cons ch rest ih => exact ih _

@[simp] theorem mapSynonyms_ig (v : Symbol) (c : Codec) (l : List Byte) : (mapSynonyms v c l).ig = c.ig := by
  induction l generalizing c with
  | nil => rfl
  | cons ch rest ih => exact ih _

theorem mapSynonyms_readDt (v : Symbol) (c : Codec) (l : List Byte) (i : Code7) :
    (mapSynonyms v c l).readDt i = if ∃ ch ∈ l, tableIndex ch = i then .mapped v else c.readDt i := by
  induction l generalizing c with
  | nil => simp [mapSynonyms]
  | cons ch rest ih =>
    rw [show mapSynonyms v c (ch :: rest) = mapSynonyms v (c.writeDt (tableIndex ch) (.mapped v)) rest from rfl, ih,
      readDt_writeDt]
    by_cases h1 : ∃ d ∈ rest, tableIndex d = i <;> by_cases h2 : tableIndex ch = i <;> simp [h1, h2]

theorem synonymConflicts_eq_true {c : Codec} {v : Symbol} {ch : Byte} :
    synonymConflicts c v ch = true ↔
      (∃ w, w ≠ v ∧ c.readDt (tableIndex ch) = .mapped w) ∨ c.readIg (tableIndex ch) = true := by
  unfold synonymConflicts
  cases c.readDt (tableIndex ch) <;> simp

theorem synonymConflicts_eq_false {c : Codec} {v : Symbol} {ch : Byte} :
    synonymConflicts c v ch = false ↔
      (c.readDt (tableIndex ch) = .unmapped ∨ c.readDt (tableIndex ch) = .mapped v) ∧
        c.readIg (tableIndex ch) = false := by
  unfold synonymConflicts
  cases c.readDt (tableIndex ch) <;> simp

theorem addSynonyms_notCreated {c : Codec} {din : List Byte} (h : c.valid = false) :
    addSynonyms c din = .error notCreated := by
  simp [addSynonyms, h]

theorem addSynonyms_nonAscii {c : Codec} {din : List Byte} {ch : Byte} {i : Nat} (hv : c.valid = true)
    (h : firstNonAscii din = some (ch, i)) : addSynonyms c din = .error ⟨.nonAsciiCharacter, ch, i⟩ := by
  simp [addSynonyms, hv, h]

theorem addSynonyms_empty {c : Codec} (hv : c.valid = true) :
    addSynonyms c [] = .error ⟨.unmappedAnchor, 0#8, 0⟩ := by
  simp [addSynonyms, hv, firstNonAscii, firstBad]

theorem addSynonyms_unmapped {c : Codec} {anchor : Byte} {synonyms : List Byte} (hv : c.valid = true)
    (ha : firstNonAscii (anchor :: synonyms) = none) (h : c.readDt (tableIndex anchor) = .unmapped) :
    addSynonyms c (anchor :: synonyms) = .error ⟨.unmappedAnchor, anchor, 0⟩ := by
  simp [addSynonyms, hv, ha, h]

theorem addSynonyms_mapped {c : Codec} {anchor : Byte} {synonyms : List Byte} {v : Symbol} (hv : c.valid = true)
    (ha : firstNonAscii (anchor :: synonyms) = none) (h : c.readDt (tableIndex anchor) = .mapped v) :
    addSynonyms c (anchor :: synonyms) =
      match firstBad (synonymConflicts c v) 1 synonyms with
      | some (ch, j) => .error ⟨.conflictingSynonym, ch, j⟩
      | none => .ok (mapSynonyms v c synonyms) := by
  cases hb : firstBad (synonymConflicts c v) 1 synonyms <;> simp [addSynonyms, hv, ha, h, hb]

/-- ADDSYN completes with OK exactly when there is a configuration, the spec is ASCII, its anchor is mapped, and no
later element conflicts; and then it maps the later elements. -/
theorem addSynonyms_eq_ok {c d : Codec} {din : List Byte} :
    addSynonyms c din = .ok d ↔
      c.valid = true ∧ (∀ ch ∈ din, ch.toNat < 128) ∧
        ∃ anchor synonyms v, din = anchor :: synonyms ∧ c.readDt (tableIndex anchor) = .mapped v ∧
          (∀ ch ∈ synonyms, synonymConflicts c v ch = false) ∧ d = mapSynonyms v c synonyms := by
  cases hv : c.valid with
  | false => simp [addSynonyms_notCreated hv]
  | true =>
    cases ha : firstNonAscii din with
    | some p =>
      obtain ⟨ch, i⟩ := p
      rw [addSynonyms_nonAscii hv ha]
      obtain ⟨h1, h2, -⟩ := firstNonAscii_eq_some.1 ha
      simp only [reduceCtorEq, false_iff, not_and]
      intro _ h
      have := h ch (List.mem_of_getElem? h1)
      omega
    | none =>
      have ha' := firstNonAscii_eq_none.1 ha
      cases din with
      | nil => simp [addSynonyms_empty hv]
      | cons anchor synonyms =>
        cases hd : c.readDt (tableIndex anchor) with
        | unmapped =>
          rw [addSynonyms_unmapped hv ha hd]
          simp only [reduceCtorEq, false_iff]
          rintro ⟨-, -, a, ss, w, he, hw, -⟩
          cases he
          rw [hd] at hw
          cases hw
        | mapped v =>
          rw [addSynonyms_mapped hv ha hd]
          cases hb : firstBad (synonymConflicts c v) 1 synonyms with
          | some p =>
            obtain ⟨ch, j⟩ := p
            obtain ⟨k, -, hk, hbad, -⟩ := firstBad_eq_some.1 hb
            simp only [reduceCtorEq, false_iff]
            rintro ⟨-, -, a, ss, w, he, hw, hc, -⟩
            cases he
            rw [hd] at hw
            cases hw
            have := hc ch (List.mem_of_getElem? hk)
            simp [hbad] at this
          | none =>
            have hb' := firstBad_eq_none.1 hb
            constructor
            · intro h
              cases h
              exact ⟨rfl, ha', anchor, synonyms, v, rfl, hd, hb', rfl⟩
            · rintro ⟨-, -, a, ss, w, he, hw, -, rfl⟩
              cases he
              rw [hd] at hw
              cases hw
              rfl

/-- ADDSYN never changes or removes a mapping (R104). -/
theorem addSynonyms_keeps_mapped {c d : Codec} {din : List Byte} (h : addSynonyms c din = .ok d) {i : Code7}
    {w : Symbol} (hi : c.readDt i = .mapped w) : d.readDt i = .mapped w := by
  obtain ⟨-, -, a, ss, v, rfl, -, hc, rfl⟩ := addSynonyms_eq_ok.1 h
  rw [mapSynonyms_readDt]
  split
  · rename_i hex
    obtain ⟨ch, hch, rfl⟩ := hex
    rcases (synonymConflicts_eq_false.1 (hc ch hch)).1 with hu | hm
    · rw [hu] at hi; cases hi
    · rw [← hm, hi]
  · exact hi

/-! ### IGNORE -/

@[simp] theorem setIgnored_valid (c : Codec) (l : List Byte) : (setIgnored c l).valid = c.valid := by
  induction l generalizing c with
  | nil => rfl
  | cons ch rest ih => exact ih _

@[simp] theorem setIgnored_bps (c : Codec) (l : List Byte) : (setIgnored c l).bps = c.bps := by
  induction l generalizing c with
  | nil => rfl
  | cons ch rest ih => exact ih _

@[simp] theorem setIgnored_alpha (c : Codec) (l : List Byte) : (setIgnored c l).alpha = c.alpha := by
  induction l generalizing c with
  | nil => rfl
  | cons ch rest ih => exact ih _

@[simp] theorem setIgnored_dt (c : Codec) (l : List Byte) : (setIgnored c l).dt = c.dt := by
  induction l generalizing c with
  | nil => rfl
  | cons ch rest ih => exact ih _

theorem setIgnored_readIg (c : Codec) (l : List Byte) (i : Code7) :
    (setIgnored c l).readIg i = if ∃ ch ∈ l, tableIndex ch = i then true else c.readIg i := by
  induction l generalizing c with
  | nil => simp [setIgnored]
  | cons ch rest ih =>
    rw [show setIgnored c (ch :: rest) = setIgnored (c.writeIg (tableIndex ch) true) rest from rfl, ih, readIg_writeIg]
    by_cases h1 : ∃ d ∈ rest, tableIndex d = i <;> by_cases h2 : tableIndex ch = i <;> simp [h1, h2]

theorem isMapped_eq_false {c : Codec} {ch : Byte} :
    isMapped c ch = false ↔ c.readDt (tableIndex ch) = .unmapped := by
  unfold isMapped
  cases c.readDt (tableIndex ch) <;> simp

theorem isMapped_eq_true {c : Codec} {ch : Byte} :
    isMapped c ch = true ↔ c.readDt (tableIndex ch) ≠ .unmapped := by
  unfold isMapped
  cases c.readDt (tableIndex ch) <;> simp

theorem ignoreCharacters_notCreated {c : Codec} {din : List Byte} (h : c.valid = false) :
    ignoreCharacters c din = .error notCreated := by
  simp [ignoreCharacters, h]

theorem ignoreCharacters_nonAscii {c : Codec} {din : List Byte} {ch : Byte} {i : Nat} (hv : c.valid = true)
    (h : firstNonAscii din = some (ch, i)) : ignoreCharacters c din = .error ⟨.nonAsciiCharacter, ch, i⟩ := by
  simp [ignoreCharacters, hv, h]

theorem ignoreCharacters_mapped {c : Codec} {din : List Byte} {ch : Byte} {i : Nat} (hv : c.valid = true)
    (ha : firstNonAscii din = none) (h : firstBad (isMapped c) 0 din = some (ch, i)) :
    ignoreCharacters c din = .error ⟨.conflictingSynonym, ch, i⟩ := by
  simp [ignoreCharacters, hv, ha, h]

/-- IGNORE completes with OK exactly when there is a configuration, every element is ASCII and none is mapped; and
then it sets their entries. -/
theorem ignoreCharacters_eq_ok {c d : Codec} {din : List Byte} :
    ignoreCharacters c din = .ok d ↔
      c.valid = true ∧ (∀ ch ∈ din, ch.toNat < 128) ∧ (∀ ch ∈ din, c.readDt (tableIndex ch) = .unmapped) ∧
        d = setIgnored c din := by
  cases hv : c.valid with
  | false => simp [ignoreCharacters_notCreated hv]
  | true =>
    cases ha : firstNonAscii din with
    | some p =>
      obtain ⟨ch, i⟩ := p
      rw [ignoreCharacters_nonAscii hv ha]
      obtain ⟨h1, h2, -⟩ := firstNonAscii_eq_some.1 ha
      simp only [reduceCtorEq, false_iff, not_and]
      intro _ h
      have := h ch (List.mem_of_getElem? h1)
      omega
    | none =>
      have ha' := firstNonAscii_eq_none.1 ha
      cases hb : firstBad (isMapped c) 0 din with
      | some p =>
        obtain ⟨ch, i⟩ := p
        rw [ignoreCharacters_mapped hv ha hb]
        obtain ⟨k, -, hk, hbad, -⟩ := firstBad_eq_some.1 hb
        simp only [reduceCtorEq, false_iff, not_and]
        intro _ _ h
        exact absurd (h ch (List.mem_of_getElem? hk)) (isMapped_eq_true.1 hbad)
      | none =>
        have hb' : ∀ ch ∈ din, c.readDt (tableIndex ch) = .unmapped :=
          fun ch h => isMapped_eq_false.1 (firstBad_eq_none.1 hb ch h)
        have : ignoreCharacters c din = .ok (setIgnored c din) := by simp [ignoreCharacters, hv, ha, hb]
        rw [this]
        constructor
        · intro h
          cases h
          exact ⟨rfl, ha', hb', rfl⟩
        · rintro ⟨-, -, -, rfl⟩
          rfl

end Sys2Proof.Machine
end

