-- ==== Sys2Proof/Laws/Answers.lean ====
section
/-! SUPPORT. What a command's answer can be: the errors each raises and when, how long its output is, and which index an error names. -/

namespace Sys2Proof.Machine

theorem createAlphabet_error_cases {c : Codec} {din : List Byte} {r : Raised} (h : createAlphabet c din = .error r) :
    (r.code = .invalidLength ∧ din.length ∉ alphabetLengths) ∨
    (r.code = .nonAsciiCharacter ∧ firstNonAscii din ≠ none) ∨
    (r.code = .duplicateCharacter ∧ ¬ din.Nodup ∧ firstNonAscii din = none) := by
  by_cases hl : din.length ∈ alphabetLengths
  · cases ha : firstNonAscii din with
    | some p => rw [createAlphabet_nonAscii hl ha] at h; cases h; simp
    | none =>
      cases hd : firstDuplicate din with
      | some p =>
        rw [createAlphabet_duplicate hl ha hd] at h
        cases h
        refine .inr (.inr ⟨rfl, fun hn => ?_, rfl⟩)
        rw [firstDuplicate_eq_none.2 hn] at hd
        cases hd
      | none =>
        rw [createAlphabet_eq_ok.2 ⟨hl, firstNonAscii_eq_none.1 ha, firstDuplicate_eq_none.1 hd, rfl⟩] at h
        cases h
  · rw [createAlphabet_invalidLength hl] at h
    cases h
    exact .inl ⟨rfl, hl⟩

theorem addSynonyms_error_cases {c : Codec} {din : List Byte} {r : Raised} (hv : c.valid = true)
    (h : addSynonyms c din = .error r) :
    (r.code = .nonAsciiCharacter ∧ firstNonAscii din ≠ none) ∨
    (r.code = .unmappedAnchor ∧ firstNonAscii din = none ∧
      (din = [] ∨ ∃ anchor rest, din = anchor :: rest ∧ c.readDt (tableIndex anchor) = .unmapped)) ∨
    (r.code = .conflictingSynonym ∧ firstNonAscii din = none ∧ ∃ anchor rest v, din = anchor :: rest ∧
      c.readDt (tableIndex anchor) = .mapped v ∧ ∃ ch ∈ rest, synonymConflicts c v ch = true) := by
  cases ha : firstNonAscii din with
  | some p => rw [addSynonyms_nonAscii hv ha] at h; cases h; simp
  | none =>
    cases din with
    | nil => rw [addSynonyms_empty hv] at h; cases h; simp
    | cons anchor rest =>
      cases hd : c.readDt (tableIndex anchor) with
      | unmapped => rw [addSynonyms_unmapped hv ha hd] at h; cases h; simp [hd]
      | mapped v =>
        rw [addSynonyms_mapped hv ha hd] at h
        cases hb : firstBad (synonymConflicts c v) 1 rest with
        | none => rw [hb] at h; cases h
        | some q =>
          rw [hb] at h
          cases h
          obtain ⟨k, -, hk, hbad, -⟩ := firstBad_eq_some.1 hb
          exact .inr (.inr ⟨rfl, rfl, anchor, rest, v, rfl, hd, _, List.mem_of_getElem? hk, hbad⟩)

theorem ignoreCharacters_error_cases {c : Codec} {din : List Byte} {r : Raised} (hv : c.valid = true)
    (h : ignoreCharacters c din = .error r) :
    (r.code = .nonAsciiCharacter ∧ firstNonAscii din ≠ none) ∨
    (r.code = .conflictingSynonym ∧ firstNonAscii din = none ∧ ∃ ch ∈ din, isMapped c ch = true) := by
  cases ha : firstNonAscii din with
  | some p => rw [ignoreCharacters_nonAscii hv ha] at h; cases h; simp
  | none =>
    cases hb : firstBad (isMapped c) 0 din with
    | some q =>
      rw [ignoreCharacters_mapped hv ha hb] at h
      cases h
      obtain ⟨k, -, hk, hbad, -⟩ := firstBad_eq_some.1 hb
      exact .inr ⟨rfl, rfl, _, List.mem_of_getElem? hk, hbad⟩
    | none =>
      rw [ignoreCharacters_eq_ok.2 ⟨hv, firstNonAscii_eq_none.1 ha,
        fun ch h => isMapped_eq_false.1 (firstBad_eq_none.1 hb ch h), rfl⟩] at h
      cases h

/-- The errors that each command can raise (R161). -/
def possibleErrors : Instr → List StatusCode
  | .create _ => [.invalidLength, .nonAsciiCharacter, .duplicateCharacter]
  | .presetB32CI => []
  | .addsyn _ => [.notCreated, .nonAsciiCharacter, .unmappedAnchor, .conflictingSynonym]
  | .ignore _ => [.notCreated, .nonAsciiCharacter, .conflictingSynonym]
  | .encode _ => [.notCreated]
  | .decode _ => [.notCreated, .invalidCharacter]

theorem commandBody_error_code {i : Instr} {c : Codec} {din : List Byte} {r : Raised}
    (h : commandBody i c din = .error r) : r.code ∈ possibleErrors i := by
  cases i with
  | create n =>
    rcases createAlphabet_error_cases (configured_eq_error.1 h) with ⟨h, -⟩ | ⟨h, -⟩ | ⟨h, -⟩ <;> simp [h, possibleErrors]
  | presetB32CI => cases h
  | addsyn n =>
    have h := configured_eq_error.1 h
    cases hv : c.valid with
    | false => rw [addSynonyms_notCreated hv] at h; cases h; simp [notCreated, possibleErrors]
    | true => rcases addSynonyms_error_cases hv h with ⟨h, -⟩ | ⟨h, -⟩ | ⟨h, -⟩ <;> simp [h, possibleErrors]
  | ignore n =>
    have h := configured_eq_error.1 h
    cases hv : c.valid with
    | false => rw [ignoreCharacters_notCreated hv] at h; cases h; simp [notCreated, possibleErrors]
    | true => rcases ignoreCharacters_error_cases hv h with ⟨h, -⟩ | ⟨h, -⟩ <;> simp [h, possibleErrors]
  | encode n =>
    have h := produced_eq_error.1 h
    unfold encodeBytes at h
    split at h <;> cases h
    simp [notCreated, possibleErrors]
  | decode n =>
    have h := produced_eq_error.1 h
    cases hv : c.valid with
    | false => rw [decodeText_notCreated hv] at h; cases h; simp [notCreated, possibleErrors]
    | true =>
      rcases text_cases c din with ha | ⟨k, ch, h1, h2, h3⟩
      · rw [decodeText_ok hv ha] at h; cases h
      · rw [decodeText_error hv h1 h2 h3] at h; cases h; simp [possibleErrors]

theorem bps_le (c : Codec) : c.bps.toNat ≤ 7 := by
  have := c.bps.isLt
  omega

theorem symbolCount_le (B L : Nat) : symbolCount B L ≤ 8 * L := by
  rcases Nat.eq_zero_or_pos B with rfl | h
  · simp [symbolCount, ceilDiv]
  · have h2 := symbolCount_mul_lt h L
    by_contra hc
    have h3 : (8 * L + 1) * B ≤ symbolCount B L * B := Nat.mul_le_mul_right _ (by omega)
    rw [Nat.add_mul, Nat.one_mul] at h3
    have := Nat.le_mul_of_pos_right (8 * L) h
    omega

@[simp] theorem encodeText_length (c : Codec) (data : List Byte) :
    (encodeText c data).length = symbolCount c.bps.toNat data.length := by
  simp [encodeText]

/-- No command puts more on DOUT than eight elements for each operand element (R29). -/
theorem commandBody_output_length {i : Instr} {c d : Codec} {din out : List Byte}
    (h : commandBody i c din = .ok (d, out)) : out.length ≤ 8 * din.length := by
  cases i with
  | create n => rw [(configured_eq_ok.1 h).2]; simp
  | presetB32CI => cases h; simp
  | addsyn n => rw [(configured_eq_ok.1 h).2]; simp
  | ignore n => rw [(configured_eq_ok.1 h).2]; simp
  | encode n =>
    have h := (produced_eq_ok.1 h).2
    unfold encodeBytes at h
    split at h <;> cases h
    rw [encodeText_length]
    exact symbolCount_le _ _
  | decode n =>
    obtain ⟨-, -, rfl⟩ := decodeText_eq_ok.1 (produced_eq_ok.1 h).2
    rw [valueBytes_length]
    apply Nat.div_le_of_le_mul
    have h1 := List.length_filterMap_le (fun ch => classValue (classify c ch)) din
    have h2 : (din.filterMap fun ch => classValue (classify c ch)).length * c.bps.toNat ≤ din.length * 7 :=
      Nat.mul_le_mul h1 (bps_le c)
    omega

/-- An error names index 0 or an index of the operand (R28). -/
theorem commandBody_error_index {i : Instr} {c : Codec} {din : List Byte} {r : Raised}
    (h : commandBody i c din = .error r) : r.pos = 0 ∨ r.pos < din.length := by
  have na : ∀ ch i, firstNonAscii din = some (ch, i) → i < din.length := fun ch i h =>
    (List.getElem?_eq_some_iff.1 (firstNonAscii_eq_some.1 h).1).1
  cases i with
  | create n =>
    have h := configured_eq_error.1 h
    unfold createAlphabet at h
    split at h
    · cases h; exact .inl rfl
    · split at h
      · rename_i hh; cases h; exact .inr (na _ _ hh)
      · split at h
        · rename_i hh; cases h
          exact .inr (List.getElem?_eq_some_iff.1 (firstDuplicate_eq_some.1 hh).1).1
        · cases h
  | presetB32CI => cases h
  | addsyn n =>
    have h := configured_eq_error.1 h
    unfold addSynonyms at h
    split at h
    · cases h; exact .inl rfl
    · split at h
      · rename_i hh; cases h; exact .inr (na _ _ hh)
      · split at h
        · cases h; exact .inl rfl
        · split at h
          · cases h; exact .inl rfl
          · split at h
            · rename_i hh; cases h
              obtain ⟨k, rfl, hk, -⟩ := firstBad_eq_some.1 hh
              have := (List.getElem?_eq_some_iff.1 hk).1
              simp only [List.length_cons]
              omega
            · cases h
  | ignore n =>
    have h := configured_eq_error.1 h
    unfold ignoreCharacters at h
    split at h
    · cases h; exact .inl rfl
    · split at h
      · rename_i hh; cases h; exact .inr (na _ _ hh)
      · split at h
        · rename_i hh; cases h
          obtain ⟨k, rfl, hk, -⟩ := firstBad_eq_some.1 hh
          exact .inr (by simpa using (List.getElem?_eq_some_iff.1 hk).1)
        · cases h
  | encode n =>
    have h := produced_eq_error.1 h
    unfold encodeBytes at h
    split at h <;> cases h
    exact .inl rfl
  | decode n =>
    have h := produced_eq_error.1 h
    cases hv : c.valid with
    | false => rw [decodeText_notCreated hv] at h; cases h; exact .inl rfl
    | true =>
      rcases text_cases c din with ha | ⟨k, ch, h1, h2, h3⟩
      · rw [decodeText_ok hv ha] at h; cases h
      · rw [decodeText_error hv h1 h2 h3] at h; cases h
        exact .inr (List.getElem?_eq_some_iff.1 h1).1

end Sys2Proof.Machine
end

