-- ==== Sys2Proof/Laws/Environment.lean ====
section
/-! SUPPORT. What a transaction and a run of packets answer: one equation per shape, and all that one with a next state can have been. The fields that host actions leave are in Laws/State.lean. -/

namespace Sys2Proof.Machine

/-! ### Transactions -/

theorem packetWhole_iff {p : Packet} : packetWhole p = true ↔ p.elements.length = lenField p.word := by
  simp [packetWhole]

theorem transact_of_malformed {p : Packet} (h : packetWhole p = false) (s : State) :
    transact p s = .refused .malformedPacket := by
  simp [transact, h]

theorem transact_of_step {p : Packet} (h : packetWhole p = true) {s t : State} (ht : step (putPacket p s) = .next t) :
    transact p s = .next (drainDout t.reslen.toNat t, resultRecord t) := by
  simp [transact, h, ht]

/-- All that a transaction with a next state can have been. -/
theorem transact_eq_next {p : Packet} {s t : State} {r : ResultRecord} (h : transact p s = .next (t, r)) :
    packetWhole p = true ∧ ∃ u, step (putPacket p s) = .next u ∧ t = drainDout u.reslen.toNat u ∧ r = resultRecord u := by
  cases hw : packetWhole p with
  | false => rw [transact_of_malformed hw] at h; cases h
  | true =>
    refine ⟨rfl, ?_⟩
    cases hs : step (putPacket p s) with
    | next u =>
      rw [transact_of_step hw hs] at h
      cases h
      exact ⟨u, rfl, rfl, rfl⟩
    | fault f => exact nomatch f
    | refused e => simp [transact, hw, hs] at h

/-! ### Runs -/

@[simp] theorem runPackets_nil (s : State) : runPackets s [] = .next (s, []) := rfl

theorem runPackets_of_malformed {p : Packet} (h : packetWhole p = false) (s : State) (rest : List Packet) :
    runPackets s (p :: rest) = .refused .malformedPacket := by
  simp [runPackets, transact_of_malformed h]

theorem runPackets_of_next {p : Packet} {s t u : State} {r : ResultRecord} {rs : List ResultRecord}
    {rest : List Packet} (h : transact p s = .next (t, r)) (hr : runPackets t rest = .next (u, rs)) :
    runPackets s (p :: rest) = .next (u, r :: rs) := by
  simp [runPackets, h, hr]

theorem runPackets_of_refused {p : Packet} {s t : State} {r : ResultRecord} {e : Refusal} {rest : List Packet}
    (h : transact p s = .next (t, r)) (hr : runPackets t rest = .refused e) :
    runPackets s (p :: rest) = .refused e := by
  simp [runPackets, h, hr]

/-- All that a run with a next state can have been. -/
theorem runPackets_cons_eq_next {p : Packet} {s u : State} {rs : List ResultRecord} {rest : List Packet}
    (h : runPackets s (p :: rest) = .next (u, rs)) :
    ∃ t r rs', transact p s = .next (t, r) ∧ runPackets t rest = .next (u, rs') ∧ rs = r :: rs' := by
  cases ht : transact p s with
  | next x =>
    obtain ⟨t, r⟩ := x
    cases hr : runPackets t rest with
    | next y =>
      obtain ⟨v, rs'⟩ := y
      rw [runPackets_of_next ht hr] at h
      cases h
      exact ⟨t, r, rs', rfl, hr, rfl⟩
    | fault f => exact nomatch f
    | refused e => simp [runPackets_of_refused ht hr] at h
  | fault f => exact nomatch f
  | refused e => simp [runPackets, ht] at h

end Sys2Proof.Machine
end

