-- ==== Sys2Proof/Laws/Invariant.lean ====
section
/-! SUPPORT. CREATE, ADDSYN, IGNORE and PRESET.B32CI keep the invariants of a configuration (10_state.md R26). -/

namespace Sys2Proof.Machine

/-- CREATE establishes the invariants, whatever it replaces. -/
theorem createCommit_wf {c : Codec} {din : List Byte} (hl : din.length ∈ alphabetLengths)
    (ha : ∀ ch ∈ din, ch.toNat < 128) (hn : din.Nodup) : (createCommit c din).Wf := by
  obtain ⟨hb, hb1, -⟩ := bitsPerSymbol_spec hl
  have hlen := (alphabetLengths_le hl).2
  have hsize : (createCommit c din).size = din.length := by simp only [Codec.size, createCommit_bps, hb]
  have hget : ∀ v : Symbol, v.toNat < (createCommit c din).size → ∃ ch, din[v.toNat]? = some ch ∧ ch ∈ din ∧
      (createCommit c din).readAlpha v = tableIndex ch := by
    intro v hv
    rw [hsize] at hv
    refine ⟨din[v.toNat], List.getElem?_eq_getElem hv, List.getElem_mem hv, ?_⟩
    have := createCommit_readAlpha (c := c) hlen (List.getElem?_eq_getElem hv)
    simpa using this
  constructor
  · simp
  · intro _; simpa using hb1
  · intro _ v w hv hw e
    obtain ⟨a, ha1, ha2, ha3⟩ := hget v hv
    obtain ⟨b, hb1, hb2, hb3⟩ := hget w hw
    rw [ha3, hb3] at e
    have hab := tableIndex_inj (ha a ha2) (ha b hb2) e
    subst hab
    rw [hsize] at hv hw
    rw [List.getElem?_eq_getElem hv, Option.some.injEq] at ha1
    rw [List.getElem?_eq_getElem hw, Option.some.injEq] at hb1
    exact BitVec.eq_of_toNat_eq ((hn.getElem_inj_iff).1 (ha1.trans hb1.symm))
  · intro _ v hv
    obtain ⟨a, ha1, -, ha3⟩ := hget v hv
    rw [ha3, createCommit_readDt ha hn ha1]
    simp
  · intro _ i v h
    by_cases hex : ∃ ch ∈ din, tableIndex ch = i
    · obtain ⟨ch, hch, rfl⟩ := hex
      obtain ⟨k, hk, he⟩ := List.mem_iff_getElem.1 hch
      have hk' : din[k]? = some ch := by rw [List.getElem?_eq_getElem hk, he]
      rw [createCommit_readDt ha hn hk', DtEntry.mapped.injEq] at h
      rw [hsize, ← h, BitVec.toNat_ofNat]
      exact Nat.lt_of_le_of_lt (Nat.mod_le _ _) hk
    · rw [createCommit_readDt_other fun ch hch e => hex ⟨ch, hch, e⟩] at h
      cases h
  · intro _ i h
    simp at h

theorem createAlphabet_wf {c d : Codec} {din : List Byte} (h : createAlphabet c din = .ok d) : d.Wf := by
  obtain ⟨hl, ha, hn, rfl⟩ := createAlphabet_eq_ok.1 h
  exact createCommit_wf hl ha hn

theorem addSynonyms_wf {c d : Codec} {din : List Byte} (hc : c.Wf) (h : addSynonyms c din = .ok d) : d.Wf := by
  have hkeep := fun i w => addSynonyms_keeps_mapped h (i := i) (w := w)
  obtain ⟨hv, -, a, ss, v, rfl, hav, hcon, rfl⟩ := addSynonyms_eq_ok.1 h
  have halpha : ∀ w, (mapSynonyms v c ss).readAlpha w = c.readAlpha w := fun w => by
    simp [Codec.readAlpha]
  have hig : ∀ i, (mapSynonyms v c ss).readIg i = c.readIg i := fun i => by simp [Codec.readIg]
  have hsize : (mapSynonyms v c ss).size = c.size := by simp [Codec.size]
  constructor
  · simp [hv]
  · intro _; simpa using hc.bps_pos hv
  · intro _; simpa only [halpha, hsize] using hc.alpha_distinct hv
  · intro _ w hw
    rw [hsize] at hw
    rw [halpha]
    exact hkeep _ _ (hc.canonical_mapped hv w hw)
  · intro _ i w hw
    rw [mapSynonyms_readDt] at hw
    rw [hsize]
    split at hw
    · cases hw
      exact hc.values_below hv _ _ hav
    · exact hc.values_below hv _ _ hw
  · intro _ i hi
    rw [hig] at hi
    rw [mapSynonyms_readDt]
    split
    · rename_i hex
      obtain ⟨ch, hch, rfl⟩ := hex
      have := (synonymConflicts_eq_false.1 (hcon ch hch)).2
      rw [hi] at this
      cases this
    · exact hc.ignored_unmapped hv i hi

theorem ignoreCharacters_wf {c d : Codec} {din : List Byte} (hc : c.Wf) (h : ignoreCharacters c din = .ok d) :
    d.Wf := by
  obtain ⟨hv, -, hm, rfl⟩ := ignoreCharacters_eq_ok.1 h
  have halpha : ∀ w, (setIgnored c din).readAlpha w = c.readAlpha w := fun w => by simp [Codec.readAlpha]
  have hdt : ∀ i, (setIgnored c din).readDt i = c.readDt i := fun i => by simp [Codec.readDt]
  have hsize : (setIgnored c din).size = c.size := by simp [Codec.size]
  constructor
  · simp [hv]
  · intro _; simpa using hc.bps_pos hv
  · intro _; simpa only [halpha, hsize] using hc.alpha_distinct hv
  · intro _ w hw
    rw [hsize] at hw
    rw [halpha, hdt]
    exact hc.canonical_mapped hv w hw
  · intro _ i w hw
    rw [hdt] at hw
    rw [hsize]
    exact hc.values_below hv _ _ hw
  · intro _ i hi
    rw [setIgnored_readIg] at hi
    rw [hdt]
    split at hi
    · rename_i hex
      obtain ⟨ch, hch, rfl⟩ := hex
      exact hm ch hch
    · exact hc.ignored_unmapped hv i hi

/-- A failing command of a sequence changes nothing, so a sequence keeps what each command keeps. -/
theorem afterCommand_wf {c : Codec} {answer : Except Raised Codec} (hc : c.Wf)
    (h : ∀ d, answer = .ok d → d.Wf) : (afterCommand c answer).Wf := by
  cases answer with
  | ok d => exact h d rfl
  | error r => exact hc

theorem afterSpecs_wf {c : Codec} (specs : List (List Byte)) (hc : c.Wf) : (afterSpecs c specs).Wf := by
  induction specs generalizing c with
  | nil => exact hc
  | cons spec rest ih => exact ih (afterCommand_wf hc fun _ h => addSynonyms_wf hc h)

end Sys2Proof.Machine
end

