-- ==== Sys2Proof/Laws/PerInstr.lean ====
section
/-! SUPPORT. The fields of every command's own word, one lemma per constructor of Instr. -/

namespace Sys2Proof.Laws.WordFields

/-- The word of a well-formed command has the command's OP number in its OP field and the command's operand length in
its LEN field (30_encoding.md R71, R72, R73). -/
def Statement (i : Sys2Proof.Instr) : Prop :=
  i.wf = true →
    Sys2Proof.opField (Sys2Proof.encodeInstr i) = i.op ∧ Sys2Proof.lenField (Sys2Proof.encodeInstr i) = i.len

theorem create (len : Nat) : Statement (.create len) := fun h =>
  ⟨opField_commandWord _ _, lenField_commandWord _ (by simpa [Instr.wf, Instr.len] using h)⟩

theorem presetB32CI : Statement .presetB32CI := fun _ =>
  ⟨opField_commandWord _ _, lenField_commandWord _ (by decide)⟩

theorem addsyn (len : Nat) : Statement (.addsyn len) := fun h =>
  ⟨opField_commandWord _ _, lenField_commandWord _ (by simpa [Instr.wf, Instr.len] using h)⟩

theorem ignore (len : Nat) : Statement (.ignore len) := fun h =>
  ⟨opField_commandWord _ _, lenField_commandWord _ (by simpa [Instr.wf, Instr.len] using h)⟩

theorem encode (len : Nat) : Statement (.encode len) := fun h =>
  ⟨opField_commandWord _ _, lenField_commandWord _ (by simpa [Instr.wf, Instr.len] using h)⟩

theorem decode (len : Nat) : Statement (.decode len) := fun h =>
  ⟨opField_commandWord _ _, lenField_commandWord _ (by simpa [Instr.wf, Instr.len] using h)⟩

end Sys2Proof.Laws.WordFields
end

