-- ==== Sys2Proof/Laws/Preset.lean ====
section
/-! SUPPORT. PRESET.B32CI: what its sequence leaves in each table, for every legal value of its parameters, and that neither it nor any other command depends on the tables it replaces. -/

namespace Sys2Proof.Machine

/-! ### The sequence, command by command -/

theorem presetCreated_eq (c : Codec) : presetCreated c = createCommit c base32Alphabet := by
  rw [presetCreated, createAlphabet_eq_ok.2 ⟨by decide, by decide, by decide, rfl⟩]
  rfl

theorem afterSpecs_cons (c : Codec) (spec : List Byte) (rest : List (List Byte)) :
    afterSpecs c (spec :: rest) = afterSpecs (afterCommand c (addSynonyms c spec)) rest := rfl

theorem afterSpecs_append (c : Codec) (first second : List (List Byte)) :
    afterSpecs c (first ++ second) = afterSpecs (afterSpecs c first) second := by
  simp only [afterSpecs, List.foldl_append]

theorem afterSynonyms_frame (c : Codec) (spec : List Byte) :
    (afterCommand c (addSynonyms c spec)).valid = c.valid ∧ (afterCommand c (addSynonyms c spec)).bps = c.bps ∧
    (afterCommand c (addSynonyms c spec)).alpha = c.alpha ∧ (afterCommand c (addSynonyms c spec)).ig = c.ig := by
  cases h : addSynonyms c spec with
  | error r => exact ⟨rfl, rfl, rfl, rfl⟩
  | ok d =>
    obtain ⟨-, -, a, l, v, -, -, -, rfl⟩ := addSynonyms_eq_ok.1 h
    simp [afterCommand]

/-- ADDSYNs write DT and nothing else (R36). -/
theorem afterSpecs_frame (c : Codec) (specs : List (List Byte)) :
    (afterSpecs c specs).valid = c.valid ∧ (afterSpecs c specs).bps = c.bps ∧
    (afterSpecs c specs).alpha = c.alpha ∧ (afterSpecs c specs).ig = c.ig := by
  induction specs generalizing c with
  | nil => exact ⟨rfl, rfl, rfl, rfl⟩
  | cons spec rest ih =>
    obtain ⟨h1, h2, h3, h4⟩ := ih (afterCommand c (addSynonyms c spec))
    obtain ⟨g1, g2, g3, g4⟩ := afterSynonyms_frame c spec
    exact ⟨h1.trans g1, h2.trans g2, h3.trans g3, h4.trans g4⟩

/-- The tables that ADDSYN leaves depend on VALID, DT and IG only. -/
theorem afterSynonyms_dt_congr {c d : Codec} (hv : c.valid = d.valid) (hd : c.dt = d.dt) (hi : c.ig = d.ig)
    (spec : List Byte) : (afterCommand c (addSynonyms c spec)).dt = (afterCommand d (addSynonyms d spec)).dt := by
  have hr : ∀ i, c.readDt i = d.readDt i := fun i => by simp only [Codec.readDt, hd]
  have hg : ∀ i, c.readIg i = d.readIg i := fun i => by simp only [Codec.readIg, hi]
  have hs : ∀ v, synonymConflicts c v = synonymConflicts d v := fun v => by
    funext ch
    simp only [synonymConflicts, hr, hg]
  unfold addSynonyms
  rw [hv]
  simp only [hr, hs]
  split
  · exact hd
  · split
    · exact hd
    · split
      · exact hd
      · split
        · exact hd
        · split
          · exact hd
          · rename_i v _ _ _
            refine table_ext fun i => ?_
            have h1 := mapSynonyms_readDt v c
            have h2 := mapSynonyms_readDt v d
            simp only [Codec.readDt] at h1 h2 hr
            simp only [afterCommand, h1, h2, hr]

theorem afterSpecs_dt_congr {c d : Codec} (hv : c.valid = d.valid) (hd : c.dt = d.dt) (hi : c.ig = d.ig)
    (specs : List (List Byte)) : (afterSpecs c specs).dt = (afterSpecs d specs).dt := by
  induction specs generalizing c d with
  | nil => exact hd
  | cons spec rest ih =>
    rw [afterSpecs_cons, afterSpecs_cons]
    exact ih ((afterSynonyms_frame c spec).1.trans (hv.trans (afterSynonyms_frame d spec).1.symm))
      (afterSynonyms_dt_congr hv hd hi spec)
      ((afterSynonyms_frame c spec).2.2.2.trans (hi.trans (afterSynonyms_frame d spec).2.2.2.symm))

/-! ### PRESET.B32CI -/

theorem presetConfiguration_alpha (p : PresetParams) (c : Codec) :
    (presetConfiguration p c).alpha = (presetCreated c).alpha := by
  unfold presetConfiguration
  generalize presetCreated c = d
  generalize presetSequence p c = e
  rfl

theorem presetConfiguration_valid (p : PresetParams) (c : Codec) : (presetConfiguration p c).valid = true := by
  have h : (presetConfiguration p c).valid = (presetCreated c).valid := by
    unfold presetConfiguration
    generalize presetCreated c = d
    generalize presetSequence p c = e
    rfl
  rw [h, presetCreated_eq]
  exact createCommit_valid _ _

theorem presetConfiguration_bps (p : PresetParams) (c : Codec) : (presetConfiguration p c).bps = 5#3 := by
  have h : (presetConfiguration p c).bps = (presetCreated c).bps := by
    unfold presetConfiguration
    generalize presetCreated c = d
    generalize presetSequence p c = e
    rfl
  rw [h, presetCreated_eq, createCommit_bps]
  decide

theorem presetConfiguration_readAlpha (p : PresetParams) (c : Codec) (v : Symbol) :
    (presetConfiguration p c).readAlpha v = (createCommit c base32Alphabet).readAlpha v := by
  rw [← presetCreated_eq]
  unfold Codec.readAlpha
  simp only [presetConfiguration_alpha]

/-- No command of the sequence after the CREATE writes VALID, BPS or ALPHA (R36), so PRESET.B32CI leaves exactly what
its sequence leaves; and it establishes the invariants. -/
theorem presetConfiguration_wf (p : PresetParams) (c : Codec) :
    (presetConfiguration p c).Wf ∧ presetConfiguration p c = presetSequence p c := by
  have hw : (presetCreated c).Wf := by
    rw [presetCreated_eq]
    exact createCommit_wf (by decide) (by decide) (by decide)
  have hz := afterSpecs_wf p.confusables (afterSpecs_wf caseSpecs hw)
  obtain ⟨a1, a2, a3, -⟩ := afterSpecs_frame (presetCreated c) caseSpecs
  obtain ⟨b1, b2, b3, -⟩ := afterSpecs_frame (afterSpecs (presetCreated c) caseSpecs) p.confusables
  have key : (presetSequence p c).Wf ∧ (presetSequence p c).valid = (presetCreated c).valid ∧
      (presetSequence p c).bps = (presetCreated c).bps ∧ (presetSequence p c).alpha = (presetCreated c).alpha := by
    unfold presetSequence
    generalize afterSpecs (afterSpecs (presetCreated c) caseSpecs) p.confusables = z at *
    refine ⟨afterCommand_wf hz fun d hd => ignoreCharacters_wf hz hd, ?_⟩
    cases hh : ignoreCharacters z p.ignored with
    | error r =>
      dsimp only
      rw [hh]
      exact ⟨b1.trans a1, b2.trans a2, b3.trans a3⟩
    | ok d =>
      dsimp only
      rw [hh]
      obtain ⟨-, -, -, rfl⟩ := ignoreCharacters_eq_ok.1 hh
      simp only [afterCommand, setIgnored_valid, setIgnored_bps, setIgnored_alpha]
      exact ⟨b1.trans a1, b2.trans a2, b3.trans a3⟩
  obtain ⟨h1, h2, h3, h4⟩ := key
  have e : presetConfiguration p c = presetSequence p c := by
    unfold presetConfiguration
    generalize presetSequence p c = z at *
    generalize presetCreated c = y at *
    cases z
    cases y
    simp only at h2 h3 h4
    subst h2 h3 h4
    rfl
  exact ⟨e ▸ h1, e⟩

/-- Every command that completes with OK leaves a configuration that keeps the invariants. -/
theorem commandBody_wf {i : Instr} {c d : Codec} {din out : List Byte} (hw : c.Wf)
    (h : commandBody i c din = .ok (d, out)) : d.Wf := by
  cases i with
  | create n => exact createAlphabet_wf (configured_eq_ok.1 h).1
  | presetB32CI =>
    have h' : (presetConfiguration presetParams c, ([] : List Byte)) = (d, out) := Except.ok.inj h
    obtain ⟨rfl, -⟩ := Prod.mk.inj h'
    exact (presetConfiguration_wf _ _).1
  | addsyn n => exact addSynonyms_wf hw (configured_eq_ok.1 h).1
  | ignore n => exact ignoreCharacters_wf hw (configured_eq_ok.1 h).1
  | encode n => obtain ⟨rfl, -⟩ := produced_eq_ok.1 h; exact hw
  | decode n => obtain ⟨rfl, -⟩ := produced_eq_ok.1 h; exact hw

/-- No command that completes with OK clears VALID (R22). -/
theorem commandBody_valid {i : Instr} {c d : Codec} {din out : List Byte} (hv : c.valid = true)
    (h : commandBody i c din = .ok (d, out)) : d.valid = true := by
  cases i with
  | create n =>
    obtain ⟨-, -, -, rfl⟩ := createAlphabet_eq_ok.1 (configured_eq_ok.1 h).1
    exact createCommit_valid _ _
  | presetB32CI =>
    have h' : (presetConfiguration presetParams c, ([] : List Byte)) = (d, out) := Except.ok.inj h
    obtain ⟨rfl, -⟩ := Prod.mk.inj h'
    exact presetConfiguration_valid _ _
  | addsyn n =>
    obtain ⟨-, -, a, l, v, -, -, -, rfl⟩ := addSynonyms_eq_ok.1 (configured_eq_ok.1 h).1
    simpa using hv
  | ignore n =>
    obtain ⟨-, -, -, rfl⟩ := ignoreCharacters_eq_ok.1 (configured_eq_ok.1 h).1
    simpa using hv
  | encode n => obtain ⟨rfl, -⟩ := produced_eq_ok.1 h; exact hv
  | decode n => obtain ⟨rfl, -⟩ := produced_eq_ok.1 h; exact hv

/-- DT and IG after PRESET.B32CI do not depend on the configuration it replaces (R96). -/
theorem presetConfiguration_congr (p : PresetParams) (c d : Codec) :
    (presetConfiguration p c).dt = (presetConfiguration p d).dt ∧
    (presetConfiguration p c).ig = (presetConfiguration p d).ig := by
  rw [(presetConfiguration_wf p c).2, (presetConfiguration_wf p d).2]
  have hv : (presetCreated c).valid = (presetCreated d).valid := by
    rw [presetCreated_eq, presetCreated_eq, createCommit_valid, createCommit_valid]
  have hd : (presetCreated c).dt = (presetCreated d).dt := by
    rw [presetCreated_eq, presetCreated_eq]
    exact createCommit_dt_congr _ _ _
  have hi : (presetCreated c).ig = (presetCreated d).ig := by
    rw [presetCreated_eq, presetCreated_eq]
    refine table_ext fun i => ?_
    have h1 := createCommit_readIg c base32Alphabet i
    have h2 := createCommit_readIg d base32Alphabet i
    rw [Codec.readIg] at h1 h2
    rw [h1, h2]
  have hdz := afterSpecs_dt_congr hv hd hi (caseSpecs ++ p.confusables)
  obtain ⟨c1, -, -, c4⟩ := afterSpecs_frame (presetCreated c) (caseSpecs ++ p.confusables)
  obtain ⟨d1, -, -, d4⟩ := afterSpecs_frame (presetCreated d) (caseSpecs ++ p.confusables)
  rw [afterSpecs_append] at hdz c1 c4
  rw [afterSpecs_append] at hdz d1 d4
  unfold presetSequence
  generalize afterSpecs (afterSpecs (presetCreated c) caseSpecs) p.confusables = e at *
  generalize afterSpecs (afterSpecs (presetCreated d) caseSpecs) p.confusables = f at *
  have hve : e.valid = f.valid := c1.trans (hv.trans d1.symm)
  have hie : e.ig = f.ig := c4.trans (hi.trans d4.symm)
  have hm : isMapped e = isMapped f := by
    funext ch
    simp only [isMapped, Codec.readDt, hdz]
  unfold ignoreCharacters
  dsimp only
  rw [hve, hm]
  split
  · exact ⟨hdz, hie⟩
  · split
    · exact ⟨hdz, hie⟩
    · split
      · exact ⟨hdz, hie⟩
      · refine ⟨by simpa [afterCommand] using hdz, table_ext fun i => ?_⟩
        have h1 := setIgnored_readIg e p.ignored i
        have h2 := setIgnored_readIg f p.ignored i
        rw [Codec.readIg] at h1 h2
        simp only [afterCommand]
        rw [h1, h2]
        simp only [Codec.readIg, hie]

/-! ### Legal values of the parameters -/

set_option maxRecDepth 100000 in
theorem referencePreset_legal : presetLegal referencePreset = true := by decide

theorem presetParams_legal : presetLegal presetParams = true := by
  unfold presetParams
  split
  · assumption
  · exact referencePreset_legal

set_option maxRecDepth 100000 in
/-- DT after the CREATE and the 26 case specs (R97, R99). -/
theorem caseConfiguration_readDt : ∀ i : Code7, caseConfiguration.readDt i =
    if 0x41 ≤ i.toNat ∧ i.toNat ≤ 0x5A then .mapped (BitVec.ofNat 7 (i.toNat - 0x41))
    else if 0x61 ≤ i.toNat ∧ i.toNat ≤ 0x7A then .mapped (BitVec.ofNat 7 (i.toNat - 0x61))
    else if 0x32 ≤ i.toNat ∧ i.toNat ≤ 0x37 then .mapped (BitVec.ofNat 7 (i.toNat - 0x32 + 26))
    else .unmapped := by decide

set_option maxRecDepth 100000 in
theorem caseConfiguration_readIg : ∀ i : Code7, caseConfiguration.readIg i = false := by decide

set_option maxRecDepth 100000 in
theorem caseSpecs_accepted :
    specsAccepted (presetCreated ⟨false, 0#3, Vector.replicate 128 0#7, emptyDt, emptyIg⟩) caseSpecs = true := by decide

theorem specsAccepted_append (c : Codec) (first second : List (List Byte)) :
    specsAccepted c (first ++ second) = (specsAccepted c first && specsAccepted (afterSpecs c first) second) := by
  induction first generalizing c with
  | nil => simp [specsAccepted, afterSpecs]
  | cons spec rest ih =>
    rw [List.cons_append, specsAccepted, specsAccepted, afterSpecs_cons]
    cases addSynonyms c spec with
    | ok d => exact ih d
    | error r => rfl

/-- What a sequence of accepted ADDSYNs does: it keeps every mapping, maps each spec to one value, and maps nothing
else. -/
theorem specsAccepted_spec {c : Codec} {specs : List (List Byte)} (h : specsAccepted c specs = true) :
    (∀ i w, c.readDt i = .mapped w → (afterSpecs c specs).readDt i = .mapped w) ∧
    (∀ spec ∈ specs, (∀ ch ∈ spec, ch.toNat < 128) ∧ ∃ anchor rest v, spec = anchor :: rest ∧
      ∀ ch ∈ spec, (afterSpecs c specs).readDt (tableIndex ch) = .mapped v) ∧
    (∀ i, (afterSpecs c specs).readDt i ≠ .unmapped →
      c.readDt i ≠ .unmapped ∨ ∃ spec ∈ specs, ∃ ch ∈ spec, tableIndex ch = i) := by
  induction specs generalizing c with
  | nil => exact ⟨fun i w h => h, by simp, fun i h => .inl h⟩
  | cons spec rest ih =>
    rw [specsAccepted] at h
    cases hb : addSynonyms c spec with
    | error r => rw [hb] at h; cases h
    | ok d =>
      rw [hb] at h
      simp only at h
      rw [afterSpecs_cons, hb, show afterCommand c (.ok d) = d from rfl]
      obtain ⟨i1, i2, i3⟩ := ih h
      have hk := fun i w => addSynonyms_keeps_mapped hb (i := i) (w := w)
      obtain ⟨-, hasc, anchor, synonyms, v, he, ham, -, hd⟩ := addSynonyms_eq_ok.1 hb
      refine ⟨fun i w h => i1 i w (hk i w h), fun sp hsp => ?_, fun i hi => ?_⟩
      · rcases List.mem_cons.1 hsp with rfl | hsp
        · refine ⟨hasc, anchor, synonyms, v, he, fun ch hch => i1 _ _ ?_⟩
          rw [he] at hch
          rcases List.mem_cons.1 hch with rfl | hch
          · exact hk _ _ ham
          · rw [hd, mapSynonyms_readDt, if_pos ⟨ch, hch, rfl⟩]
        · exact i2 sp hsp
      · rcases i3 i hi with h | ⟨sp, hs, ch, hc, h⟩
        · rw [hd, mapSynonyms_readDt] at h
          split at h
          · rename_i hex
            obtain ⟨ch, h1, h2⟩ := hex
            exact .inr ⟨spec, by simp, ch, by rw [he]; simp [h1], h2⟩
          · exact .inl h
        · exact .inr ⟨sp, by simp [hs], ch, hc, h⟩

/-- A legal value of the parameters: its specs are accepted, and its ignored characters are ASCII and unmapped (R98). -/
theorem presetLegal_spec {p : PresetParams} (h : presetLegal p = true) :
    specsAccepted caseConfiguration p.confusables = true ∧
    ignoreCharacters (afterSpecs caseConfiguration p.confusables) p.ignored =
      .ok (setIgnored (afterSpecs caseConfiguration p.confusables) p.ignored) ∧
    (∀ ch ∈ p.ignored, ch.toNat < 128) ∧
    (∀ ch ∈ p.ignored, (afterSpecs caseConfiguration p.confusables).readDt (tableIndex ch) = .unmapped) := by
  rw [presetLegal, Bool.and_eq_true] at h
  obtain ⟨h1, h2⟩ := h
  refine ⟨h1, ?_⟩
  cases hb : ignoreCharacters (afterSpecs caseConfiguration p.confusables) p.ignored with
  | error r => rw [hb] at h2; cases h2
  | ok d =>
    obtain ⟨-, h3, h4, rfl⟩ := ignoreCharacters_eq_ok.1 hb
    exact ⟨rfl, h3, h4⟩

/-- DT and IG after PRESET.B32CI, whatever it replaces, entry by entry. -/
theorem presetConfiguration_tables {p : PresetParams} (h : presetLegal p = true) (c : Codec) :
    (∀ i, (presetConfiguration p c).readDt i = (afterSpecs caseConfiguration p.confusables).readDt i) ∧
    (∀ i, (presetConfiguration p c).readIg i = true ↔ ∃ ch ∈ p.ignored, tableIndex ch = i) := by
  obtain ⟨h1, h2, -, -⟩ := presetLegal_spec h
  obtain ⟨e2, e3⟩ := presetConfiguration_congr p c ⟨false, 0#3, Vector.replicate 128 0#7, emptyDt, emptyIg⟩
  have hs : presetSequence p ⟨false, 0#3, Vector.replicate 128 0#7, emptyDt, emptyIg⟩ =
      setIgnored (afterSpecs caseConfiguration p.confusables) p.ignored := by
    unfold presetSequence
    rw [show afterSpecs (presetCreated ⟨false, 0#3, Vector.replicate 128 0#7, emptyDt, emptyIg⟩) caseSpecs =
      caseConfiguration from rfl]
    generalize caseConfiguration = z at *
    dsimp only
    rw [h2]
    rfl
  rw [(presetConfiguration_wf p ⟨false, 0#3, Vector.replicate 128 0#7, emptyDt, emptyIg⟩).2, hs] at e2 e3
  generalize presetConfiguration p c = x at *
  have hig := (afterSpecs_frame caseConfiguration p.confusables).2.2.2
  have hc := caseConfiguration_readIg
  simp only [Codec.readIg] at hc
  constructor
  · intro i
    simp only [Codec.readDt, e2, setIgnored_dt]
  · intro i
    have h5 := setIgnored_readIg (afterSpecs caseConfiguration p.confusables) p.ignored i
    simp only [Codec.readIg, hig, hc] at h5
    simp only [Codec.readIg, e3]
    rw [h5]
    simp

end Sys2Proof.Machine
end

