-- ==== Sys2Proof/Tests/Slice0.lean ====
section
/-! SUPPORT. The model's own tests. Expected values are written out from the spec: words from 30_encoding.md R71, R73 and R82, results from the vectors V<n> of 95_test_vectors.md. Each witness_<Name> shows that the hypotheses of Obligations.<Name> are met together. -/

namespace Sys2Proof.Tests

open Sys2Proof Sys2Proof.Machine Sys2Proof.Claims

set_option maxRecDepth 50000

/-! ### Helpers -/

/-- A state after reset whose tables hold one of the contents they may hold (R34). -/
def fresh : State :=
  State.resetWith (Vector.replicate 128 0#7) (Vector.replicate 128 (.mapped 5#7)) (Vector.replicate 128 true)

/-- The state that an outcome answers. -/
def after (o : Host.Outcome State Fault Refusal) : State :=
  match o with
  | .next t => t
  | .fault f => nomatch f
  | .refused _ => fresh

/-- The state after the host has issued one packet and the unit has made one step. -/
def run (w : CmdWord) (es : List Byte) (s : State) : State := after (step (putPacket ⟨w, es⟩ s))

/-- STATUS, ERRPOS, RESLEN and DOUT. -/
def results (t : State) : BitVec 32 × BitVec 32 × BitVec 32 × List Byte := (t.status, t.errpos, t.reslen, t.dout)

/-- `CREATE` of base32, `ABCDEFGHIJKLMNOPQRSTUVWXYZ234567` (R82), from reset. -/
def base32 : State :=
  run 0x10000020 [0x41, 0x42, 0x43, 0x44, 0x45, 0x46, 0x47, 0x48, 0x49, 0x4A, 0x4B, 0x4C, 0x4D, 0x4E, 0x4F, 0x50, 0x51,
    0x52, 0x53, 0x54, 0x55, 0x56, 0x57, 0x58, 0x59, 0x5A, 0x32, 0x33, 0x34, 0x35, 0x36, 0x37] fresh

/-- `IGNORE "-"` on base32. -/
def dashed : State := run 0x40000001 [0x2D] base32

/-- The identity alphabet of 128 characters (95_test_vectors.md section 0). -/
def identity128 : State := run 0x10000080 ((List.range 128).map (BitVec.ofNat 8)) fresh

/-- A state with `es` on DIN. -/
def with_ (s : State) (es : List Byte) : State := { s with din := es }

theorem lowestBad {bad : Byte → Prop} {din : List Byte} {i : Nat} {ch : Byte} (h1 : din[i]? = some ch) (h2 : bad ch)
    (h3 : ∀ d ∈ din.take i, ¬ bad d) : LowestBad bad din i ch :=
  ⟨h1, h2, fun _ d hk hd => h3 d (List.mem_of_getElem? (List.getElem?_take_of_lt hk ▸ hd))⟩

/-! ### WellFormed: each check refuses an ill-formed term -/

theorem test_wf_create : (Instr.create 268435456).wf = false := by decide
theorem test_wf_addsyn : (Instr.addsyn 268435456).wf = false := by decide
theorem test_wf_ignore : (Instr.ignore 268435456).wf = false := by decide
theorem test_wf_encode : (Instr.encode 268435456).wf = false := by decide
theorem test_wf_decode : (Instr.decode 268435456).wf = false := by decide
theorem test_wf_longest : (Instr.decode 268435455).wf = true := by decide

/-! ### Decode: words written out from R71 and R73 -/

theorem test_decode_create : decodeWord 0b00010000000000000000000000100000 = .command (.create 32) := by decide
theorem test_decode_preset : decodeWord 0b00100000000000000000000000000000 = .command .presetB32CI := by decide
theorem test_decode_addsyn : decodeWord 0b00110000000000000000000000000011 = .command (.addsyn 3) := by decide
theorem test_decode_ignore : decodeWord 0b01000000000000000000000000000001 = .command (.ignore 1) := by decide
theorem test_decode_encode : decodeWord 0b01010000000000000000000000000001 = .command (.encode 1) := by decide
theorem test_decode_decode : decodeWord 0b01100000000000000000000000000010 = .command (.decode 2) := by decide
theorem test_decode_longest : decodeWord 0x6FFFFFFF = .command (.decode 268435455) := by decide
theorem test_decode_zero_word : decodeWord 0x00000000 = .reserved .unassignedOp 0 := by decide
theorem test_decode_op_7 : decodeWord 0x70000002 = .reserved .unassignedOp 2 := by decide
theorem test_decode_op_15 : decodeWord 0xFFFFFFFF = .reserved .unassignedOp 268435455 := by decide
theorem test_decode_preset_with_operand : decodeWord 0x20000001 = .reserved .presetWithOperand 1 := by decide
theorem test_encode_words :
    [Instr.create 32, .presetB32CI, .addsyn 3, .ignore 1, .encode 1, .decode 2].map encodeInstr =
      [0x10000020, 0x20000000, 0x30000003, 0x40000001, 0x50000001, 0x60000002] := by decide
theorem test_decodeTableWord :
    [(32, 0x10000000), (32, 0x20000000), (32, 0x30000000), (32, 0x40000000), (32, 0x50000000), (32, 0x60000000),
      (32, 0x70000000)].map (fun p => decodeTableWord p.1 p.2) =
      [some (.create 0), some .presetB32CI, some (.addsyn 0), some (.ignore 0), some (.encode 0), some (.decode 0),
        none] := by decide

/-- The very next step runs the word: `DECODE` of two elements on a unit just reset (as V146). -/
theorem test_withFetchWord :
    let t := after (step (State.reset.withFetchWord 32 0x60000002))
    (results t, t.cmd, t.din) = ((0x00000007, 0, 0, []), [], []) := by decide

/-! ### One step each, from the vectors -/

theorem test_create_V11 : results base32 = (0x000000B0, 0, 0, []) := by decide
theorem test_create_V19 : results (run 0x10000004 [0x41, 0x42, 0x42, 0x41] fresh) = (0x00004203, 2, 0, []) := by decide
theorem test_create_V13 : results identity128 = (0x000000F0, 0, 0, []) := by decide

/-- V38, on the configuration of the reference value: `DECODE "0I"` gives 72. -/
theorem test_preset_V38 :
    results (run 0x60000002 [0x30, 0x49] (after (execPresetWith referencePreset fresh))) =
      (0x000000B0, 0, 1, [0x72]) := by
  decide

theorem test_addsyn_V60 : results (run 0x30000003 [0x41, 0x30, 0x4F] base32) = (0x00004FB5, 2, 0, []) := by decide
theorem test_addsyn_V61_unmapped : results (run 0x30000002 [0x30, 0x4F] base32) = (0x000030B4, 0, 0, []) := by decide
theorem test_ignore_V214 : results dashed = (0x000000B0, 0, 0, []) := by decide

/-- `A` of base32 is mapped, so it cannot be ignored (R108), although the `-` before it could. -/
theorem test_ignore_mapped : results (run 0x40000002 [0x2D, 0x41] base32) = (0x000041B5, 1, 0, []) := by decide

theorem test_encode_V113 :
    results (run 0x50000002 [0x66, 0x6F] base32) = (0x000000B0, 0, 4, [0x4D, 0x5A, 0x58, 0x51]) := by decide
theorem test_encode_V142 :
    results (run 0x50000007 [0x12, 0x34, 0x56, 0x78, 0x9A, 0xBC, 0xDE] identity128) =
      (0x000000F0, 0, 8, [0x09, 0x0D, 0x0A, 0x67, 0x44, 0x6A, 0x79, 0x5E]) := by decide
theorem test_decode_V153 :
    results (run 0x60000004 [0x4D, 0x5A, 0x58, 0x51] base32) = (0x000000B0, 0, 2, [0x66, 0x6F]) := by decide
theorem test_decode_V158 :
    results (run 0x60000008 [0x4D, 0x59, 0x3D, 0x3D, 0x3D, 0x3D, 0x3D, 0x3D] base32) = (0x00003DB6, 2, 0, []) := by
  decide
theorem test_reserved_V210 :
    let t := run 0x70000002 [0x41, 0x42] base32
    (results t, t.din, t.codec == base32.codec) = ((0x000000B8, 0, 0, []), [], true) := by decide

/-- The trace of R125: BPS = 5 on 66 6F gives 12, 25, 23, 16. -/
theorem test_accumulator_trace : accSymbols 5 accumulatorStart [0x66, 0x6F] = [12, 25, 23, 16] := by decide

/-- The trace of R145: 12, 25, 23, 16 give 66 6F. -/
theorem test_accumulator_back : accBytes 5 accumulatorStart [12, 25, 23, 16] = [0x66, 0x6F] := by decide

/-- The layouts of R24 and R27. -/
theorem test_layouts :
    dtEntryBits .unmapped = 0x00 ∧ dtEntryBits (.mapped 14#7) = 0x8E ∧
      statusWord .invalidCharacter true 5#3 0x3D = 0x00003DB6 := by decide

/-! ### The states of the witnesses are reachable and keep the invariants -/

theorem base32_codec_wf : base32.codec.Wf :=
  createAlphabet_wf (c := fresh.codec) (din := base32Alphabet) (by rfl)

theorem fresh_wf : fresh.Wf where
  codec := ⟨fun _ => rfl, nofun, nofun, nofun, nofun, nofun⟩
  status_valid := by decide
  status_bps := by decide
  status_code := by decide
  status_reserved := by decide
  errpos_bound := by decide
  reslen_bound := by decide

theorem base32_reachable : Reachable base32 :=
  .step (s := putPacket ⟨0x10000020, base32Alphabet⟩ fresh)
    (.host (.putElements base32Alphabet) (.host (.putWord 0x10000020) (.reset _ _ _))) (by rfl)

/-! ### Witnesses -/

theorem witness_DecodeAndEncodeAgree :
    (Instr.create 268435455).wf = true ∧ decodeWord 0x1FFFFFFF = .command (.create 268435455) := by decide

theorem witness_DecoderFollowsTheOpcodeMap : decodeWord 0x20000000 = .command .presetB32CI := by decide

theorem witness_WorkedEncodings :
    let s := putPacket ⟨0x70000002, [0, 0]⟩ fresh
    let u := putPacket ⟨0x20000001, [0x41]⟩ fresh
    s.cmd = [0x70000002#32] ∧ s.din = [0x00, 0x00] ∧ u.cmd = [0x20000001#32] ∧ u.din = [0x41] := by decide

/-- One word at each end of each reserved range, and the words just outside. -/
theorem witness_ReservedWordsCompleteWithIllegalCommand :
    (∀ w ∈ [0x00000000#32, 0x0FFFFFFF#32, 0x70000000#32, 0xF0000001#32, 0x20000001#32], ∀ r ∈ opcodeMap,
      w &&& r.mask ≠ r.pattern) ∧
    (∀ w ∈ [0x10000000#32, 0x20000000#32, 0x6FFFFFFF#32], ∃ r ∈ opcodeMap, w &&& r.mask = r.pattern) := by
  simp [opcodeMap]

theorem witness_ReservedWordsCompleteWithIllegalCommand_supplied :
    let s := putPacket ⟨0xF0000001, [0x41]⟩ fresh
    s.cmd = [0xF0000001#32] ∧ lenField 0xF0000001 ≤ s.din.length := by decide

theorem witness_StepRunsTheDecodedCommand :
    let s := putPacket ⟨0x60000002, [0x4D, 0x59]⟩ base32
    s.cmd = [0x60000002#32] ∧ decodeWord 0x60000002 = .command (.decode 2) ∧ (Instr.decode 2).len ≤ s.din.length := by
  decide

theorem witness_IdleUnitKeepsItsState : base32.cmd = [] := by decide

theorem witness_UndersuppliedCommandWaits :
    let s := putPacket ⟨0x60000002, [0x4D]⟩ base32
    s.cmd = [0x60000002#32] ∧ s.din.length < lenField 0x60000002 ∧
      lenField 0x60000002 ≤ s.din.length + ([0x59] : List Byte).length := by decide

theorem witness_PacketsAreConsumedInOrder :
    let s := putPacket ⟨0x60000002, [0x4D, 0x59]⟩ (putPacket ⟨0x50000001, [0x66]⟩ fresh)
    2 ≤ s.cmd.length ∧ (s.cmd.map lenField).sum ≤ s.din.length := by decide

/-- The shortest alphabet and the longest. -/
theorem witness_CreateCommitsTheAlphabet :
    let s := with_ fresh [0x30, 0x31]
    let u := with_ fresh ((List.range 128).map (BitVec.ofNat 8))
    Supplied 2 s ∧ 2 ∈ Lengths ∧ AllAscii (s.din.take 2) ∧ (s.din.take 2).Nodup ∧
      Supplied 128 u ∧ 128 ∈ Lengths ∧ AllAscii (u.din.take 128) ∧ (u.din.take 128).Nodup := by
  unfold Supplied AllAscii Lengths
  decide

theorem witness_CreateRejectsOtherLengths :
    let s := with_ fresh (List.replicate 256 0x41)
    ∀ n ∈ [0, 1, 3, 127, 129, 256], Supplied n s ∧ n ∉ Lengths := by
  unfold Supplied Lengths
  decide

theorem witness_CreateRejectsNonAscii :
    let s := with_ fresh [0x41, 0x41, 0x80, 0x42]
    Supplied 4 s ∧ 4 ∈ Lengths ∧ LowestBad (fun d => 128 ≤ d.toNat) (s.din.take 4) 2 0x80 ∧
      Supplied 2 s ∧ 2 ∈ Lengths ∧ AllAscii (s.din.take 2) :=
  ⟨by unfold Supplied; decide, by decide, lowestBad (by decide) (by decide) (by decide), by unfold Supplied; decide,
    by decide, by unfold AllAscii; decide⟩

theorem witness_CreateRejectsDuplicates :
    let s := with_ fresh [0x41, 0x42, 0x42, 0x41]
    Supplied 4 s ∧ 4 ∈ Lengths ∧ AllAscii (s.din.take 4) ∧ LowestRepeat (s.din.take 4) 2 0x42 ∧
      (s.din.take 2).Nodup := by
  unfold Supplied AllAscii Lengths LowestRepeat
  decide

theorem witness_CreateReplacesTheConfiguration :
    let s := with_ base32 [0x30, 0x31]
    let u := with_ fresh [0x30, 0x31]
    Supplied 2 s ∧ Supplied 2 u ∧ s.din.take 2 = u.din.take 2 ∧
      statusCodeField (after (exec (.create 2) s)).status = 0 ∧
      statusCodeField (after (exec (.create 1) s)).status ≠ 0 := by
  unfold Supplied
  decide

theorem witness_PresetWritesItsTables :
    presetLegal referencePreset = true ∧ presetLegal ⟨[], []⟩ = true ∧ presetLegal ⟨[[0x4F, 0x30]], [0x2D]⟩ = true := by
  decide

theorem witness_PresetEqualsItsSequence :
    presetLegal referencePreset = true ∧ Quiet fresh ∧ (∀ spec ∈ referencePreset.confusables, spec.length ≤ maxLen) ∧
      referencePreset.ignored.length ≤ maxLen :=
  ⟨referencePreset_legal, by unfold Quiet; decide, by decide, by decide⟩

/-- The anchor of the second spec is a synonym of the first. -/
theorem witness_LegalPresetValues :
    let p : PresetParams := ⟨[[0x4F, 0x30], [0x30, 0x21]], [0x2D]⟩
    Quiet fresh ∧ (∀ spec ∈ p.confusables, spec.length ≤ maxLen) ∧ p.ignored.length ≤ maxLen ∧
      presetLegal p = true ∧ p.confusables = [[0x4F, 0x30]] ++ (0x30 :: [0x21]) :: [] :=
  ⟨by unfold Quiet; decide, by decide, by decide, by decide, rfl⟩

theorem witness_AddsynMapsTheSynonyms :
    let s := with_ base32 [0x41, 0x61, 0x30]
    s.codec.valid = true ∧ Supplied 3 s ∧ s.din.take 3 = 0x41 :: [0x61, 0x30] ∧ AllAscii [0x41, 0x61, 0x30] ∧
      s.codec.readDt (BitVec.setWidth 7 (0x41 : Byte)) = .mapped 0 ∧
      ∀ ch ∈ ([0x61, 0x30] : List Byte), ¬ Conflicting s.codec 0 ch := by
  unfold Supplied AllAscii Conflicting
  decide

theorem witness_AddsynRejectsNonAscii :
    let s := with_ base32 [0x3F, 0x80]
    s.codec.valid = true ∧ Supplied 2 s ∧ LowestBad (fun d => 128 ≤ d.toNat) (s.din.take 2) 1 0x80 ∧
      Supplied 1 s ∧ AllAscii (s.din.take 1) :=
  ⟨by decide, by unfold Supplied; decide, lowestBad (by decide) (by decide) (by decide), by unfold Supplied; decide,
    by unfold AllAscii; decide⟩

/-- An empty spec, an unmapped anchor, an ignored one, and a mapped one. -/
theorem witness_AddsynRejectsAnUnmappedAnchor :
    dashed.codec.valid = true ∧ Supplied 0 dashed ∧ AllAscii (dashed.din.take 0) ∧
    (let s := with_ dashed [0x2D, 0x61];
      Supplied 2 s ∧ AllAscii (s.din.take 2) ∧ s.din.take 2 = 0x2D :: [0x61] ∧
        s.codec.readDt (BitVec.setWidth 7 (0x2D : Byte)) = .unmapped ∧
        s.codec.readIg (BitVec.setWidth 7 (0x2D : Byte)) = true) ∧
    (let s := with_ dashed [0x41, 0x61];
      Supplied 2 s ∧ AllAscii (s.din.take 2) ∧ s.din.take 2 = 0x41 :: [0x61] ∧
        s.codec.readDt (BitVec.setWidth 7 (0x41 : Byte)) = .mapped 0 ∧
        statusCodeField (after (exec (.addsyn 2) s)).status = 0) := by
  unfold Supplied AllAscii
  decide

theorem witness_AddsynRejectsAnUnmappedAnchor_wf : dashed.codec.Wf :=
  ignoreCharacters_wf (din := [0x2D]) base32_codec_wf (by rfl)

/-- A later element mapped to another value (it is canonical), and one without a conflict. -/
theorem witness_AddsynRejectsConflicts :
    let s := with_ base32 [0x41, 0x30, 0x4F]
    s.codec.valid = true ∧ Supplied 3 s ∧ s.din.take 3 = 0x41 :: [0x30, 0x4F] ∧ AllAscii [0x41, 0x30, 0x4F] ∧
      s.codec.readDt (BitVec.setWidth 7 (0x41 : Byte)) = .mapped 0 ∧
      LowestBad (Conflicting s.codec 0) [0x30, 0x4F] 1 0x4F ∧ ¬ Conflicting s.codec 0 0x30 ∧
      s.codec.Wf ∧ (14 : Symbol).toNat < s.codec.size ∧ (14 : Symbol) ≠ 0 ∧
      (s.codec.readAlpha 14).setWidth 8 ∈ ([0x30, 0x4F] : List Byte) :=
  ⟨by decide, by unfold Supplied; decide, by decide, by unfold AllAscii; decide, by decide,
    lowestBad (by decide) (.inl ⟨14, by decide, by decide⟩) (by unfold Conflicting; decide),
    by unfold Conflicting; decide, base32_codec_wf, by decide, by decide, by decide⟩

theorem witness_IgnoreSetsItsCharacters :
    let s := with_ base32 [0x2D, 0x2D, 0x20]
    s.codec.valid = true ∧ Supplied 3 s ∧ AllAscii (s.din.take 3) ∧
      ∀ ch ∈ s.din.take 3, s.codec.readDt (ch.setWidth 7) = .unmapped := by
  unfold Supplied AllAscii
  decide

theorem witness_IgnoreRejectsNonAscii :
    let s := with_ base32 [0x2D, 0xFF]
    s.codec.valid = true ∧ Supplied 2 s ∧ LowestBad (fun d => 128 ≤ d.toNat) (s.din.take 2) 1 0xFF ∧
      Supplied 1 s ∧ AllAscii (s.din.take 1) :=
  ⟨by decide, by unfold Supplied; decide, lowestBad (by decide) (by decide) (by decide), by unfold Supplied; decide,
    by unfold AllAscii; decide⟩

theorem witness_IgnoreRejectsMappedCharacters :
    let s := with_ base32 [0x2D, 0x41]
    s.codec.valid = true ∧ Supplied 2 s ∧ AllAscii (s.din.take 2) ∧
      LowestBad (fun d => s.codec.readDt (d.setWidth 7) ≠ .unmapped) (s.din.take 2) 1 0x41 ∧
      (∀ ch ∈ s.din.take 1, s.codec.readDt (ch.setWidth 7) = .unmapped) ∧
      ∀ i, s.codec.readIg i = true → s.codec.readDt i = .unmapped :=
  ⟨by decide, by unfold Supplied; decide, by unfold AllAscii; decide, lowestBad (by decide) (by decide) (by decide),
    by decide, base32_codec_wf.ignored_unmapped (by decide)⟩

theorem witness_UnconfiguredUnitRaisesNotCreated :
    let s := with_ fresh [0x66]
    s.codec.valid = false ∧ Supplied 1 s := by
  unfold Supplied
  decide

theorem witness_EncodeFollowsTheBitStream :
    let s := with_ base32 [0x66]
    s.codec.valid = true ∧ 1 ≤ s.codec.bps.toNat ∧ Supplied 1 s := by
  unfold Supplied
  decide

/-- BPS = 5 and BPS = 7, and the empty buffer. -/
theorem witness_EncodeOutputLength :
    let s := with_ base32 [0x66]
    let u := with_ identity128 [0x66]
    s.codec.valid = true ∧ 1 ≤ s.codec.bps.toNat ∧ Supplied 1 s ∧ Supplied 0 s ∧ 1 ≤ maxLen ∧
      u.codec.valid = true ∧ 1 ≤ u.codec.bps.toNat ∧ Supplied 1 u := by
  unfold Supplied
  decide

theorem witness_PaddingIsInsideTheLastSymbol : 1 ≤ 7 ∧ 7 ≤ 7 ∧ (symbolValues 7 [0x66]).getLast? = some 0 := by decide

theorem witness_WindowFormOfEncode : 1 ≤ 7 ∧ 7 ≤ 7 ∧ 1 < symbolCount 7 ([0x66] : List Byte).length := by decide

theorem witness_AccumulatorFormOfEncode :
    1 ≤ 7 ∧ 7 ≤ 7 ∧ (⟨63, 6⟩ : Accumulator).nbits ≤ 7 - 1 ∧ (⟨63, 6⟩ : Accumulator).acc < 2 ^ 6 := by decide

theorem witness_WholeNumberFormOfEncode : 1 ≤ 1 ∧ 1 ≤ 7 ∧ 7 ≤ 7 := by decide

theorem witness_EncodeSplitsAtSymbolBoundaries :
    1 ≤ 5 ∧ 5 ≤ 7 ∧ 5 ∣ 8 * ([1, 2, 3, 4, 5] : List Byte).length ∧ ¬ 5 ∣ 8 * ([1, 2, 3, 4] : List Byte).length := by
  decide

/-- The same alphabet with a synonym of `A` and an ALPHA entry above N that differs. -/
theorem witness_EncodeReadsTheAlphabetOnly :
    SameAlphabet base32.codec ((base32.codec.writeDt 0x61 (.mapped 0)).writeAlpha 32 0x7F) ∧
      Supplied 1 (with_ base32 [0x66]) := by
  unfold SameAlphabet Supplied
  decide

theorem witness_EncodeOfNothingIsNothing : base32.codec.valid = true := by decide

/-- A text of valid characters, and one with an invalid character. -/
theorem witness_DecodeFollowsTheBitStream :
    let s := with_ dashed [0x4D, 0x2D, 0x59, 0x3D]
    s.codec.valid = true ∧ 1 ≤ s.codec.bps.toNat ∧ Supplied 3 s ∧ (∀ ch ∈ s.din.take 3, ¬ Invalid s.codec ch) ∧
      Supplied 4 s ∧ ∃ ch ∈ s.din.take 4, Invalid s.codec ch := by
  unfold Supplied Invalid
  decide

/-- A text with a whole byte, and one symbol, which is none. -/
theorem witness_DecodeOutputLength :
    let s := with_ base32 [0x4D, 0x59]
    s.codec.valid = true ∧ 1 ≤ s.codec.bps.toNat ∧ Supplied 2 s ∧ 2 ≤ maxLen ∧
      (∀ ch ∈ s.din.take 2, ¬ Invalid s.codec ch) ∧ Supplied 1 s ∧
      (textValues s.codec (s.din.take 1)).length < (8 + s.codec.bps.toNat - 1) / s.codec.bps.toNat := by
  unfold Supplied Invalid
  decide

/-- `MY`, and `M-Z` with `-` ignored: two lengths, and other trailing bits. -/
theorem witness_TrailingBitsAreNotChecked :
    let s := with_ dashed [0x4D, 0x59]
    let u := with_ dashed [0x4D, 0x2D, 0x5A]
    u.codec = s.codec ∧ s.codec.valid = true ∧ 1 ≤ s.codec.bps.toNat ∧ Supplied 2 s ∧ Supplied 3 u ∧
      (∀ ch ∈ s.din.take 2, ¬ Invalid s.codec ch) ∧ (∀ ch ∈ u.din.take 3, ¬ Invalid s.codec ch) ∧
      textValues s.codec (s.din.take 2) = [12, 24] ∧ textValues s.codec (u.din.take 3) = [12, 25] ∧
      ∀ o < 8 * (2 * 5 / 8), valueBit 5 [12, 24] o = valueBit 5 [12, 25] o := by
  unfold Supplied Invalid
  decide

theorem witness_DecodeRejectsInvalidCharacters :
    let s := with_ dashed [0x2D, 0x4D, 0x80]
    s.codec.valid = true ∧ Supplied 3 s ∧ LowestBad (Invalid s.codec) (s.din.take 3) 2 0x80 ∧ Supplied 2 s ∧
      ∀ ch ∈ s.din.take 2, ¬ Invalid s.codec ch :=
  ⟨by decide, by unfold Supplied; decide,
    lowestBad (by decide) (by unfold Invalid; decide) (by unfold Invalid; decide), by unfold Supplied; decide,
    by unfold Invalid; decide⟩

theorem witness_DecodeOfNothingIsNothing :
    let s := with_ dashed [0x2D, 0x2D]
    s.codec.valid = true ∧ Supplied 2 s ∧ Supplied 0 s ∧
      ∀ ch ∈ s.din.take 2, ch.toNat < 128 ∧ s.codec.readIg (ch.setWidth 7) = true := by
  unfold Supplied
  decide

theorem witness_AccumulatorFormOfDecode :
    base32.codec.Wf ∧ base32.codec.valid = true ∧
      (1 ≤ 7 ∧ 7 ≤ 7 ∧ (127 : Symbol).toNat < 2 ^ 7 ∧ (⟨127, 7⟩ : Accumulator).nbits ≤ 7 ∧
        (⟨127, 7⟩ : Accumulator).acc < 2 ^ (⟨127, 7⟩ : Accumulator).nbits) :=
  ⟨base32_codec_wf, by decide, by decide⟩

theorem witness_WindowAndWholeNumberFormsOfDecode :
    1 ≤ 7 ∧ 7 ≤ 7 ∧ (∀ v ∈ ([127, 64] : List Symbol), v.toNat < 2 ^ 7) ∧
      0 < ([127, 64] : List Symbol).length * 7 / 8 := by decide

theorem witness_DecodeOfEncodeIsTheBuffer :
    Reachable base32 ∧ (let s := hostAct (.putElements [0x66]) base32;
      s.codec.valid = true ∧ Supplied 1 s ∧ 1 ≤ maxLen ∧
        (8 * 1 + s.codec.bps.toNat - 1) / s.codec.bps.toNat ≤ maxLen ∧
        (let u := with_ base32 [0x4D, 0x59];
          u.codec = s.codec ∧ Supplied ([0x4D, 0x59] : List Byte).length u ∧ u.din.take 2 = [0x4D, 0x59])) :=
  ⟨base32_reachable, by unfold Supplied; decide⟩

/-- `MY`, which ENCODE produces, and `MZ`, which it does not. -/
theorem witness_EncodeOfDecodeIsTheTextExactlyWhen :
    Reachable base32 ∧
    (∀ text ∈ ([[0x4D, 0x59], [0x4D, 0x5A]] : List (List Byte)),
      let s := hostAct (.putElements text) base32;
      s.codec.valid = true ∧ Supplied 2 s ∧
        after (exec (.decode 2) s) = okState s.codec [0x66] 2 s ∧
        (let u := with_ base32 [0x66];
          u.codec = s.codec ∧ Supplied 1 u ∧ u.din.take 1 = [0x66])) :=
  ⟨base32_reachable, by unfold Supplied; decide⟩

/-- Two characters of one value on a reachable configuration, and a text of both cases after PRESET.B32CI. -/
theorem witness_SynonymsDecodeAlike :
    (let s := run 0x30000002 [0x41, 0x61] base32;
      s.codec.valid = true ∧ s.codec.readDt (BitVec.setWidth 7 (0x41 : Byte)) = .mapped 0 ∧
        s.codec.readDt (BitVec.setWidth 7 (0x61 : Byte)) = .mapped 0) ∧
    presetLegal referencePreset = true ∧ AllAscii [0x4D, 0x79] ∧
    (∀ (k : Nat) (a b : Byte), ([0x4D, 0x79] : List Byte)[k]? = some a → ([0x6D, 0x79] : List Byte)[k]? = some b →
      b = a ∨ b = swapCase a) ∧
    (let t := after (execPresetWith referencePreset fresh);
      after (exec (.decode 2) (with_ t [0x4D, 0x79])) = okState t.codec [0x66] 2 (with_ t [0x4D, 0x79])) := by
  refine ⟨by decide, referencePreset_legal, by unfold AllAscii; decide, ?_, by decide⟩
  intro k a b ha hb
  match k with
  | 0 => cases ha; cases hb; exact .inr (by decide)
  | 1 => cases ha; cases hb; exact .inl rfl
  | k + 2 => simp at ha

theorem witness_SynonymsDecodeAlike_wf : (run 0x30000002 [0x41, 0x61] base32).codec.Wf :=
  addSynonyms_wf (din := [0x41, 0x61]) base32_codec_wf (by rfl)

/-- An invalid character before the inserted one, and one at the place where it is inserted. -/
theorem witness_IgnoredCharactersDoNotCount :
    dashed.codec.valid = true ∧ (0x2D : Byte).toNat < 128 ∧ dashed.codec.readIg (BitVec.setWidth 7 (0x2D : Byte)) = true ∧
      LowestBad (Invalid dashed.codec) ([0x3D] ++ [0x59]) 0 0x3D ∧
      LowestBad (Invalid dashed.codec) ([0x4D] ++ [0x3D]) 1 0x3D :=
  ⟨by decide, by decide, by decide, lowestBad (by decide) (by unfold Invalid; decide) (by unfold Invalid; decide),
    lowestBad (by decide) (by unfold Invalid; decide) (by unfold Invalid; decide)⟩

theorem witness_DecodeReadsTheTablesOnly :
    Supplied 2 (with_ base32 [0x4D, 0x59]) ∧ 8 ∣ ([1, 2, 3, 4, 5, 6, 7, 8] : List Symbol).length * 5 := by
  unfold Supplied
  decide

theorem witness_FailingCommandsChangeNothing :
    let s := with_ base32 [0x4D, 0x3D]
    Supplied 2 s ∧ statusCodeField (after (exec (.decode 2) s)).status ≠ 0 := by
  unfold Supplied
  decide

theorem witness_OnlyTheListedCodesOccur : Supplied 2 (with_ base32 [0x4D, 0x3D]) := by
  unfold Supplied
  decide

/-- A command that completes with OK, an idle unit, and a waiting one. -/
theorem witness_ResultRegistersAreWrittenNotRead :
    (let s := with_ base32 [0x4D, 0x59];
      Supplied 2 s ∧ statusCodeField (after (exec (.decode 2) s)).status = 0) ∧ base32.cmd = [] ∧
    (let s := putPacket ⟨0x60000002, [0x4D]⟩ base32;
      s.cmd = [0x60000002#32] ∧ s.din.length < lenField 0x60000002) := by
  unfold Supplied
  decide

theorem witness_CommandsWriteOnlyTheirColumns :
    Supplied 2 (with_ base32 [0x41, 0x61]) ∧ (with_ base32 [0x41, 0x61]).codec.valid = true := by
  unfold Supplied
  decide

/-- A state that keeps the invariants and whose step changes it. -/
theorem witness_EveryStepKeepsTheInvariants :
    (putPacket ⟨0x10000002, [0x30, 0x31]⟩ fresh).Wf ∧
      step (putPacket ⟨0x10000002, [0x30, 0x31]⟩ fresh) = .next (run 0x10000002 [0x30, 0x31] fresh) :=
  ⟨⟨fresh_wf.1, fresh_wf.2, fresh_wf.3, fresh_wf.4, fresh_wf.5, fresh_wf.6, fresh_wf.7⟩, by rfl⟩

theorem witness_ReachableConfigurationsAreConsistent : Reachable base32 ∧ base32.codec.valid = true :=
  ⟨base32_reachable, by decide⟩

/-- Two units just reset whose tables differ, and two configurations that differ above N. -/
theorem witness_UnspecifiedEntriesAreNeverRead :
    SameButUnspecified (putPacket ⟨0x60000000, []⟩ fresh)
      (putPacket ⟨0x60000000, []⟩ (State.resetWith (Vector.replicate 128 1#7) emptyDt emptyIg)) ∧
    SameButUnspecified base32 { base32 with codec := base32.codec.writeAlpha 32 0x7F } :=
  ⟨⟨rfl, rfl, nofun, nofun, nofun, rfl, rfl, rfl, rfl, rfl, rfl⟩,
    ⟨rfl, rfl, fun _ => by decide, fun _ => rfl, fun _ => rfl, rfl, rfl, rfl, rfl, rfl, rfl⟩⟩

theorem witness_EveryCommandGivesOneRecord :
    fresh.Wf ∧ Quiet fresh ∧
    (let s := putPacket ⟨0x70000002, [0x41, 0x42]⟩ fresh;
      s.cmd = [0x70000002#32] ∧ Supplied (lenField 0x70000002) s) ∧
    ∀ p ∈ [(⟨0x10000002, [0x30, 0x31]⟩ : Packet), ⟨0x50000001, [0x66]⟩, ⟨0x70000002, [0x41, 0x42]⟩],
      packetWhole p = true :=
  ⟨fresh_wf, by unfold Quiet; decide, by unfold Supplied; decide, by decide⟩

/-- A step of a configured unit whose command fails. -/
theorem witness_OnlyResetClearsValid :
    let s := putPacket ⟨0x10000001, [0x41]⟩ base32
    s.codec.valid = true ∧ statusCodeField (after (step s)).status = 1 := by decide

/-- Too few elements and too many, and a run of whole packets. -/
theorem witness_RunsRefuseMalformedPackets :
    (∃ p ∈ [(⟨0x50000001, [0x66]⟩ : Packet), ⟨0x60000002, [0x4D]⟩], p.elements.length ≠ lenField p.word) ∧
    (∀ p ∈ [(⟨0x50000001, [0x66]⟩ : Packet), ⟨0x70000002, [0x41, 0x42]⟩], p.elements.length = lenField p.word) ∧
    ([0x4D, 0x59] : List Byte).length = (Instr.decode 2).len := by decide

theorem test_run_refuses_undersupply :
    runPackets base32 [⟨0x50000001, [0x66]⟩, ⟨0x60000002, [0x4D]⟩] = .refused .malformedPacket := by rfl

theorem test_run_refuses_surplus :
    runPackets base32 [⟨0x60000002, [0x4D, 0x59, 0x5A]⟩] = .refused .malformedPacket := by rfl

end Sys2Proof.Tests
end

section
/-! The three result registers (10_state.md R30): no command reads them, a command that completes with OK writes zero
fields and the count of its output, and a unit that is idle or waits keeps them. -/

namespace Sys2Proof.Machine

open Sys2Proof.Claims

/-- Both completions write all three registers, and a command's body is given only the configuration and the operand. -/
theorem runCommand_registers_irrelevant {len : Nat} {body : Codec → List Byte → Except Raised (Codec × List Byte)}
    {s : State} (hl : len ≤ s.din.length) (a b c : BitVec 32) :
    runCommand len body { s with status := a, errpos := b, reslen := c } = runCommand len body s := by
  cases hb : body s.codec (s.din.take len) with
  | ok p =>
    rw [runCommand_ok (c := p.1) (out := p.2) hl hb]
    exact runCommand_ok hl hb
  | error r =>
    rw [runCommand_error hl hb]
    exact runCommand_error hl hb

theorem ok_not_mem_possibleErrors (i : Instr) : StatusCode.ok ∉ possibleErrors i := by
  cases i <;> simp [possibleErrors]

/-- CODE 0 tells a command that completed with OK from one that raised. -/
theorem exec_eq_completeOk_of_code_zero {i : Instr} {s t : State} (hl : i.len ≤ s.din.length)
    (h : exec i s = .next t) (hcode : statusCodeField t.status = 0#4) :
    ∃ c out, t = completeOk c out (consumePacket i.len s) := by
  rcases exec_cases h with ⟨hwait, -⟩ | ⟨-, c, out, -, rfl⟩ | ⟨-, r, hb, rfl⟩
  · omega
  · exact ⟨c, out, rfl⟩
  · rw [completeError_status, statusCodeField_statusWord] at hcode
    have hok : r.code = .ok := statusNumber_inj.1 hcode
    exact absurd (hok ▸ commandBody_error_code hb) (ok_not_mem_possibleErrors i)

theorem step_of_idle_or_undersupplied {s : State}
    (h : s.cmd = [] ∨ ∃ w rest, s.cmd = w :: rest ∧ s.din.length < lenField w) : step s = .next s := by
  rcases h with hidle | ⟨w, rest, hcmd, hwait⟩
  · exact step_of_empty hidle
  · exact step_of_undersupplied hcmd hwait

/-- Settles O49, from the two completions, which write the three registers together, and the steps that complete
nothing. -/
theorem resultRegistersAreWrittenNotRead : Obligations.ResultRegistersAreWrittenNotRead := by
  refine ⟨fun i s a b c hl => ?_, fun i s t hl h hcode => ?_, fun s t hquiet h => ?_⟩
  · rw [exec_eq_runCommand, exec_eq_runCommand]
    exact runCommand_registers_irrelevant hl a b c
  · obtain ⟨c, out, rfl⟩ := exec_eq_completeOk_of_code_zero hl h hcode
    simp
  · rw [step_of_idle_or_undersupplied hquiet] at h
    cases h
    exact ⟨rfl, rfl, rfl⟩

end Sys2Proof.Machine
end

section
/-! The opcode map (30_encoding.md R73, R75): which rows a word selects, what the decoder answers by the word's two
fields, and what a step does with a reserved word. -/

namespace Sys2Proof

/-- A word is known by its two fields. -/
theorem eq_commandWord_iff {w : CmdWord} {op : BitVec 4} {len : Nat} (h : len ≤ maxLen) :
    w = commandWord op len ↔ opField w = op ∧ lenField w = len := by
  constructor
  · rintro rfl
    exact ⟨opField_commandWord op len, lenField_commandWord op h⟩
  · rintro ⟨rfl, rfl⟩
    exact (commandWord_fields w).symm

/-- A word selects the row whose mask is the whole word exactly when both its fields are the row's (R73). -/
theorem and_wordMask_eq {w : CmdWord} {op : BitVec 4} :
    w &&& 0xFFFFFFFF#32 = commandWord op 0 ↔ opField w = op ∧ lenField w = 0 := by
  have whole : w &&& 0xFFFFFFFF#32 = w := BitVec.and_allOnes
  rw [whole, eq_commandWord_iff (Nat.zero_le _)]

/-- The rows with their patterns read as words of an OP field and LEN 0. -/
theorem opcodeMap_eq : opcodeMap =
    [⟨"CREATE", commandWord 1#4 0, 0xF0000000#32⟩, ⟨"PRESET.B32CI", commandWord 2#4 0, 0xFFFFFFFF#32⟩,
     ⟨"ADDSYN", commandWord 3#4 0, 0xF0000000#32⟩, ⟨"IGNORE", commandWord 4#4 0, 0xF0000000#32⟩,
     ⟨"ENCODE", commandWord 5#4 0, 0xF0000000#32⟩, ⟨"DECODE", commandWord 6#4 0, 0xF0000000#32⟩] := by
  decide

/-- All that the decoder can answer, with the fields of the word that make it do so (R73, R75). -/
theorem decodeWord_cases (w : CmdWord) :
    ((opField w = 0#4 ∨ 7#4 ≤ opField w) ∧ decodeWord w = .reserved .unassignedOp (lenField w)) ∨
    (opField w = 1#4 ∧ decodeWord w = .command (.create (lenField w))) ∨
    (opField w = 2#4 ∧ lenField w = 0 ∧ decodeWord w = .command .presetB32CI) ∨
    (opField w = 2#4 ∧ lenField w ≠ 0 ∧ decodeWord w = .reserved .presetWithOperand (lenField w)) ∨
    (opField w = 3#4 ∧ decodeWord w = .command (.addsyn (lenField w))) ∨
    (opField w = 4#4 ∧ decodeWord w = .command (.ignore (lenField w))) ∨
    (opField w = 5#4 ∧ decodeWord w = .command (.encode (lenField w))) ∨
    (opField w = 6#4 ∧ decodeWord w = .command (.decode (lenField w))) := by
  rcases opField_cases w with h | h | h | h | h | h | h | h
  · simp [decodeWord_of_unassigned, h]
  · simp [decodeWord, h]
  · by_cases hl : lenField w = 0 <;> simp [decodeWord, h, hl]
  · simp [decodeWord, h]
  · simp [decodeWord, h]
  · simp [decodeWord, h]
  · simp [decodeWord, h]
  · simp [decodeWord_of_unassigned, h]

theorem ne_opcode_of_unassigned : ∀ op : BitVec 4, op = 0#4 ∨ 7#4 ≤ op →
    op ≠ 1#4 ∧ op ≠ 2#4 ∧ op ≠ 3#4 ∧ op ≠ 4#4 ∧ op ≠ 5#4 ∧ op ≠ 6#4 := by
  decide

/-- The rows a word selects are the row of the command it decodes to, and no row when it is reserved (R73). -/
theorem selectedRows_eq_decoded (w : CmdWord) :
    (opcodeMap.filter fun r => decide (w &&& r.mask = r.pattern)).map (·.mnemonic) =
      match decodeWord w with
      | .command i => [i.mnemonic]
      | .reserved _ _ => [] := by
  rw [opcodeMap_eq]
  rcases decodeWord_cases w with
    ⟨h, hd⟩ | ⟨h, hd⟩ | ⟨h, hl, hd⟩ | ⟨h, hl, hd⟩ | ⟨h, hd⟩ | ⟨h, hd⟩ | ⟨h, hd⟩ | ⟨h, hd⟩
  · simp [and_opMask_eq, and_wordMask_eq, ne_opcode_of_unassigned _ h, hd]
  all_goals simp [and_opMask_eq, and_wordMask_eq, Instr.mnemonic, *]

theorem Instr.mnemonic_op_mem (i : Instr) :
    (i.mnemonic, i.op) ∈ [("CREATE", 0x1#4), ("PRESET.B32CI", 0x2#4), ("ADDSYN", 0x3#4), ("IGNORE", 0x4#4),
      ("ENCODE", 0x5#4), ("DECODE", 0x6#4)] := by
  cases i <;> simp [Instr.mnemonic, Instr.op]

/-- A word selects no row exactly when the decoder answers it as reserved. -/
theorem selectsNoRow_iff_reserved (w : CmdWord) :
    (∀ r ∈ opcodeMap, w &&& r.mask ≠ r.pattern) ↔ ∃ kind, decodeWord w = .reserved kind (lenField w) := by
  have noRow : (∀ r ∈ opcodeMap, w &&& r.mask ≠ r.pattern) ↔
      (opcodeMap.filter fun r => decide (w &&& r.mask = r.pattern)).map (·.mnemonic) = [] := by
    simp [List.filter_eq_nil_iff]
  rw [noRow, selectedRows_eq_decoded]
  cases hd : decodeWord w with
  | command i => simp
  | reserved kind len => simp [len_of_reserved hd]

/-- The reserved words by their fields (R75). -/
theorem reserved_iff_fields (w : CmdWord) :
    (∃ kind, decodeWord w = .reserved kind (lenField w)) ↔
      (opField w = 0x0#4 ∨ 0x7#4 ≤ opField w ∨ (opField w = 0x2#4 ∧ lenField w ≠ 0)) := by
  rcases decodeWord_cases w with
    ⟨h | h, hd⟩ | ⟨h, hd⟩ | ⟨h, hl, hd⟩ | ⟨h, hl, hd⟩ | ⟨h, hd⟩ | ⟨h, hd⟩ | ⟨h, hd⟩ | ⟨h, hd⟩ <;>
    simp [*]

end Sys2Proof

namespace Sys2Proof.Machine

open Sys2Proof.Claims

/-- A reserved word with its elements on DIN completes with IllegalCommand (R75). -/
theorem step_of_supplied_reserved {s : State} {w : CmdWord} {rest : List CmdWord} {kind : ReservedKind}
    (hcmd : s.cmd = w :: rest) (hd : decodeWord w = .reserved kind (lenField w)) (hl : Supplied (lenField w) s) :
    step s = .next (errorState 8#4 0#8 0 (lenField w) s) := by
  rw [step_of_reserved hcmd hd, execReserved, runCommand_error hl rfl]
  rfl

/-- Settles O2, from the rows' tests read as tests of the word's two fields. -/
theorem decoderFollowsTheOpcodeMap : Obligations.DecoderFollowsTheOpcodeMap := by
  refine ⟨rfl, selectedRows_eq_decoded, fun w i hd => ⟨?_, len_of_decodeWord hd⟩⟩
  rw [← op_of_decodeWord hd]
  exact i.mnemonic_op_mem

/-- Settles O4: the words that select no row are the decoder's reserved ones, and the step runs those by name. -/
theorem reservedWordsCompleteWithIllegalCommand : Obligations.ReservedWordsCompleteWithIllegalCommand := by
  intro w
  rw [selectsNoRow_iff_reserved]
  refine ⟨reserved_iff_fields w, ?_⟩
  rintro ⟨kind, hd⟩ s rest hcmd hl
  exact step_of_supplied_reserved hcmd hd hl

end Sys2Proof.Machine
end

section
/-! What a completed step leaves on the channels and in the result registers (30_encoding.md R77), the invariants it
keeps (10_state.md R26 to R29), and so the transactions and runs of a quiet unit. -/

namespace Sys2Proof.Machine

open Sys2Proof.Claims

/-! ### One step, legal or reserved -/

/-- Everything a step can do, with the bounds on what it outputs or names: nothing, one completion with OK, or one
completion with an error (R28, R29). -/
theorem step_completion {s t : State} (h : step s = .next t) :
    t = s ∨
    (∃ len c out, (s.codec.Wf → c.Wf) ∧ out.length ≤ 8 * maxLen ∧ t = completeOk c out (consumePacket len s)) ∨
    (∃ len r, r.pos < maxLen ∧ t = completeError r (consumePacket len s)) := by
  have hpos : 0 < maxLen := by decide
  rcases step_cases h with rfl | ⟨i, hmax, hl, hexec⟩ | ⟨len, -, -, rfl⟩
  · exact .inl rfl
  · have hlen : (s.din.take i.len).length ≤ maxLen := by simp; omega
    rcases exec_cases hexec with ⟨-, rfl⟩ | ⟨-, c, out, hb, rfl⟩ | ⟨-, r, hb, rfl⟩
    · exact .inl rfl
    · have hout := commandBody_output_length hb
      exact .inr (.inl ⟨i.len, c, out, fun hw => commandBody_wf hw hb, by omega, rfl⟩)
    · have hindex := commandBody_error_index hb
      exact .inr (.inr ⟨i.len, r, by omega, rfl⟩)
  · exact .inr (.inr ⟨len, _, hpos, rfl⟩)

/-- A count that R29 allows fits RESLEN. -/
theorem toNat_reslen {n : Nat} (h : n ≤ 8 * maxLen) : (BitVec.ofNat 32 n).toNat = n := by
  simp only [maxLen, lenWidth] at h
  rw [BitVec.toNat_ofNat]
  omega

/-- What a step puts on DOUT is counted by RESLEN, whatever it ran; `hrun` says that it ran something. -/
theorem step_output {s t : State} (h : step s = .next t) (hrun : t.cmd ≠ s.cmd) :
    ∃ out, t.dout = s.dout ++ out ∧ t.reslen.toNat = out.length := by
  rcases step_completion h with rfl | ⟨len, c, out, -, hout, rfl⟩ | ⟨len, r, -, rfl⟩
  · exact absurd rfl hrun
  · exact ⟨out, rfl, toNat_reslen hout⟩
  · exact ⟨[], by simp, rfl⟩

/-- The oldest word on CMD, legal or reserved, with its operand on DIN: the step takes the packet and puts RESLEN
elements on DOUT (R70, R77). -/
theorem step_of_supplied_output {s : State} {w : CmdWord} {rest : List CmdWord} (hcmd : s.cmd = w :: rest)
    (hl : lenField w ≤ s.din.length) :
    ∃ t out, step s = .next t ∧ t.cmd = rest ∧ t.din = s.din.drop (lenField w) ∧ t.dout = s.dout ++ out ∧
      t.reslen.toNat = out.length := by
  obtain ⟨t, ht, hrest, hdin⟩ := step_of_supplied hcmd hl
  obtain ⟨out, hdout, hcount⟩ := step_output ht (by simp [hrest, hcmd])
  exact ⟨t, out, ht, hrest, hdin, hdout, hcount⟩

/-! ### The invariants -/

theorem completeOk_wf {c : Codec} {out : List Byte} (s : State) (hc : c.Wf) (hout : out.length ≤ 8 * maxLen) :
    (completeOk c out s).Wf where
  codec := hc
  status_valid := by simp
  status_bps := by simp
  status_code := by simp [statusNumber_le]
  status_reserved := by simp
  errpos_bound := by simp [maxLen, lenWidth]
  reslen_bound := by rw [completeOk_reslen, toNat_reslen hout]; exact hout

theorem completeError_wf {r : Raised} {s : State} (hc : s.codec.Wf) (hpos : r.pos < maxLen) :
    (completeError r s).Wf where
  codec := hc
  status_valid := by simp
  status_bps := by simp
  status_code := by simp [statusNumber_le]
  status_reserved := by simp
  errpos_bound := by rw [completeError_errpos, toNat_reslen (by omega)]; exact hpos
  reslen_bound := by simp

/-- Every step keeps the invariants of a state. -/
theorem step_wf {s t : State} (hw : s.Wf) (h : step s = .next t) : t.Wf := by
  rcases step_completion h with rfl | ⟨len, c, out, hc, hout, rfl⟩ | ⟨len, r, hpos, rfl⟩
  · exact hw
  · exact completeOk_wf _ (hc hw.codec) hout
  · exact completeError_wf hw.codec hpos

/-- The invariants of a state are about its configuration and its result registers, not about the channels. -/
theorem State.Wf.withChannels {s : State} (hw : s.Wf) (cmd : List CmdWord) (din dout : List Byte) :
    State.Wf { s with cmd := cmd, din := din, dout := dout } :=
  { hw with }

/-! ### Transactions and runs of a quiet unit -/

/-- One transaction of a whole packet on a quiet unit: the step runs that packet, all of DOUT is its output, and the
host drains all of it. -/
theorem transact_of_quiet {s : State} {p : Packet} (hw : s.Wf) (hq : Quiet s) (hp : packetWhole p = true) :
    ∃ t r, transact p s = .next (t, r) ∧ Quiet t ∧ t.Wf ∧ r.status = t.status ∧ r.errpos = t.errpos ∧
      r.reslen = t.reslen ∧ r.output.length = r.reslen.toNat := by
  obtain ⟨hcmd, hdin, hdout⟩ := hq
  have hlen := packetWhole_iff.1 hp
  have front : (putPacket p s).cmd = [p.word] := by simp [hcmd]
  have supplied : lenField p.word ≤ (putPacket p s).din.length := by simp [hdin, hlen]
  obtain ⟨t, out, ht, hcmd', hdin', hdout', hcount⟩ := step_of_supplied_output front supplied
  have hout : t.dout = out := by simpa [hdout] using hdout'
  have hwt : t.Wf := step_wf (hw.withChannels _ _ _) ht
  refine ⟨_, _, transact_of_step hp ht, ⟨hcmd', ?_, ?_⟩, hwt.withChannels _ _ _, rfl, rfl, rfl, ?_⟩
  · simp [hdin', hdin, ← hlen]
  · simp [hout, hcount]
  · simp [resultRecord, hout, hcount]

/-- A run of whole packets on a quiet unit gives one record for each packet. -/
theorem runPackets_of_quiet {s : State} {ps : List Packet} (hw : s.Wf) (hq : Quiet s)
    (hps : ∀ p ∈ ps, packetWhole p = true) :
    ∃ t rs, runPackets s ps = .next (t, rs) ∧ rs.length = ps.length ∧ Quiet t ∧ t.Wf := by
  induction ps generalizing s with
  | nil => exact ⟨s, [], rfl, rfl, hq, hw⟩
  | cons p rest ih =>
    obtain ⟨hp, hrest⟩ := List.forall_mem_cons.1 hps
    obtain ⟨t, r, ht, hqt, hwt, -⟩ := transact_of_quiet hw hq hp
    obtain ⟨u, rs, hu, hlen, hqu, hwu⟩ := ih hwt hqt hrest
    exact ⟨u, r :: rs, runPackets_of_next ht hu, by simp [hlen], hqu, hwu⟩

/-- Settles O56, from what one step on a whole packet puts on DOUT, and by induction over the packets of a run. -/
theorem everyCommandGivesOneRecord : Obligations.EveryCommandGivesOneRecord := by
  refine ⟨fun s w rest hcmd hl => ?_, fun s p => transact_of_quiet, fun s ps => runPackets_of_quiet⟩
  obtain ⟨t, out, ht, -, -, hdout, hcount⟩ := step_of_supplied_output hcmd hl
  exact ⟨t, out, ht, hdout, hcount⟩

end Sys2Proof.Machine
end

section
/-! The completions of a command written out (00_scope.md R14, 60_exceptions.md R165): which one follows from what the
command's body answers, and what STATUS.CODE tells of it. -/

namespace Sys2Proof.Machine

open Sys2Proof.Claims

section

variable {i : Instr} {s t : State}

theorem exec_eq_okState {c : Codec} {out : List Byte} (hl : Supplied i.len s)
    (hb : commandBody i s.codec (s.din.take i.len) = .ok (c, out)) : exec i s = .next (okState c out i.len s) := by
  rw [exec_eq_runCommand, runCommand_ok hl hb]
  rfl

theorem exec_eq_errorState (code : StatusCode) {ch : Byte} {pos : Nat} (hl : Supplied i.len s)
    (hb : commandBody i s.codec (s.din.take i.len) = .error ⟨code, ch, pos⟩) :
    exec i s = .next (errorState (statusNumber code) ch pos i.len s) := by
  rw [exec_eq_runCommand, runCommand_error hl hb]
  rfl

@[simp] theorem statusCodeField_okState (c : Codec) (out : List Byte) (len : Nat) (s : State) :
    statusCodeField (okState c out len s).status = 0#4 :=
  statusCodeField_statusWord .ok c.valid c.bps 0#8

@[simp] theorem statusCodeField_errorState (code : StatusCode) (ch : Byte) (pos len : Nat) (s : State) :
    statusCodeField (errorState (statusNumber code) ch pos len s).status = statusNumber code :=
  statusCodeField_statusWord code s.codec.valid s.codec.bps ch

/-- A command with its operand on DIN completes with OK and CODE 0, or raises a code other than 0. -/
theorem exec_supplied_cases (h : exec i s = .next t) (hl : Supplied i.len s) :
    (statusCodeField t.status = 0#4 ∧ ∃ c out, commandBody i s.codec (s.din.take i.len) = .ok (c, out) ∧
      t = okState c out i.len s) ∨
    (statusCodeField t.status ≠ 0#4 ∧ ∃ r, commandBody i s.codec (s.din.take i.len) = .error r ∧
      t = errorState (statusNumber r.code) r.ch r.pos i.len s) := by
  cases hb : commandBody i s.codec (s.din.take i.len) with
  | ok p =>
    obtain ⟨c, out⟩ := p
    rw [exec_eq_okState hl hb] at h
    cases h
    exact .inl ⟨statusCodeField_okState .., c, out, rfl, rfl⟩
  | error r =>
    rw [exec_eq_errorState r.code hl hb] at h
    cases h
    refine .inr ⟨fun hzero => ?_, r, rfl, rfl⟩
    have hok : r.code = .ok := statusNumber_inj.1 ((statusCodeField_errorState ..).symm.trans hzero)
    exact ok_not_mem_possibleErrors i (hok ▸ commandBody_error_code hb)

theorem exec_of_code_zero (h : exec i s = .next t) (hl : Supplied i.len s) (hcode : statusCodeField t.status = 0#4) :
    ∃ c out, commandBody i s.codec (s.din.take i.len) = .ok (c, out) ∧ t = okState c out i.len s :=
  (exec_supplied_cases h hl).elim (fun hok => hok.2) fun herr => absurd hcode herr.1

theorem exec_of_code_ne_zero (h : exec i s = .next t) (hl : Supplied i.len s)
    (hcode : statusCodeField t.status ≠ 0#4) :
    ∃ r, commandBody i s.codec (s.din.take i.len) = .error r ∧
      t = errorState (statusNumber r.code) r.ch r.pos i.len s :=
  (exec_supplied_cases h hl).elim (fun hok => absurd hok.1 hcode) fun herr => herr.2

/-- A command never answers an error code that its body does not raise on this configuration and operand. -/
theorem exec_code_ne (code : StatusCode) (h : exec i s = .next t) (hl : Supplied i.len s) (hne : code ≠ .ok)
    (hbody : ∀ r, commandBody i s.codec (s.din.take i.len) = .error r → r.code ≠ code) :
    statusCodeField t.status ≠ statusNumber code := by
  rcases exec_supplied_cases h hl with ⟨hzero, -⟩ | ⟨-, r, hb, rfl⟩
  · rw [hzero]
    exact fun e => hne (statusNumber_inj.1 e.symm)
  · rw [statusCodeField_errorState]
    exact fun e => hbody r hb (statusNumber_inj.1 e)

end

/-- Settles O47: a code other than 0 is that of a completion with an error, whose state is written out. -/
theorem failingCommandsChangeNothing : Obligations.FailingCommandsChangeNothing := by
  intro i s t hl h hcode
  obtain ⟨r, -, rfl⟩ := exec_of_code_ne_zero h hl hcode
  exact ⟨rfl, rfl, rfl, rfl, rfl, statusValidField_statusWord .., statusBpsField_statusWord ..⟩

/-! ### The offending element of an operand -/

/-- The scan finds the element that the statements call the lowest bad one. -/
theorem firstBad_of_lowestBad {bad : Byte → Bool} {P : Byte → Prop} (hP : ∀ ch, bad ch = true ↔ P ch) {pos k : Nat}
    {din : List Byte} {ch : Byte} (h : LowestBad P din k ch) : firstBad bad pos din = some (ch, pos + k) := by
  obtain ⟨hk, hbad, hlowest⟩ := h
  refine firstBad_eq_some.2 ⟨k, rfl, hk, (hP ch).2 hbad, fun m d hm hd => ?_⟩
  exact Bool.eq_false_iff.2 fun hd' => hlowest m d hm hd ((hP d).1 hd')

theorem firstNonAscii_of_lowestBad {din : List Byte} {i : Nat} {ch : Byte}
    (h : LowestBad (fun d => 128 ≤ d.toNat) din i ch) : firstNonAscii din = some (ch, i) := by
  rw [firstNonAscii, firstBad_of_lowestBad (fun d => by simp [isAscii]) h, Nat.zero_add]

theorem take_length_of_supplied {len : Nat} {s : State} (hl : Supplied len s) : (s.din.take len).length = len :=
  List.length_take_of_le hl

end Sys2Proof.Machine
end

section
/-! CREATE (40_configuration.md R91 to R96): its errors in the order of its tests, its commit, and that nothing of the
configuration it replaces is left. -/

namespace Sys2Proof.Machine

open Sys2Proof.Claims

theorem take_length_mem_alphabetLengths {len : Nat} {s : State} (hl : Supplied len s) :
    (s.din.take len).length ∈ alphabetLengths ↔ len ∈ Lengths := by
  rw [take_length_of_supplied hl]
  rfl

/-- Settles O11, from the first of CREATE's tests. -/
theorem createRejectsOtherLengths : Obligations.CreateRejectsOtherLengths := by
  intro len s hl
  have hlen := take_length_mem_alphabetLengths hl
  refine ⟨fun hbad => ?_, fun hgood t h => ?_⟩
  · exact exec_eq_errorState .invalidLength hl (configured_eq_error.2 (createAlphabet_invalidLength (mt hlen.1 hbad)))
  · refine exec_code_ne .invalidLength h hl nofun fun r hr => ?_
    rcases createAlphabet_error_cases (configured_eq_error.1 hr) with ⟨-, hbad⟩ | ⟨hc, -⟩ | ⟨hc, -⟩
    · exact absurd (hlen.2 hgood) hbad
    · simp [hc]
    · simp [hc]

/-- Settles O12, from the second of CREATE's tests. -/
theorem createRejectsNonAscii : Obligations.CreateRejectsNonAscii := by
  intro len s hl hgood
  have hlen := (take_length_mem_alphabetLengths hl).2 hgood
  refine ⟨fun i ch hbad => ?_, fun hascii t h => ?_⟩
  · have hfound := firstNonAscii_of_lowestBad hbad
    exact exec_eq_errorState .nonAsciiCharacter hl (configured_eq_error.2 (createAlphabet_nonAscii hlen hfound))
  · refine exec_code_ne .nonAsciiCharacter h hl nofun fun r hr => ?_
    rcases createAlphabet_error_cases (configured_eq_error.1 hr) with ⟨hc, -⟩ | ⟨-, hbad⟩ | ⟨hc, -⟩
    · simp [hc]
    · exact absurd (firstNonAscii_eq_none.2 hascii) hbad
    · simp [hc]

/-- Settles O13, from the third of CREATE's tests. -/
theorem createRejectsDuplicates : Obligations.CreateRejectsDuplicates := by
  intro len s hl hgood hascii
  have hlen := (take_length_mem_alphabetLengths hl).2 hgood
  refine ⟨fun j ch hrepeat => ?_, fun hnodup t h => ?_⟩
  · exact exec_eq_errorState .duplicateCharacter hl (configured_eq_error.2
      (createAlphabet_duplicate hlen (firstNonAscii_eq_none.2 hascii) (firstDuplicate_eq_some.2 hrepeat)))
  · refine exec_code_ne .duplicateCharacter h hl nofun fun r hr => ?_
    rcases createAlphabet_error_cases (configured_eq_error.1 hr) with ⟨hc, -⟩ | ⟨hc, -⟩ | ⟨-, hrepeat, -⟩
    · simp [hc]
    · simp [hc]
    · exact absurd hnodup hrepeat

/-! ### The commit -/

/-- STATUS of a successful command that leaves VALID = 1, as a number (R27). -/
theorem okState_status_of_valid {c : Codec} (hv : c.valid = true) (out : List Byte) (len : Nat) (s : State) :
    (okState c out len s).status = BitVec.ofNat 32 (0x10 + 2 ^ 5 * c.bps.toNat) := by
  have hword : (okState c out len s).status = statusWord .ok c.valid c.bps 0#8 := rfl
  have hb := c.bps.isLt
  apply BitVec.eq_of_toNat_eq
  rw [hword, toNat_statusWord, hv, BitVec.toNat_ofNat]
  simp only [statusNumber, BitVec.toNat_ofNat, Bool.toNat_true]
  omega

/-- Settles O10: the configuration is CREATE's commit, read entry by entry. -/
theorem createCommitsTheAlphabet : Obligations.CreateCommitsTheAlphabet := by
  intro len s hl hgood hascii hnodup
  have hlen := (take_length_mem_alphabetLengths hl).2 hgood
  have htake := take_length_of_supplied hl
  have h128 : (s.din.take len).length ≤ 128 := (alphabetLengths_le hlen).2
  have hbps : (createCommit s.codec (s.din.take len)).bps = bitsPerSymbol len := by rw [createCommit_bps, htake]
  obtain ⟨hsize, -, hlog⟩ := bitsPerSymbol_spec (htake ▸ hlen)
  have hcommit := createAlphabet_eq_ok (c := s.codec) |>.2 ⟨hlen, hascii, hnodup, rfl⟩
  refine ⟨createCommit s.codec (s.din.take len), ?_, createCommit_valid _ _, ?_, ?_, fun v ch hch => ?_, fun i hi => ?_,
    createCommit_readIg _ _, fun v hv => ?_, ?_⟩
  · exact exec_eq_okState (i := .create len) hl (configured_eq_ok.2 ⟨hcommit, rfl⟩)
  · rw [hbps, hlog]
  · rw [hbps, hsize]
  · rw [← tableIndex_eq]
    have hv : BitVec.ofNat 7 v.toNat = v := by simp
    exact ⟨hv ▸ createCommit_readAlpha h128 hch, hv ▸ createCommit_readDt hascii hnodup hch⟩
  · exact createCommit_readDt_other fun ch hch => tableIndex_eq ch ▸ hi ch hch
  · exact createCommit_readAlpha_other h128 (htake.symm ▸ hv)
  · rw [okState_status_of_valid (createCommit_valid _ _), hbps, hlog]

/-! ### Replacement -/

/-- Two commits of one alphabet agree on every ALPHA entry below its length. -/
theorem createCommit_readAlpha_congr (c d : Codec) {din : List Byte} (h128 : din.length ≤ 128) {v : Symbol}
    (hv : v.toNat < din.length) : (createCommit c din).readAlpha v = (createCommit d din).readAlpha v := by
  have hget := List.getElem?_eq_getElem hv
  have hc := createCommit_readAlpha (c := c) h128 hget
  have hd := createCommit_readAlpha (c := d) h128 hget
  rw [BitVec.ofNat_toNat, BitVec.setWidth_eq] at hc hd
  rw [hc, hd]

theorem createCommit_sameAlphabet (c d : Codec) {din : List Byte} (hl : din.length ∈ alphabetLengths) :
    SameAlphabet (createCommit c din) (createCommit d din) := by
  refine ⟨by simp, by simp, fun v hv => createCommit_readAlpha_congr c d (alphabetLengths_le hl).2 ?_⟩
  rwa [Codec.size, createCommit_bps, (bitsPerSymbol_spec hl).1] at hv

/-- IG after CREATE does not depend on the configuration it replaces. -/
theorem createCommit_ig_congr (c d : Codec) (din : List Byte) : (createCommit c din).ig = (createCommit d din).ig := by
  simp [createCommit]

theorem presetConfiguration_sameAlphabet (p : PresetParams) (c d : Codec) :
    SameAlphabet (presetConfiguration p c) (presetConfiguration p d) := by
  refine ⟨?_, ?_, fun v hv => ?_⟩
  · rw [presetConfiguration_valid, presetConfiguration_valid]
  · rw [presetConfiguration_bps, presetConfiguration_bps]
  · rw [Codec.size, presetConfiguration_bps] at hv
    rw [presetConfiguration_readAlpha, presetConfiguration_readAlpha]
    exact createCommit_readAlpha_congr c d (by decide) hv

theorem exec_create_of_code_zero {len : Nat} {s t : State} (hl : Supplied len s) (h : exec (.create len) s = .next t)
    (hcode : statusCodeField t.status = 0#4) :
    ∃ c, createAlphabet s.codec (s.din.take len) = .ok c ∧ t = okState c [] len s := by
  obtain ⟨c, out, hb, rfl⟩ := exec_of_code_zero h hl hcode
  obtain ⟨hc, rfl⟩ := configured_eq_ok.1 hb
  exact ⟨c, hc, rfl⟩

/-- Whether CREATE completes with OK is a matter of its operand, not of the configuration (R96). -/
theorem exec_create_code_zero_of_same_operand {len : Nat} {s s' t t' : State} (hl : Supplied len s)
    (hl' : Supplied len s') (hdin : s.din.take len = s'.din.take len) (h : exec (.create len) s = .next t)
    (h' : exec (.create len) s' = .next t') (hcode : statusCodeField t.status = 0#4) :
    statusCodeField t'.status = 0#4 := by
  obtain ⟨c, hc, -⟩ := exec_create_of_code_zero hl h hcode
  rcases exec_supplied_cases h' hl' with ⟨hzero, -⟩ | ⟨-, r, hb, -⟩
  · exact hzero
  · have hraise : createAlphabet s.codec (s'.din.take len) = .error r :=
      createAlphabet_error_congr (configured_eq_error.1 hb)
    rw [← hdin] at hraise
    cases hc.symm.trans hraise

/-- Settles O14: a commit of CREATE's operand, and of PRESET.B32CI's sequence, writes the same entries over any
configuration. -/
theorem createReplacesTheConfiguration : Obligations.CreateReplacesTheConfiguration := by
  refine ⟨fun len s s' t t' hl hl' hdin h h' => ⟨⟨?_, ?_⟩, fun hcode => ?_, fun hcode => ?_⟩, fun s s' => ?_⟩
  · exact exec_create_code_zero_of_same_operand hl hl' hdin h h'
  · exact exec_create_code_zero_of_same_operand hl' hl hdin.symm h' h
  · have hcode' := exec_create_code_zero_of_same_operand hl hl' hdin h h' hcode
    obtain ⟨c, hc, rfl⟩ := exec_create_of_code_zero hl h hcode
    obtain ⟨c', hc', rfl⟩ := exec_create_of_code_zero hl' h' hcode'
    rw [← hdin] at hc'
    obtain ⟨hlen, -, -, rfl⟩ := createAlphabet_eq_ok.1 hc
    obtain ⟨-, -, -, rfl⟩ := createAlphabet_eq_ok.1 hc'
    exact ⟨createCommit_sameAlphabet _ _ hlen, createCommit_dt_congr _ _ _, createCommit_ig_congr _ _ _⟩
  · obtain ⟨r, -, rfl⟩ := exec_of_code_ne_zero h hl hcode
    rfl
  · refine ⟨_, _, exec_eq_okState (i := .presetB32CI) (Nat.zero_le _) rfl,
      exec_eq_okState (i := .presetB32CI) (Nat.zero_le _) rfl, ?_⟩
    exact ⟨presetConfiguration_sameAlphabet _ _ _, presetConfiguration_congr _ _ _⟩

end Sys2Proof.Machine
end

section
/-! ADDSYN (40_configuration.md R100 to R104): its errors in the order of its tests, and its commit. -/

namespace Sys2Proof.Machine

open Sys2Proof.Claims

/-- ENCODE reads BPS and ALPHA alone. -/
theorem encodeText_congr {c d : Codec} (ha : c.alpha = d.alpha) (hb : c.bps = d.bps) (data : List Byte) :
    encodeText c data = encodeText d data := by
  simp only [encodeText, Codec.readAlpha, ha, hb]

theorem synonymConflicts_iff {c : Codec} {v : Symbol} (ch : Byte) :
    synonymConflicts c v ch = true ↔ Conflicting c v ch := by
  rw [synonymConflicts_eq_true, tableIndex_eq]
  rfl

theorem mapSynonyms_readDt_mem {v : Symbol} {c : Codec} {l : List Byte} {ch : Byte} (h : ch ∈ l) :
    (mapSynonyms v c l).readDt (tableIndex ch) = .mapped v := by
  rw [mapSynonyms_readDt, if_pos ⟨ch, h, rfl⟩]

theorem mapSynonyms_readDt_other {v : Symbol} {c : Codec} {l : List Byte} {i : Code7}
    (h : ∀ ch ∈ l, tableIndex ch ≠ i) : (mapSynonyms v c l).readDt i = c.readDt i := by
  rw [mapSynonyms_readDt, if_neg]
  rintro ⟨ch, hch, he⟩
  exact h ch hch he

/-- Settles O18: the configuration is ADDSYN's commit, read entry by entry. -/
theorem addsynMapsTheSynonyms : Obligations.AddsynMapsTheSynonyms := by
  intro len s anchor synonyms v hv hl hdin hascii hanchor hfree
  rw [← tableIndex_eq] at hanchor
  have hcommit : addSynonyms s.codec (anchor :: synonyms) = .ok (mapSynonyms v s.codec synonyms) :=
    addSynonyms_eq_ok.2 ⟨hv, hascii, anchor, synonyms, v, rfl, hanchor,
      fun ch hch => Bool.eq_false_iff.2 (mt (synonymConflicts_iff ch).1 (hfree ch hch)), rfl⟩
  refine ⟨mapSynonyms v s.codec synonyms, ?_, fun ch hch => ?_, fun i hi => ?_,
    fun i w => addSynonyms_keeps_mapped hcommit, mapSynonyms_alpha .., mapSynonyms_ig .., mapSynonyms_bps ..,
    mapSynonyms_valid .., encodeText_congr (mapSynonyms_alpha ..) (mapSynonyms_bps ..)⟩
  · rw [← hdin] at hcommit
    exact exec_eq_okState (i := .addsyn len) hl (configured_eq_ok.2 ⟨hcommit, rfl⟩)
  · rw [← tableIndex_eq]
    exact mapSynonyms_readDt_mem hch
  · exact mapSynonyms_readDt_other fun ch hch => tableIndex_eq ch ▸ hi ch hch

/-- Settles O19, from ADDSYN's test of its elements. -/
theorem addsynRejectsNonAscii : Obligations.AddsynRejectsNonAscii := by
  intro len s hv hl
  refine ⟨fun i ch hbad => ?_, fun hascii t h => ?_⟩
  · have hfound := firstNonAscii_of_lowestBad hbad
    exact exec_eq_errorState .nonAsciiCharacter hl (configured_eq_error.2 (addSynonyms_nonAscii hv hfound))
  · refine exec_code_ne .nonAsciiCharacter h hl nofun fun r hr => ?_
    rcases addSynonyms_error_cases hv (configured_eq_error.1 hr) with ⟨-, hbad⟩ | ⟨hc, -⟩ | ⟨hc, -⟩
    · exact absurd (firstNonAscii_eq_none.2 hascii) hbad
    · simp [hc]
    · simp [hc]

/-- An unmapped anchor of an ASCII spec, whatever the rest of the spec is. -/
theorem exec_addsyn_unmapped {len : Nat} {s : State} {anchor : Byte} {synonyms : List Byte} (hv : s.codec.valid = true)
    (hl : Supplied len s) (hascii : AllAscii (s.din.take len)) (hdin : s.din.take len = anchor :: synonyms)
    (hanchor : s.codec.readDt (anchor.setWidth 7) = .unmapped) :
    exec (.addsyn len) s = .next (errorState 4#4 anchor 0 len s) := by
  have hnone := firstNonAscii_eq_none.2 hascii
  rw [hdin] at hnone
  rw [← tableIndex_eq] at hanchor
  have hraise := addSynonyms_unmapped hv hnone hanchor
  rw [← hdin] at hraise
  exact exec_eq_errorState .unmappedAnchor hl (configured_eq_error.2 hraise)

/-- Settles O20, from ADDSYN's test of its anchor. Under the invariants a mapped anchor's value is a canonical
character's, and an ignored anchor is unmapped. -/
theorem addsynRejectsAnUnmappedAnchor : Obligations.AddsynRejectsAnUnmappedAnchor := by
  intro len s hv hl hascii
  refine ⟨?_, fun anchor synonyms hdin => ⟨?_, fun hmapped t h => ?_, fun v hanchor t h hcode ch hch => ?_,
    fun hw v hanchor => ?_, fun hw hig => ?_⟩⟩
  · rintro rfl
    exact exec_eq_errorState .unmappedAnchor hl (configured_eq_error.2 (addSynonyms_empty hv))
  · exact exec_addsyn_unmapped hv hl hascii hdin
  · refine exec_code_ne .unmappedAnchor h hl nofun fun r hr => ?_
    rcases addSynonyms_error_cases hv (configured_eq_error.1 hr) with
      ⟨hc, -⟩ | ⟨-, -, hnil | ⟨a, rest, he, hunmapped⟩⟩ | ⟨hc, -⟩
    · simp [hc]
    · cases hdin.symm.trans hnil
    · cases hdin.symm.trans he
      exact absurd (tableIndex_eq anchor ▸ hunmapped) hmapped
    · simp [hc]
  · obtain ⟨c, out, hb, rfl⟩ := exec_of_code_zero h hl hcode
    obtain ⟨-, -, a, rest, w, he, hw, -, rfl⟩ := addSynonyms_eq_ok.1 (configured_eq_ok.1 hb).1
    cases hdin.symm.trans he
    rw [← tableIndex_eq] at hanchor ⊢
    cases hanchor.symm.trans hw
    exact mapSynonyms_readDt_mem hch
  · have hbelow := hw.values_below hv _ v hanchor
    exact ⟨v, hbelow, hw.canonical_mapped hv v hbelow⟩
  · exact exec_addsyn_unmapped hv hl hascii hdin (hw.ignored_unmapped hv _ hig)

/-- Any conflict among the later elements makes ADDSYN raise ConflictingSynonym, at whichever is the lowest. -/
theorem addSynonyms_conflict_of_mem {c : Codec} {anchor : Byte} {synonyms : List Byte} {v : Symbol} {ch : Byte}
    (hv : c.valid = true) (hascii : AllAscii (anchor :: synonyms)) (hanchor : c.readDt (tableIndex anchor) = .mapped v)
    (hch : ch ∈ synonyms) (hbad : Conflicting c v ch) :
    ∃ d j, addSynonyms c (anchor :: synonyms) = .error ⟨.conflictingSynonym, d, j⟩ := by
  rw [addSynonyms_mapped hv (firstNonAscii_eq_none.2 hascii) hanchor]
  cases hb : firstBad (synonymConflicts c v) 1 synonyms with
  | none =>
    have hfree := firstBad_eq_none.1 hb ch hch
    rw [(synonymConflicts_iff ch).2 hbad] at hfree
    cases hfree
  | some p => exact ⟨p.1, p.2, rfl⟩

/-- Settles O21, from ADDSYN's test of the later elements; a canonical character of another value fails it, being
mapped to that value. -/
theorem addsynRejectsConflicts : Obligations.AddsynRejectsConflicts := by
  intro len s anchor synonyms v hv hl hdin hascii hanchor
  rw [← tableIndex_eq] at hanchor
  refine ⟨fun k ch hbad => ?_, fun hfree t h => ?_, fun hw w hbelow hne hmem t h => ?_⟩
  · have hraise : addSynonyms s.codec (anchor :: synonyms) = .error ⟨.conflictingSynonym, ch, 1 + k⟩ := by
      rw [addSynonyms_mapped hv (firstNonAscii_eq_none.2 hascii) hanchor,
        firstBad_of_lowestBad synonymConflicts_iff hbad]
    rw [Nat.add_comm, ← hdin] at hraise
    exact exec_eq_errorState .conflictingSynonym hl (configured_eq_error.2 hraise)
  · refine exec_code_ne .conflictingSynonym h hl nofun fun r hr => ?_
    rcases addSynonyms_error_cases hv (configured_eq_error.1 hr) with
      ⟨hc, -⟩ | ⟨hc, -⟩ | ⟨-, -, a, rest, u, he, hu, ch, hch, hbad⟩
    · simp [hc]
    · simp [hc]
    · cases hdin.symm.trans he
      cases hanchor.symm.trans hu
      exact absurd ((synonymConflicts_iff ch).1 hbad) (hfree ch hch)
  · have hbad : Conflicting s.codec v ((s.codec.readAlpha w).setWidth 8) := by
      refine .inl ⟨w, hne, ?_⟩
      rw [← tableIndex_eq, tableIndex_setWidth]
      exact hw.canonical_mapped hv w hbelow
    obtain ⟨d, j, hraise⟩ := addSynonyms_conflict_of_mem hv hascii hanchor hmem hbad
    rw [← hdin] at hraise
    rw [exec_eq_errorState (i := .addsyn len) .conflictingSynonym hl (configured_eq_error.2 hraise)] at h
    cases h
    exact ⟨statusCodeField_errorState .., rfl⟩

end Sys2Proof.Machine
end

section
/-! IGNORE (40_configuration.md R106 to R109): its errors in the order of its tests, its commit, and that no character
becomes both mapped and ignored. -/

namespace Sys2Proof.Machine

open Sys2Proof.Claims

theorem isMapped_iff {c : Codec} (ch : Byte) : isMapped c ch = true ↔ c.readDt (ch.setWidth 7) ≠ .unmapped := by
  rw [isMapped_eq_true, tableIndex_eq]

theorem setIgnored_readIg_mem {c : Codec} {l : List Byte} {ch : Byte} (h : ch ∈ l) :
    (setIgnored c l).readIg (tableIndex ch) = true := by
  rw [setIgnored_readIg, if_pos ⟨ch, h, rfl⟩]

theorem setIgnored_readIg_other {c : Codec} {l : List Byte} {i : Code7} (h : ∀ ch ∈ l, tableIndex ch ≠ i) :
    (setIgnored c l).readIg i = c.readIg i := by
  rw [setIgnored_readIg, if_neg]
  rintro ⟨ch, hch, he⟩
  exact h ch hch he

/-- Settles O22: the configuration is IGNORE's commit, read entry by entry. -/
theorem ignoreSetsItsCharacters : Obligations.IgnoreSetsItsCharacters := by
  intro len s hv hl hascii hfree
  have hcommit : ignoreCharacters s.codec (s.din.take len) = .ok (setIgnored s.codec (s.din.take len)) :=
    ignoreCharacters_eq_ok.2 ⟨hv, hascii, fun ch hch => tableIndex_eq ch ▸ hfree ch hch, rfl⟩
  refine ⟨setIgnored s.codec (s.din.take len), ?_, fun ch hch => ?_, fun i hi => ?_, setIgnored_alpha ..,
    setIgnored_dt .., setIgnored_bps .., setIgnored_valid ..,
    encodeText_congr (setIgnored_alpha ..) (setIgnored_bps ..)⟩
  · exact exec_eq_okState (i := .ignore len) hl (configured_eq_ok.2 ⟨hcommit, rfl⟩)
  · rw [← tableIndex_eq]
    exact setIgnored_readIg_mem hch
  · exact setIgnored_readIg_other fun ch hch => tableIndex_eq ch ▸ hi ch hch

/-- Settles O23, from the first of IGNORE's tests on its elements. -/
theorem ignoreRejectsNonAscii : Obligations.IgnoreRejectsNonAscii := by
  intro len s hv hl
  refine ⟨fun i ch hbad => ?_, fun hascii t h => ?_⟩
  · have hfound := firstNonAscii_of_lowestBad hbad
    exact exec_eq_errorState .nonAsciiCharacter hl (configured_eq_error.2 (ignoreCharacters_nonAscii hv hfound))
  · refine exec_code_ne .nonAsciiCharacter h hl nofun fun r hr => ?_
    rcases ignoreCharacters_error_cases hv (configured_eq_error.1 hr) with ⟨-, hbad⟩ | ⟨hc, -⟩
    · exact absurd (firstNonAscii_eq_none.2 hascii) hbad
    · simp [hc]

/-! ### Mapped and ignored stay apart -/

/-- No ignored character is mapped (R26). -/
def IgnoredUnmapped (c : Codec) : Prop := ∀ i, c.readIg i = true → c.readDt i = .unmapped

theorem ignoreCharacters_ignoredUnmapped {c d : Codec} {din : List Byte} (hc : IgnoredUnmapped c)
    (h : ignoreCharacters c din = .ok d) : IgnoredUnmapped d := by
  obtain ⟨-, -, hfree, rfl⟩ := ignoreCharacters_eq_ok.1 h
  intro i hi
  have hdt : (setIgnored c din).readDt i = c.readDt i := by simp [Codec.readDt]
  rw [hdt]
  rw [setIgnored_readIg] at hi
  split at hi
  case isTrue hmem =>
    obtain ⟨ch, hch, rfl⟩ := hmem
    exact hfree ch hch
  case isFalse => exact hc i hi

theorem addSynonyms_ignoredUnmapped {c d : Codec} {din : List Byte} (hc : IgnoredUnmapped c)
    (h : addSynonyms c din = .ok d) : IgnoredUnmapped d := by
  obtain ⟨-, -, anchor, synonyms, v, -, -, hfree, rfl⟩ := addSynonyms_eq_ok.1 h
  intro i hi
  have hig : c.readIg i = true := by simpa [Codec.readIg] using hi
  rw [mapSynonyms_readDt_other, hc i hig]
  rintro ch hch rfl
  rw [(synonymConflicts_eq_false.1 (hfree ch hch)).2] at hig
  cases hig

/-- A property of the configuration that a command keeps when it completes with OK is kept also when it raises, since
then the configuration is what it was (R110). -/
theorem exec_keeps_codec {P : Codec → Prop} {i : Instr} {s t : State} (h : exec i s = .next t) (hl : Supplied i.len s)
    (hs : P s.codec) (hbody : ∀ c out, commandBody i s.codec (s.din.take i.len) = .ok (c, out) → P c) :
    P t.codec := by
  rcases exec_supplied_cases h hl with ⟨-, c, out, hb, rfl⟩ | ⟨-, r, -, rfl⟩
  · exact hbody c out hb
  · exact hs

/-- Settles O24, from the second of IGNORE's tests on its elements, and from the two commits. -/
theorem ignoreRejectsMappedCharacters : Obligations.IgnoreRejectsMappedCharacters := by
  intro len s hv hl hascii
  refine ⟨fun i ch hbad => ?_, fun hfree t h => ?_, fun hs t h => ?_⟩
  · have hfound := firstBad_of_lowestBad isMapped_iff (pos := 0) hbad
    rw [Nat.zero_add] at hfound
    exact exec_eq_errorState .conflictingSynonym hl
      (configured_eq_error.2 (ignoreCharacters_mapped hv (firstNonAscii_eq_none.2 hascii) hfound))
  · refine exec_code_ne .conflictingSynonym h hl nofun fun r hr => ?_
    rcases ignoreCharacters_error_cases hv (configured_eq_error.1 hr) with ⟨hc, -⟩ | ⟨-, -, ch, hch, hbad⟩
    · simp [hc]
    · exact absurd (hfree ch hch) ((isMapped_iff ch).1 hbad)
  · rcases h with h | h
    · exact exec_keeps_codec (P := IgnoredUnmapped) h hl hs
        fun c out hb => ignoreCharacters_ignoredUnmapped hs (configured_eq_ok.1 hb).1
    · exact exec_keeps_codec (P := IgnoredUnmapped) h hl hs
        fun c out hb => addSynonyms_ignoredUnmapped hs (configured_eq_ok.1 hb).1

end Sys2Proof.Machine
end

section
/-! NotCreated (40_configuration.md R90): the four commands that need a configuration raise it before they read a
table, and no other command raises it. -/

namespace Sys2Proof.Machine

open Sys2Proof.Claims

theorem encodeBytes_notCreated {c : Codec} {data : List Byte} (h : c.valid = false) :
    encodeBytes c data = .error notCreated := by
  simp [encodeBytes, h]

/-- A command that cannot raise NotCreated never answers its code. -/
theorem exec_code_ne_notCreated {i : Instr} {s t : State} (h : exec i s = .next t) (hl : Supplied i.len s)
    (hi : StatusCode.notCreated ∉ possibleErrors i) : statusCodeField t.status ≠ 7#4 :=
  exec_code_ne .notCreated h hl nofun fun _ hr e => hi (e ▸ commandBody_error_code hr)

/-- Settles O25, from the test that each of the four commands begins with and from the errors of CREATE and
PRESET.B32CI. -/
theorem unconfiguredUnitRaisesNotCreated : Obligations.UnconfiguredUnitRaisesNotCreated := by
  refine ⟨fun len s hv hl => ⟨?_, ?_, ?_, ?_⟩, fun len s t hl h => ?_⟩
  · exact exec_eq_errorState .notCreated hl (configured_eq_error.2 (addSynonyms_notCreated hv))
  · exact exec_eq_errorState .notCreated hl (configured_eq_error.2 (ignoreCharacters_notCreated hv))
  · exact exec_eq_errorState .notCreated hl (produced_eq_error.2 (encodeBytes_notCreated hv))
  · exact exec_eq_errorState .notCreated hl (produced_eq_error.2 (decodeText_notCreated hv))
  · rcases h with h | h | h
    · exact exec_code_ne_notCreated h hl (by simp [possibleErrors])
    · exact exec_code_ne_notCreated h (Nat.zero_le _) (by simp [possibleErrors])
    · rw [execReserved, runCommand_error hl rfl] at h
      cases h
      simp [statusNumber]

end Sys2Proof.Machine
end

section
/-! ENCODE (41_encode.md R121, R128, R129): its symbol values as the sums over the stream's bits that R121 writes, what
it reads of the configuration, and its completion. -/

namespace Sys2Proof.Machine

open Sys2Proof.Claims

/-! ### Symbol values -/

/-- The padded stream bit by bit: the bytes' bits, then zeros (R121). -/
theorem paddedStream_getD (B : Nat) (data : List Byte) (o : Nat) :
    ((paddedStream B data).getD o false).toNat = streamBit data o := by
  rw [List.getD_eq_getElem?_getD, paddedStream, streamBit]
  rcases Nat.lt_or_ge o (8 * data.length) with h | h
  · have hbyte : o / 8 < data.length := by omega
    rw [List.getElem?_append_left (by simpa using h), byteStream_getElem?, List.getElem?_eq_getElem hbyte]
    rfl
  · have hnone : data[o / 8]? = none := List.getElem?_eq_none (by omega)
    rw [List.getElem?_append_right (by simpa using h), List.getElem?_replicate, hnone]
    split <;> rfl

/-- Symbol value `k` is the number that R121 writes out. -/
theorem symbolValues_getElem? {B k : Nat} {data : List Byte} (hB : 1 ≤ B) (hk : k < symbolCount B data.length) :
    (symbolValues B data)[k]? = some (specSymbol B data k) := by
  have hroom : (k + 1) * B ≤ (paddedStream B data).length := by
    rw [paddedStream_length hB]
    exact Nat.mul_le_mul_right _ hk
  rw [Nat.add_mul, Nat.one_mul] at hroom
  have hlen : (((paddedStream B data).drop (k * B)).take B).length = B := by
    rw [List.length_take, List.length_drop]
    omega
  rw [symbolValues, groups_getElem? _ hk, ofBits_eq_sum, hlen, specSymbol]
  congr 1
  refine Finset.sum_congr rfl fun t ht => ?_
  rw [getD_window _ _ _ _ _ (Finset.mem_range.1 ht), paddedStream_getD]

/-- A symbol value is below N, so it fits the index of an ALPHA entry. -/
theorem toNat_symbolValue {c : Codec} {data : List Byte} {v : Nat} (h : v ∈ symbolValues c.bps.toNat data) :
    (BitVec.ofNat 7 v).toNat = v ∧ v < c.size := by
  have hlt : v < 2 ^ c.bps.toNat := symbolValues_lt h
  have hfits : 2 ^ c.bps.toNat ≤ 2 ^ 7 := Nat.pow_le_pow_right (by omega) (bps_le c)
  exact ⟨BitVec.toNat_ofNat .. ▸ Nat.mod_eq_of_lt (by omega), hlt⟩

/-! ### The text of a buffer -/

theorem encodeText_getElem? {c : Codec} {k : Nat} {data : List Byte} (hB : 1 ≤ c.bps.toNat)
    (hk : k < symbolCount c.bps.toNat data.length) :
    (encodeText c data)[k]? =
      some ((c.readAlpha (BitVec.ofNat 7 (specSymbol c.bps.toNat data k))).setWidth 8) := by
  rw [encodeText, List.getElem?_map, symbolValues_getElem? hB hk]
  rfl

theorem encodeText_nil (c : Codec) : encodeText c [] = [] := by
  have hlen : (encodeText c []).length ≤ 8 * 0 := encodeText_length c [] ▸ symbolCount_le c.bps.toNat 0
  exact List.eq_nil_of_length_eq_zero (by omega)

/-- Every character of a text is canonical: it stands in ALPHA below N. -/
theorem mem_encodeText {c : Codec} {data : List Byte} {ch : Byte} (h : ch ∈ encodeText c data) :
    ∃ v : Symbol, v.toNat < c.size ∧ ch = (c.readAlpha v).setWidth 8 := by
  obtain ⟨n, hn, rfl⟩ := List.mem_map.1 h
  obtain ⟨htoNat, hlt⟩ := toNat_symbolValue hn
  exact ⟨BitVec.ofNat 7 n, htoNat.symm ▸ hlt, rfl⟩

theorem encodeText_of_sameAlphabet {c d : Codec} (h : SameAlphabet c d) (data : List Byte) :
    encodeText c data = encodeText d data := by
  obtain ⟨-, hbps, halpha⟩ := h
  rw [encodeText, encodeText, ← hbps]
  refine List.map_congr_left fun n hn => ?_
  obtain ⟨htoNat, hlt⟩ := toNat_symbolValue hn
  rw [halpha _ (htoNat.symm ▸ hlt)]

/-! ### The command -/

theorem encodeBytes_of_valid {c : Codec} (hv : c.valid = true) (data : List Byte) :
    encodeBytes c data = .ok (encodeText c data) := by
  simp [encodeBytes, hv]

theorem exec_encode_of_valid {len : Nat} {s : State} (hv : s.codec.valid = true) (hl : Supplied len s) :
    exec (.encode len) s = .next (okState s.codec (encodeText s.codec (s.din.take len)) len s) :=
  exec_eq_okState (i := .encode len) hl (produced_eq_ok.2 ⟨rfl, encodeBytes_of_valid hv _⟩)

theorem exec_encode_of_invalid {len : Nat} {s : State} (hv : s.codec.valid = false) (hl : Supplied len s) :
    exec (.encode len) s = .next (errorState 7#4 0#8 0 len s) :=
  exec_eq_errorState (i := .encode len) .notCreated hl (produced_eq_error.2 (encodeBytes_notCreated hv))

/-- Settles O26: each group of the padded stream is the sum that R121 writes, and ALPHA is read there. -/
theorem encodeFollowsTheBitStream : Obligations.EncodeFollowsTheBitStream := by
  intro len s hv hB hl
  have hdata : (s.din.take len).length = len := take_length_of_supplied hl
  refine ⟨_, exec_encode_of_valid hv hl, by rw [encodeText_length, hdata]; rfl, fun k hk => ?_⟩
  rw [encodeText_length] at hk
  obtain ⟨htoNat, hlt⟩ := toNat_symbolValue (List.mem_of_getElem? (symbolValues_getElem? hB hk))
  exact ⟨_, htoNat, htoNat.symm ▸ hlt, encodeText_getElem? hB hk⟩

/-- Settles O33: either completion of ENCODE is the same under the two configurations but for the configuration itself,
with VALID = 1 because the texts agree and with VALID = 0 because no table is read. -/
theorem encodeReadsTheAlphabetOnly : Obligations.EncodeReadsTheAlphabetOnly := by
  intro len s d hsame hl
  have ⟨hvalid, hbps, _⟩ := hsame
  cases hv : s.codec.valid with
  | true =>
    have hother := exec_encode_of_valid (s := { s with codec := d }) (hvalid ▸ hv) hl
    refine ⟨_, exec_encode_of_valid hv hl, hother.trans ?_, rfl, _, rfl, fun ch hch => mem_encodeText hch⟩
    simp only [okState, encodeText_of_sameAlphabet hsame, hvalid, hbps]
  | false =>
    have hother := exec_encode_of_invalid (s := { s with codec := d }) (hvalid ▸ hv) hl
    refine ⟨_, exec_encode_of_invalid hv hl, hother.trans ?_, rfl, [], (List.append_nil _).symm, nofun⟩
    simp only [errorState, hvalid, hbps]

/-- Settles O34: the text of no bytes is empty, there being no symbols. -/
theorem encodeOfNothingIsNothing : Obligations.EncodeOfNothingIsNothing := by
  intro s hv
  have hexec := exec_encode_of_valid hv (Nat.zero_le s.din.length)
  rw [List.take_zero, encodeText_nil] at hexec
  exact ⟨hexec, rfl, List.append_nil _⟩

end Sys2Proof.Machine
end

section
/-! DECODE (42_decode.md R141, R144, R147, R148, R151): its bytes as the sums over the stream's bits that R141 writes,
which texts it accepts, its completions, and what it reads of the configuration. -/

namespace Sys2Proof.Machine

open Sys2Proof.Claims

/-! ### The bytes of a sequence of symbol values -/

/-- The stream bit by bit (R141). -/
theorem symbolStream_getD {B : Nat} (hB : 1 ≤ B) (values : List Symbol) (o : Nat) :
    ((symbolStream B values).getD o false).toNat = valueBit B values o := by
  rw [List.getD_eq_getElem?_getD, symbolStream_getElem? hB, valueBit]
  cases values[o / B]? <;> rfl

/-- The eight stream bits of a whole byte make the number that R141 writes out. -/
theorem ofBits_byteWindow {B n : Nat} {values : List Symbol} (hB : 1 ≤ B) (hn : n < values.length * B / 8) :
    ofBits (((symbolStream B values).drop (n * 8)).take 8) = specByte B values n := by
  have hlen : (((symbolStream B values).drop (n * 8)).take 8).length = 8 := by
    rw [List.length_take, List.length_drop, symbolStream_length]
    omega
  rw [ofBits_eq_sum, hlen, specByte]
  refine Finset.sum_congr rfl fun j hj => ?_
  rw [getD_window _ _ _ _ _ (Finset.mem_range.1 hj), symbolStream_getD hB, Nat.mul_comm n 8]

theorem specByte_lt {B n : Nat} {values : List Symbol} (hB : 1 ≤ B) (hn : n < values.length * B / 8) :
    specByte B values n < 2 ^ 8 := by
  rw [← ofBits_byteWindow hB hn]
  exact (ofBits_lt _).trans_le (Nat.pow_le_pow_right (by decide) (List.length_take_le _ _))

theorem valueBytes_eq_map {B : Nat} (hB : 1 ≤ B) (values : List Symbol) :
    valueBytes B values =
      (List.range (values.length * B / 8)).map fun n => BitVec.ofNat 8 (specByte B values n) := by
  rw [valueBytes, groups_eq_map, symbolStream_length, List.map_map]
  exact List.map_congr_left fun n hn => congrArg _ (ofBits_byteWindow hB (List.mem_range.1 hn))

@[simp] theorem valueBytes_nil (B : Nat) : valueBytes B [] = [] :=
  List.eq_nil_of_length_eq_zero (by simp)

theorem valueBytes_getElem? {B n : Nat} {values : List Symbol} (hB : 1 ≤ B) (hn : n < values.length * B / 8) :
    ∃ b : Byte, (valueBytes B values)[n]? = some b ∧ b.toNat = specByte B values n := by
  refine ⟨BitVec.ofNat 8 (specByte B values n), by simp [valueBytes_eq_map hB, hn], ?_⟩
  exact BitVec.toNat_ofNat .. ▸ Nat.mod_eq_of_lt (specByte_lt hB hn)

/-- The bytes depend on the bits of whole bytes only, not on those behind the last one (R144). -/
theorem valueBytes_congr {B : Nat} (hB : 1 ≤ B) {values values' : List Symbol} (hlen : values.length = values'.length)
    (hbits : ∀ o < 8 * (values.length * B / 8), valueBit B values o = valueBit B values' o) :
    valueBytes B values = valueBytes B values' := by
  rw [valueBytes_eq_map hB, valueBytes_eq_map hB, ← hlen]
  refine List.map_congr_left fun n hn => congrArg _ (Finset.sum_congr rfl fun j hj => ?_)
  rw [List.mem_range] at hn
  rw [Finset.mem_range] at hj
  rw [hbits _ (by omega)]

/-- A split where no bit is left over gives the bytes of both parts (R151). -/
theorem valueBytes_append {B : Nat} {first : List Symbol} (h : 8 ∣ first.length * B) (second : List Symbol) :
    valueBytes B (first ++ second) = valueBytes B first ++ valueBytes B second := by
  have hstream : symbolStream B (first ++ second) = symbolStream B first ++ symbolStream B second :=
    List.flatMap_append
  have hwhole : (symbolStream B first).length = first.length * B / 8 * 8 := by
    rw [symbolStream_length, Nat.div_mul_cancel h]
  simp only [valueBytes, hstream, List.length_append, symbolStream_length, Nat.add_div_of_dvd_right h,
    groups_append _ hwhole, List.map_append]

/-! ### The classes of a text's elements -/

theorem classify_eq_invalid_iff {c : Codec} {ch : Byte} : classify c ch = .invalid ↔ Invalid c ch := by
  rw [classify_eq_invalid, tableIndex_eq, Invalid]

/-- A valid element contributes its value to the scan whether it is found by its class or by the tables (R142). -/
theorem classValue_classify {c : Codec} {ch : Byte} (h : ¬ Invalid c ch) :
    classValue (classify c ch) = elementValue c ch := by
  rw [elementValue, ← tableIndex_eq]
  cases hc : classify c ch with
  | ignored => simp [classValue, (classify_eq_ignored.1 hc).2]
  | mapped v =>
    obtain ⟨-, hig, hdt⟩ := classify_eq_mapped.1 hc
    simp [classValue, hig, hdt]
  | invalid => exact absurd (classify_eq_invalid_iff.1 hc) h

theorem exists_lowestInvalid {c : Codec} {text : List Byte} (h : ∃ ch ∈ text, Invalid c ch) :
    ∃ i ch, LowestBad (Invalid c) text i ch := by
  simp only [← classify_eq_invalid_iff, LowestBad] at h ⊢
  obtain ⟨ch, hmem, hbad⟩ := h
  exact (text_cases c text).resolve_left fun hall => hall ch hmem hbad

/-- An ignored character is valid and contributes no value. -/
theorem ignored_valueless {c : Codec} {ch : Byte} (h : ch.toNat < 128 ∧ c.readIg (ch.setWidth 7) = true) :
    ¬ Invalid c ch ∧ elementValue c ch = none := by
  obtain ⟨hascii, hig⟩ := h
  simp [Invalid, elementValue, hig, hascii]

theorem textValues_of_ignored {c : Codec} {text : List Byte}
    (h : ∀ ch ∈ text, ch.toNat < 128 ∧ c.readIg (ch.setWidth 7) = true) : textValues c text = [] :=
  List.filterMap_eq_nil_iff.2 fun ch hch => (ignored_valueless (h ch hch)).2

/-! ### The bytes of a text -/

theorem decodeText_of_noneInvalid {c : Codec} {text : List Byte} (hv : c.valid = true)
    (h : ∀ ch ∈ text, ¬ Invalid c ch) : decodeText c text = .ok (valueBytes c.bps.toNat (textValues c text)) := by
  rw [decodeText_ok hv fun ch hch hc => h ch hch (classify_eq_invalid_iff.1 hc), textValues,
    List.filterMap_congr fun ch hch => classValue_classify (h ch hch)]

theorem decodeText_of_lowestInvalid {c : Codec} {text : List Byte} {i : Nat} {ch : Byte} (hv : c.valid = true)
    (h : LowestBad (Invalid c) text i ch) : decodeText c text = .error ⟨.invalidCharacter, ch, i⟩ := by
  simp only [LowestBad, ← classify_eq_invalid_iff] at h
  obtain ⟨hi, hbad, hlowest⟩ := h
  exact decodeText_error hv hi hbad hlowest

/-- DECODE does not read ALPHA (R151). -/
theorem decodeText_withAlpha (c : Codec) (alpha : Vector Code7 128) (text : List Byte) :
    decodeText { c with alpha := alpha } text = decodeText c text := by
  simp only [decodeText, scanText_congr (c := { c with alpha := alpha }) (d := c) rfl rfl]

/-! ### The command -/

section

variable {len : Nat} {s : State}

theorem exec_decode_of_ok {out : List Byte} (hl : Supplied len s) (h : decodeText s.codec (s.din.take len) = .ok out) :
    exec (.decode len) s = .next (okState s.codec out len s) :=
  exec_eq_okState (i := .decode len) hl (produced_eq_ok.2 ⟨rfl, h⟩)

theorem exec_decode_of_error {r : Raised} (hl : Supplied len s)
    (h : decodeText s.codec (s.din.take len) = .error r) :
    exec (.decode len) s = .next (errorState (statusNumber r.code) r.ch r.pos len s) :=
  exec_eq_errorState (i := .decode len) r.code hl (produced_eq_error.2 h)

theorem exec_decode_of_noneInvalid (hv : s.codec.valid = true) (hl : Supplied len s)
    (h : ∀ ch ∈ s.din.take len, ¬ Invalid s.codec ch) :
    exec (.decode len) s =
      .next (okState s.codec (valueBytes s.codec.bps.toNat (textValues s.codec (s.din.take len))) len s) :=
  exec_decode_of_ok hl (decodeText_of_noneInvalid hv h)

theorem exec_decode_of_lowestInvalid {i : Nat} {ch : Byte} (hv : s.codec.valid = true) (hl : Supplied len s)
    (h : LowestBad (Invalid s.codec) (s.din.take len) i ch) :
    exec (.decode len) s = .next (errorState 6#4 ch i len s) :=
  exec_decode_of_error (r := ⟨.invalidCharacter, ch, i⟩) hl (decodeText_of_lowestInvalid hv h)

end

/-- Settles O35: each group of eight stream bits is the sum that R141 writes, and a text with an invalid element has
one at a lowest index, where the scan raises. -/
theorem decodeFollowsTheBitStream : Obligations.DecodeFollowsTheBitStream := by
  intro len s hv hB hl
  refine ⟨fun hvalid => ?_, fun hinvalid => ?_⟩
  · refine ⟨_, exec_decode_of_noneInvalid hv hl hvalid, valueBytes_length .., fun n hn => ?_⟩
    rw [valueBytes_length] at hn
    exact valueBytes_getElem? hB hn
  · obtain ⟨i, ch, hlowest⟩ := exists_lowestInvalid hinvalid
    exact ⟨_, exec_decode_of_lowestInvalid hv hl hlowest, statusCodeField_errorState .invalidCharacter .., rfl⟩

/-- Settles O37: both texts complete with OK, with the same bytes because those are made of whole bytes' bits. -/
theorem trailingBitsAreNotChecked : Obligations.TrailingBitsAreNotChecked := by
  intro len len' s s' hcodec hv hB hl hl' hvalid hvalid' hcount hbits
  refine ⟨_, exec_decode_of_noneInvalid hv hl hvalid, ?_⟩
  rw [valueBytes_congr hB hcount hbits, ← hcodec]
  rw [← hcodec] at hv hvalid'
  exact exec_decode_of_noneInvalid hv hl' hvalid'

/-- Settles O38: the scan raises at the lowest invalid element, and without one DECODE completes with OK. -/
theorem decodeRejectsInvalidCharacters : Obligations.DecodeRejectsInvalidCharacters := by
  intro len s hv hl
  refine ⟨fun i ch hlowest => exec_decode_of_lowestInvalid hv hl hlowest, fun hvalid t ht => ?_⟩
  rw [exec_decode_of_noneInvalid hv hl hvalid] at ht
  cases ht
  simp

/-- Settles O39: ignored characters are valid and contribute no symbol value, so the stream is empty. -/
theorem decodeOfNothingIsNothing : Obligations.DecodeOfNothingIsNothing := by
  intro len s hv hl hignored
  have hexec := exec_decode_of_noneInvalid hv hl fun ch hch => (ignored_valueless (hignored ch hch)).1
  rw [textValues_of_ignored hignored, valueBytes_nil] at hexec
  exact ⟨hexec, rfl⟩

/-- Settles O46: either completion of DECODE is that of the same answer when ALPHA and the result registers differ;
the streams of two texts split at a whole byte; and 12 and 24 give no byte apart and one together. -/
theorem decodeReadsTheTablesOnly : Obligations.DecodeReadsTheTablesOnly := by
  refine ⟨fun len s alpha a b c hl => ?_, fun B first second h => valueBytes_append h second, by decide⟩
  have hsame := decodeText_withAlpha s.codec alpha (s.din.take len)
  cases h : decodeText s.codec (s.din.take len) with
  | ok out => exact ⟨_, exec_decode_of_ok hl h, rfl, exec_decode_of_ok hl (hsame.trans h)⟩
  | error r => exact ⟨_, exec_decode_of_error hl h, rfl, exec_decode_of_error hl (hsame.trans h)⟩

end Sys2Proof.Machine
end

section
/-! The padding and the derived forms of ENCODE (41_encode.md R122 to R127): each as a fact about the groups of the
padded stream. -/

namespace Sys2Proof.Machine

open Sys2Proof.Claims

/-! ### The padding -/

theorem paddingBits_lt {B : Nat} (hB : 1 ≤ B) (L : Nat) : paddingBits B L < B := by
  have hcount := symbolCount_mul_eq hB L
  have hless := symbolCount_mul_lt hB L
  omega

/-- The padding fills the bits of the last, broken symbol (R123). -/
theorem paddingBits_eq {B : Nat} (hB : 1 ≤ B) (L : Nat) : paddingBits B L = (B - 8 * L % B) % B := by
  have hpad := paddingBits_lt hB L
  have hrem := Nat.mod_lt (8 * L) hB
  have hwhole : (8 * L % B + paddingBits B L) % B = 0 := by
    rw [Nat.mod_add_mod, ← symbolCount_mul_eq hB L, Nat.mul_mod_left]
  rcases Nat.eq_zero_or_pos (8 * L % B) with h | h
  · rw [h, Nat.zero_add, Nat.mod_eq_of_lt hpad] at hwhole
    rw [h, hwhole, Nat.sub_zero, Nat.mod_self]
  · rw [Nat.mod_eq_of_lt (by omega : B - 8 * L % B < B)]
    rcases Nat.lt_or_ge (8 * L % B + paddingBits B L) B with hlt | hge
    · rw [Nat.mod_eq_of_lt hlt] at hwhole
      omega
    · rw [Nat.mod_eq_sub_mod hge, Nat.mod_eq_of_lt (by omega)] at hwhole
      omega

theorem paddingBits_eq_zero_iff {B : Nat} (hB : 1 ≤ B) (L : Nat) : paddingBits B L = 0 ↔ B ∣ 8 * L := by
  have hrem := Nat.mod_lt (8 * L) hB
  rw [paddingBits_eq hB, Nat.dvd_iff_mod_eq_zero]
  constructor
  · intro h
    by_contra hne
    rw [Nat.mod_eq_of_lt (by omega)] at h
    omega
  · intro h
    rw [h, Nat.sub_zero, Nat.mod_self]

/-! ### The whole-number form -/

theorem symbolValues_eq_wholeNumber {B : Nat} (hB : 1 ≤ B) (data : List Byte) :
    symbolValues B data = (List.range (symbolCount B data.length)).map (wholeNumberSymbol B data) := by
  have hlen := paddedStream_length hB data
  rw [symbolValues, groups_eq_map]
  refine List.map_congr_left fun k hk => ?_
  have hroom : (k + 1) * B ≤ symbolCount B data.length * B := Nat.mul_le_mul_right B (List.mem_range.1 hk)
  have hshift : symbolCount B data.length * B - k * B - B = B * (symbolCount B data.length - 1 - k) := by
    rw [Nat.mul_comm B, Nat.sub_right_comm, Nat.sub_mul, Nat.sub_mul, Nat.one_mul]
  rw [Nat.add_mul, Nat.one_mul, ← hlen] at hroom
  rw [ofBits_window _ _ _ hroom, ofBits_paddedStream, hlen, hshift, wholeNumberSymbol]

/-- Settles O31: the groups of the padded stream are its digits in radix `2^B`, and the stream as a number is
`D * 2^P`. -/
theorem wholeNumberFormOfEncode : Obligations.WholeNumberFormOfEncode := by
  intro B data hB _
  refine ⟨symbolValues_eq_wholeNumber hB data, ?_, fun v => symbolValues_lt⟩
  rw [symbolValues, groups_foldl _ _ _ _ (paddedStream_length hB data), ofBits_paddedStream, Nat.zero_mul, Nat.zero_add]

/-- The last symbol's low bits are the padding zeros (R123). -/
theorem two_pow_paddingBits_dvd_getLast {B v : Nat} {data : List Byte} (hB : 1 ≤ B)
    (h : (symbolValues B data).getLast? = some v) : 2 ^ paddingBits B data.length ∣ v := by
  rw [symbolValues_eq_wholeNumber hB, List.getLast?_map, List.getLast?_range] at h
  split at h
  case isTrue => cases h
  case isFalse =>
    cases h
    have hpad : 2 ^ paddingBits B data.length ∣ 2 ^ B := Nat.pow_dvd_pow 2 (paddingBits_lt hB _).le
    rw [wholeNumberSymbol, Nat.sub_self, Nat.mul_zero, Nat.pow_zero, Nat.div_one, Nat.dvd_mod_iff hpad]
    exact Nat.dvd_mul_left _ _

/-- Settles O28: the padding is what `8*L` lacks to a multiple of BPS, and the last digit of `D * 2^P` has it as low
bits. -/
theorem paddingIsInsideTheLastSymbol : Obligations.PaddingIsInsideTheLastSymbol := by
  refine ⟨fun B L hB _ => ⟨paddingBits_eq hB L, paddingBits_lt hB L, paddingBits_eq_zero_iff hB L⟩, fun L => ?_,
    fun B data hB _ => ⟨symbolValues_length B data, fun v => two_pow_paddingBits_dvd_getLast hB⟩⟩
  have hthree : L % 3 = 0 ∨ L % 3 = 1 ∨ L % 3 = 2 := by omega
  have hfive : L % 5 = 0 ∨ L % 5 = 1 ∨ L % 5 = 2 ∨ L % 5 = 3 ∨ L % 5 = 4 := by omega
  have hseven : L % 7 = 0 ∨ L % 7 = 1 ∨ L % 7 = 2 ∨ L % 7 = 3 ∨ L % 7 = 4 ∨ L % 7 = 5 ∨ L % 7 = 6 := by omega
  refine ⟨(paddingBits_eq_zero_iff (by decide) L).2 (by omega), (paddingBits_eq_zero_iff (by decide) L).2 (by omega),
    (paddingBits_eq_zero_iff (by decide) L).2 (by omega), ?_, ?_, ?_, ?_⟩
  · rw [paddingBits_eq (by decide)]
    rcases hthree with h | h | h <;> simp [h] <;> omega
  · rw [paddingBits_eq (by decide)]
    rcases hfive with h | h | h | h | h <;> simp [h] <;> omega
  · rw [paddingBits_eq (by decide)]
    rcases hthree with h | h | h <;> simp [h] <;> omega
  · rw [paddingBits_eq (by decide)]
    rcases hseven with h | h | h | h | h | h | h <;> simp [h] <;> omega

/-! ### The window form -/

/-- The two bytes that a window is cut from are the stream's bits from the first of them on; behind the buffer both
have zeros. -/
theorem byteStream_pair_getD (data : List Byte) (i : Nat) {o : Nat} (ho : o < 16) :
    ((byteStream [data.getD i 0#8, data.getD (i + 1) 0#8]).getD o false).toNat = streamBit data (8 * i + o) := by
  rw [List.getD_eq_getElem?_getD, byteStream_getElem?, streamBit, List.getD_eq_getElem?_getD,
    List.getD_eq_getElem?_getD, Nat.mul_add_mod]
  rcases Nat.lt_or_ge o 8 with h | h
  · rw [show o / 8 = 0 by omega, show (8 * i + o) / 8 = i by omega]
    cases data[i]? <;> simp
  · rw [show o / 8 = 1 by omega, show (8 * i + o) / 8 = i + 1 by omega]
    cases data[i + 1]? <;> simp

theorem toNat_bytePair (hi lo : Byte) : (hi ++ lo : BitVec 16).toNat = ofBits (byteStream [hi, lo]) := by
  have hword : (hi ++ lo : BitVec (8 + 8)).toNat = hi.toNat * 2 ^ 8 + lo.toNat := by
    rw [BitVec.toNat_append, ← Nat.shiftLeft_add_eq_or_of_lt lo.isLt, Nat.shiftLeft_eq]
  rw [ofBits_byteStream, show (hi ++ lo : BitVec 16).toNat = hi.toNat * 2 ^ 8 + lo.toNat from hword]
  simp [bufferNumber, Nat.mul_comm]

theorem windowSymbol_eq_ofBits {B : Nat} (data : List Byte) (k : Nat) (hB : B ≤ 7) :
    windowSymbol B data k = ofBits (((byteStream [data.getD (k * B / 8) 0#8, data.getD (k * B / 8 + 1) 0#8]).drop
      (k * B % 8)).take B) := by
  have hoffset := Nat.mod_lt (k * B) (by decide : 8 > 0)
  rw [ofBits_window _ _ _ (by simp; omega), windowSymbol]
  simp only [Nat.and_two_pow_sub_one_eq_mod, BitVec.toNat_ushiftRight, Nat.shiftRight_eq_div_pow, toNat_bytePair,
    byteStream_length, List.length_cons, List.length_nil]

theorem windowSymbol_eq_specSymbol {B : Nat} (data : List Byte) (k : Nat) (hB : B ≤ 7) :
    windowSymbol B data k = specSymbol B data k := by
  have hoffset := Nat.mod_lt (k * B) (by decide : 8 > 0)
  have hsplit := Nat.div_add_mod (k * B) 8
  have hlen : ∀ hi lo : Byte, (((byteStream [hi, lo]).drop (k * B % 8)).take B).length = B := fun hi lo => by
    rw [List.length_take, List.length_drop, byteStream_length, List.length_cons, List.length_singleton]
    omega
  rw [windowSymbol_eq_ofBits data k hB, ofBits_eq_sum, hlen, specSymbol]
  refine Finset.sum_congr rfl fun t ht => ?_
  rw [Finset.mem_range] at ht
  rw [getD_window _ _ _ _ _ ht, byteStream_pair_getD _ _ (by omega), ← Nat.add_assoc, hsplit]

/-- Settles O29: the window's bits are the symbol's, and a symbol that exists begins inside the buffer. -/
theorem windowFormOfEncode : Obligations.WindowFormOfEncode := by
  intro B data k hB hB7 hk
  have hoffset := Nat.mod_lt (k * B) (by decide : 8 > 0)
  have hinside : (k + 1) * B < 8 * data.length + B :=
    (Nat.mul_le_mul_right B hk).trans_lt (symbolCount_mul_lt hB data.length)
  rw [Nat.add_mul, Nat.one_mul] at hinside
  refine ⟨?_, by omega, by omega, by omega, by omega⟩
  rw [symbolValues_getElem? hB hk, windowSymbol_eq_specSymbol data k hB7]

/-! ### The accumulator form -/

/-- Settles O30: the accumulator holds the bits not yet given out, so a byte makes it give the whole groups of those and
its own. -/
theorem accumulatorFormOfEncode : Obligations.AccumulatorFormOfEncode := by
  refine ⟨fun B data hB _ => ?_, fun B ⟨acc, nbits⟩ b hB hB7 hn hacc => ?_⟩
  · refine accSymbols_spec hB data [] hB (symbolCount B data.length) _ (fun x => List.eq_of_mem_replicate) ?_ ?_
    · rw [symbolCount_mul_eq hB, List.length_replicate, List.length_nil, Nat.zero_add]
    · rw [List.length_replicate]
      exact paddingBits_lt hB _
  · obtain ⟨bits, rfl, rfl⟩ := bits_of_lt hacc
    have hlen : (bits ++ byteBits b).length = bits.length + 8 := by simp
    have hemit := accEmit_spec hB (bits.length + 8) (bits ++ byteBits b) hlen.le
    have hrem := Nat.mod_lt (bits.length + 8) hB
    have hdivmod := Nat.div_add_mod' (bits.length + 8) B
    simp only at hn
    have hacc14 : ofBits (bits ++ byteBits b) < 2 ^ 14 :=
      (ofBits_lt _).trans_le (Nat.pow_le_pow_right (by decide) (by omega))
    rw [accTakeByte_spec, hemit, hlen]
    simp only
    refine ⟨by omega, by omega, hacc14, groups_length .., Nat.div_pos (by omega) hB,
      Nat.div_le_of_le_mul (by omega), Nat.le_sub_one_of_lt hrem, ?_⟩
    have hrest := ofBits_lt ((bits ++ byteBits b).drop ((bits.length + 8) / B * B))
    rw [List.length_drop, hlen] at hrest
    rwa [show bits.length + 8 - (bits.length + 8) / B * B = (bits.length + 8) % B by omega] at hrest

/-! ### Splitting a buffer -/

theorem byteStream_append (first second : List Byte) :
    byteStream (first ++ second) = byteStream first ++ byteStream second :=
  List.flatMap_append

/-- A buffer that ends at a symbol boundary leaves the padding of what follows as it is. -/
theorem symbolCount_add_of_dvd {B L : Nat} (hB : 1 ≤ B) (h : B ∣ 8 * L) (L' : Nat) :
    symbolCount B (L + L') = symbolCount B L + symbolCount B L' ∧ paddingBits B (L + L') = paddingBits B L' := by
  have hfirst := symbolCount_mul_eq hB L
  have hsecond := symbolCount_mul_eq hB L'
  have hboth := symbolCount_mul_eq hB (L + L')
  have hpad := paddingBits_lt hB L'
  rw [(paddingBits_eq_zero_iff hB L).2 h] at hfirst
  have hcount : symbolCount B L + symbolCount B L' = symbolCount B (L + L') :=
    symbolCount_unique hB (by rw [Nat.add_mul]; omega) (by rw [Nat.add_mul]; omega)
  refine ⟨hcount.symm, ?_⟩
  rw [← hcount, Nat.add_mul] at hboth
  omega

theorem symbolValues_append_of_dvd {B : Nat} {first : List Byte} (hB : 1 ≤ B) (h : B ∣ 8 * first.length)
    (second : List Byte) : symbolValues B (first ++ second) = symbolValues B first ++ symbolValues B second := by
  obtain ⟨hcount, hpad⟩ := symbolCount_add_of_dvd hB h second.length
  have hzero := (paddingBits_eq_zero_iff hB _).2 h
  have hfirst : paddedStream B first = byteStream first := by simp [paddedStream, hzero]
  have hstream : paddedStream B (first ++ second) = paddedStream B first ++ paddedStream B second := by
    rw [hfirst, paddedStream, paddedStream, List.length_append, hpad, byteStream_append, List.append_assoc]
  rw [symbolValues, List.length_append, hcount, hstream, groups_append _ (paddedStream_length hB first)]
  rfl

/-- Where the first buffer needs padding, a byte of ones behind it shows it: its first bit stands where the first
buffer's own text has a padding zero. -/
theorem symbolValues_append_ones_ne {B : Nat} {first : List Byte} (hB : 1 ≤ B) (hB7 : B ≤ 7)
    (h : ¬ B ∣ 8 * first.length) :
    symbolValues B (first ++ [0xFF#8]) ≠ symbolValues B first ++ symbolValues B [0xFF#8] := by
  intro heq
  have hpad : 0 < paddingBits B first.length := Nat.pos_of_ne_zero (mt (paddingBits_eq_zero_iff hB _).1 h)
  have hstream : paddedStream B (first ++ [0xFF#8]) = paddedStream B first ++ paddedStream B [0xFF#8] := by
    simp only [← symbolStream_symbolValues hB hB7, heq, List.map_append, symbolStream, List.flatMap_append]
  have hwhole : (paddedStream B (first ++ [0xFF#8]))[8 * first.length]? = some true := by
    rw [paddedStream, byteStream_append, List.append_assoc, List.getElem?_append_right (by simp), byteStream_length,
      Nat.sub_self]
    rfl
  have hapart : (paddedStream B first ++ paddedStream B [0xFF#8])[8 * first.length]? = some false := by
    rw [paddedStream, List.append_assoc, List.getElem?_append_right (by simp)]
    simp [hpad]
  rw [hstream, hapart] at hwhole
  cases hwhole

/-- Settles O32: at a symbol boundary the padded streams append, and elsewhere a byte of ones tells the texts apart. -/
theorem encodeSplitsAtSymbolBoundaries : Obligations.EncodeSplitsAtSymbolBoundaries :=
  ⟨fun _ _ second hB h => symbolValues_append_of_dvd hB h second,
    fun _ _ hB hB7 h => ⟨_, symbolValues_append_ones_ne hB hB7 h⟩⟩

/-! ### RESLEN -/

/-- Settles O27: the text has a character for each symbol, and their count fits RESLEN. -/
theorem encodeOutputLength : Obligations.EncodeOutputLength := by
  refine ⟨fun len s hv _ hl hmax => ⟨_, exec_encode_of_valid hv hl, ?_⟩, by decide⟩
  have hlen : (encodeText s.codec (s.din.take len)).length = symbolCount s.codec.bps.toNat len := by
    rw [encodeText_length, take_length_of_supplied hl]
  have hfits := symbolCount_le s.codec.bps.toNat len
  have hreslen : (okState s.codec (encodeText s.codec (s.din.take len)) len s).reslen.toNat =
      symbolCount s.codec.bps.toNat len := by
    rw [okState, hlen]
    exact toNat_reslen (by omega)
  refine ⟨hreslen, ?_, ?_⟩
  · rw [hreslen, ← hlen]
    exact List.length_append
  · rintro rfl
    apply BitVec.eq_of_toNat_eq
    rw [hreslen]
    exact Nat.le_zero.1 hfits

end Sys2Proof.Machine
end

section
/-! The derived forms of DECODE and the count of its bytes (42_decode.md R143, R145, R146): each as a fact about the bit
stream of a text. -/

namespace Sys2Proof.Machine

open Sys2Proof.Claims

/-! ### The accumulator form -/

/-- Settles O40: the accumulator holds the bits of the stream that no byte has taken yet, at most seven between two
symbols. -/
theorem accumulatorFormOfDecode : Obligations.AccumulatorFormOfDecode := by
  refine ⟨fun c text hw hv => ?_, fun B ⟨acc, nbits⟩ v _ hB7 hvlt hn hacc => ?_⟩
  · have hscan := scanAccumulate_spec (bps_le c) (hw.values_below hv) text 0 [] (Nat.zero_le 7) []
    rw [show accumulatorStart = ⟨ofBits [], ([] : List Bool).length⟩ from rfl, hscan, decodeText, hv]
    cases scanText c 0 text <;> rfl
  · obtain ⟨bits, rfl, rfl⟩ := bits_of_lt hacc
    simp only at hn
    have htaken : (ofBits bits <<< B) ||| v.toNat < 2 ^ 14 := by
      have hfits : 2 ^ (bits.length + B) ≤ 2 ^ 14 := Nat.pow_le_pow_right (by decide) (by omega)
      refine (Nat.or_lt_two_pow (n := bits.length + B) ?_ ?_).trans_le hfits
      · rw [Nat.shiftLeft_eq, Nat.pow_add]
        exact Nat.mul_lt_mul_of_pos_right (ofBits_lt bits) (Nat.two_pow_pos B)
      · exact hvlt.trans_le (Nat.pow_le_pow_right (by decide) (Nat.le_add_left B _))
    have hall := ofBits_lt (bits ++ symbolBits B v)
    rw [List.length_append, symbolBits_length] at hall
    rw [accTakeSymbol_spec bits hvlt]
    refine ⟨by simp only; omega, htaken, ?_⟩
    split
    case isTrue h8 => exact ⟨by simp [h8], by simp only; omega, Nat.mod_lt _ (Nat.two_pow_pos _)⟩
    case isFalse h8 => exact ⟨by simp [h8], by simp only; omega, hall⟩

/-! ### The window form and the whole-number form -/

theorem ceilDiv_le_iff {a b n : Nat} (hb : 0 < b) : Sys2Proof.ceilDiv a b ≤ n ↔ a ≤ n * b := by
  rw [Sys2Proof.ceilDiv, ← Nat.ceilDiv_eq_add_pred_div, ceilDiv_le_iff_le_mul hb, Nat.mul_comm]

theorem le_ceilDiv_mul (a : Nat) {b : Nat} (hb : 0 < b) : a ≤ Sys2Proof.ceilDiv a b * b :=
  (ceilDiv_le_iff hb).1 le_rfl

section

variable {B n : Nat} {values : List Symbol} (hB : 1 ≤ B) (hn : n < values.length * B / 8)

include hB hn

/-- The symbols that the window of a whole byte reads exist. -/
theorem windowByte_symbols_exist : 8 * n / B + Sys2Proof.ceilDiv (8 * n % B + 8) B ≤ values.length := by
  have hsplit := Nat.div_add_mod' (8 * n) B
  have hstart : 8 * n / B ≤ values.length := by
    refine Nat.div_le_of_le_mul ?_
    rw [Nat.mul_comm B]
    omega
  have hcount : Sys2Proof.ceilDiv (8 * n % B + 8) B ≤ values.length - 8 * n / B := by
    rw [ceilDiv_le_iff hB, Nat.sub_mul]
    omega
  omega

variable (hv : ∀ v ∈ values, v.toNat < 2 ^ B)

include hv

theorem windowByte_eq_specByte : windowByte B values n = specByte B values n := by
  have hsplit := Nat.div_add_mod' (8 * n) B
  have hwindow := le_ceilDiv_mul (8 * n % B + 8) hB
  have hexist := windowByte_symbols_exist hB hn
  rw [← ofBits_byteWindow hB hn, windowByte]
  generalize Sys2Proof.ceilDiv (8 * n % B + 8) B = count at *
  have hread : ∀ v ∈ (values.drop (8 * n / B)).take count, v.toNat < 2 ^ B := fun v hmem =>
    hv v (List.mem_of_mem_drop (List.mem_of_mem_take hmem))
  have hlen : (((symbolStream B values).drop (8 * n / B * B)).take (count * B)).length = count * B := by
    have hroom : (8 * n / B + count) * B ≤ values.length * B := Nat.mul_le_mul_right B hexist
    rw [Nat.add_mul] at hroom
    rw [List.length_take, List.length_drop, symbolStream_length]
    omega
  have hcut := ofBits_window (((symbolStream B values).drop (8 * n / B * B)).take (count * B)) (8 * n % B) 8
    (by rw [hlen]; exact hwindow)
  rw [hlen, List.drop_take, List.drop_drop, hsplit, List.take_take, Nat.min_eq_left (by omega)] at hcut
  rw [← ofBits_symbolStream hread, symbolStream_take, symbolStream_drop, show (0xFF : Nat) = 2 ^ 8 - 1 from rfl,
    Nat.and_two_pow_sub_one_eq_mod, Nat.shiftRight_eq_div_pow, ← hcut, Nat.mul_comm n 8]

theorem wholeNumberByte_eq_specByte : wholeNumberByte B values n = specByte B values n := by
  have hdivmod := Nat.div_add_mod (values.length * B) 8
  have hshift : 2 ^ (values.length * B - n * 8 - 8) =
      2 ^ (values.length * B % 8) * 256 ^ (values.length * B / 8 - 1 - n) := by
    rw [show (256 : Nat) = 2 ^ 8 from rfl, ← Nat.pow_mul, ← Nat.pow_add]
    congr 1
    omega
  rw [← ofBits_byteWindow hB hn, ofBits_window _ _ _ (by rw [symbolStream_length]; omega), ofBits_symbolStream hv,
    symbolStream_length, hshift, ← Nat.div_div_eq_div_mul]
  rfl

end

/-- Settles O41: the window and the whole number both cut a byte's eight bits out of the text's stream, and the bytes
as one number are the stream's whole bytes. -/
theorem windowAndWholeNumberFormsOfDecode : Obligations.WindowAndWholeNumberFormsOfDecode := by
  intro B values hB _ hv
  refine ⟨valueBytes_length B values, fun n hn => ⟨windowByte_symbols_exist hB hn, ?_⟩, ?_⟩
  · obtain ⟨b, hget, hb⟩ := valueBytes_getElem? hB hn
    exact ⟨b, hget, hb.trans (windowByte_eq_specByte hB hn hv).symm,
      hb.trans (wholeNumberByte_eq_specByte hB hn hv).symm⟩
  · have hnumber : bufferNumber (valueBytes B values) = textNumber B values / 2 ^ (values.length * B % 8) := by
      have hdivmod := Nat.div_add_mod' (values.length * B) 8
      rw [← ofBits_byteStream, byteStream_valueBytes, ofBits_take, ofBits_symbolStream hv, symbolStream_length]
      congr 2
      omega
    exact hnumber

/-! ### RESLEN -/

theorem textValues_length_le (c : Codec) (text : List Byte) : (textValues c text).length ≤ text.length :=
  List.length_filterMap_le ..

/-- Settles O36: the bytes are the whole ones that the mapped characters' bits make, and their count fits RESLEN. -/
theorem decodeOutputLength : Obligations.DecodeOutputLength := by
  intro len s hv hB hl hmax hvalid
  have hexec := exec_decode_of_noneInvalid hv hl hvalid
  have hcount : (textValues s.codec (s.din.take len)).length ≤ len :=
    (textValues_length_le _ _).trans_eq (take_length_of_supplied hl)
  generalize textValues s.codec (s.din.take len) = values at *
  have hfits : values.length * s.codec.bps.toNat / 8 ≤ len := by
    have hbits : values.length * s.codec.bps.toNat ≤ len * 7 := Nat.mul_le_mul hcount (bps_le s.codec)
    omega
  have hlen := valueBytes_length s.codec.bps.toNat values
  have hreslen : (okState s.codec (valueBytes s.codec.bps.toNat values) len s).reslen.toNat =
      values.length * s.codec.bps.toNat / 8 := by
    rw [okState, hlen]
    exact toNat_reslen (by omega)
  refine ⟨_, hexec, statusCodeField_okState .., hreslen, ?_, fun hfew => ?_⟩
  · rw [hreslen, ← hlen]
    exact List.length_append
  · have hless : (values.length + 1) * s.codec.bps.toNat ≤ 8 + s.codec.bps.toNat - 1 :=
      (Nat.le_div_iff_mul_le hB).1 hfew
    rw [Nat.add_mul, Nat.one_mul] at hless
    rw [List.eq_nil_of_length_eq_zero (l := valueBytes s.codec.bps.toNat values) (by rw [hlen]; omega)]

end Sys2Proof.Machine
end

section
/-! The invariants in every state the unit can reach (10_state.md R22, R26 to R29, R34), and what the host's actions do
to them. -/

namespace Sys2Proof.Machine

open Sys2Proof.Claims

/-- Settles O53: a step does nothing, or completes with a configuration that keeps the invariants. -/
theorem everyStepKeepsTheInvariants : Obligations.EveryStepKeepsTheInvariants := fun _ _ => step_wf

/-- Reset leaves the result registers as a completion with OK and no output does (R27, R34). -/
theorem resetWith_eq_completeOk (alpha : Vector Code7 128) (dt : Vector DtEntry 128) (ig : Vector Bool 128) :
    State.resetWith alpha dt ig = completeOk ⟨false, 0#3, alpha, dt, ig⟩ [] (State.resetWith alpha dt ig) := by
  have hword : statusWord .ok false 0#3 0#8 = 0#32 := by decide
  simp only [completeOk, hword]
  rfl

theorem resetWith_wf (alpha : Vector Code7 128) (dt : Vector DtEntry 128) (ig : Vector Bool 128) :
    (State.resetWith alpha dt ig).Wf := by
  rw [resetWith_eq_completeOk]
  exact completeOk_wf _ ⟨fun _ => rfl, nofun, nofun, nofun, nofun, nofun⟩ (Nat.zero_le _)

/-- Settles O52: the invariants say nothing of the tables while VALID = 0, and reset writes the other fields. -/
theorem resetMeetsTheInvariants : Obligations.ResetMeetsTheInvariants :=
  fun alpha dt ig => ⟨resetWith_wf alpha dt ig, resetWith_wf ..⟩

/-- Settles O51: each field is the one that reset writes. -/
theorem resetClearsEverythingButTheTables : Obligations.ResetClearsEverythingButTheTables :=
  ⟨rfl, rfl, rfl, rfl, rfl, rfl, rfl, rfl, fun _ _ _ _ => rfl⟩

/-- The host reaches the channels only, or resets the unit. -/
theorem hostAct_wf {s : State} (a : HostAction) (hw : s.Wf) : (hostAct a s).Wf := by
  cases a with
  | putWord w => exact hw.withChannels _ _ _
  | putElements elements => exact hw.withChannels _ _ _
  | drain n => exact hw.withChannels _ _ _
  | reset alpha dt ig => exact resetWith_wf alpha dt ig

theorem Reachable.wf {s : State} (h : Reachable s) : s.Wf := by
  induction h with
  | reset alpha dt ig => exact resetWith_wf alpha dt ig
  | step _ hstep ih => exact step_wf ih hstep
  | host a _ ih => exact hostAct_wf a ih

/-- Settles O54: the invariants of a reachable state, item by item; every value below N has its canonical character. -/
theorem reachableConfigurationsAreConsistent : Obligations.ReachableConfigurationsAreConsistent := by
  intro s hr hv
  have hw := hr.wf.codec
  exact ⟨⟨hw.bps_pos hv, bps_le s.codec⟩, hw.alpha_distinct hv, hw.canonical_mapped hv, hw.values_below hv,
    fun v hlt => ⟨_, hw.canonical_mapped hv v hlt⟩, hw.ignored_unmapped hv⟩

/-- No step clears VALID (R22). -/
theorem step_keeps_valid {s t : State} (hv : s.codec.valid = true) (h : step s = .next t) : t.codec.valid = true := by
  rcases step_cases h with rfl | ⟨i, -, hl, hexec⟩ | ⟨len, -, -, rfl⟩
  · exact hv
  · exact exec_keeps_codec (P := fun c => c.valid = true) hexec hl hv fun _ _ hb => commandBody_valid hv hb
  · exact hv

/-- Settles O57, from the commands, of which none clears VALID, and from the four actions of the host. -/
theorem onlyResetClearsValid : Obligations.OnlyResetClearsValid := by
  refine ⟨fun _ _ => step_keeps_valid, fun a s hv => ?_⟩
  cases a with
  | reset alpha dt ig => exact ⟨fun _ => ⟨alpha, dt, ig, rfl⟩, fun _ => rfl⟩
  | putWord w => simp [hostAct, hv]
  | putElements elements => simp [hostAct, hv]
  | drain n => simp [hostAct, hv]

end Sys2Proof.Machine
end

section
/-! Command words and steps (30_encoding.md R71 to R76, R82; 60_exceptions.md R171, R172): the two directions of the
encoding, and which packets a number of steps takes. -/

namespace Sys2Proof

theorem Instr.wf_iff (i : Instr) : i.wf = true ↔ i.len ≤ maxLen := by
  cases i <;> simp [Instr.wf, Instr.len]

theorem decodeWord_encodeInstr {i : Instr} (h : i.wf = true) : decodeWord (encodeInstr i) = .command i := by
  have hop : opField (encodeInstr i) = i.op := opField_commandWord _ _
  have hlen : lenField (encodeInstr i) = i.len := lenField_commandWord _ (i.wf_iff.1 h)
  cases i <;> simp [decodeWord, hop, hlen, Instr.op, Instr.len]

/-- No bit of a word is dropped when it is decoded. -/
theorem encodeInstr_of_decodeWord {w : CmdWord} {i : Instr} (h : decodeWord w = .command i) :
    i.wf = true ∧ encodeInstr i = w := by
  have hlen := len_of_decodeWord h
  refine ⟨i.wf_iff.2 (hlen ▸ lenField_le w), ?_⟩
  rw [encodeInstr, op_of_decodeWord h, hlen, commandWord_fields]

/-- Settles O1, both directions through the two fields of the word. -/
theorem decodeAndEncodeAgree : Obligations.DecodeAndEncodeAgree :=
  ⟨fun _ => decodeWord_encodeInstr, fun _ _ => encodeInstr_of_decodeWord⟩

end Sys2Proof

namespace Sys2Proof.Machine

open Sys2Proof.Claims

/-- Settles O3: the listings and the words are computed, and the two reserved words run by name. -/
theorem workedEncodings : Obligations.WorkedEncodings := by
  refine ⟨by decide, by decide, by decide, by decide, by decide, by decide, by decide, by decide, by decide, by decide,
    by decide, by decide, by decide, by decide, by decide, by decide, by decide, by decide, fun s hcmd hdin => ?_,
    fun s hcmd hdin => ?_⟩
  · exact step_of_supplied_reserved (kind := .unassignedOp) hcmd (by decide) (by rw [Supplied, hdin]; decide)
  · exact step_of_supplied_reserved (kind := .presetWithOperand) hcmd (by decide) (by rw [Supplied, hdin]; decide)

/-- Settles O5: the step is exec of the decoded command, which takes its packet whatever it answers. -/
theorem stepRunsTheDecodedCommand : Obligations.StepRunsTheDecodedCommand := by
  intro s w rest i hcmd hd
  refine ⟨step_of_command hcmd hd, fun hl => ?_⟩
  rw [Supplied, len_of_decodeWord hd] at hl
  rw [← step_of_command hcmd hd]
  exact step_of_supplied hcmd hl

/-- Settles O6. -/
theorem idleUnitKeepsItsState : Obligations.IdleUnitKeepsItsState := fun _ => step_of_empty

/-- Settles O8: an idle step, and a step on a word, which is a packet run whole or waited for. -/
theorem everyStepAnswersANextState : Obligations.EveryStepAnswersANextState := by
  intro s
  cases hcmd : s.cmd with
  | nil => exact ⟨s, step_of_empty hcmd⟩
  | cons w rest =>
    obtain ⟨body, hbody⟩ := step_of_word hcmd
    rw [hbody]
    exact runCommand_next _ _ _

theorem runSteps_succ_of_step {n : Nat} {s t : State} (h : step s = .next t) : runSteps (n + 1) s = runSteps n t := by
  rw [runSteps, h]

theorem runSteps_of_fixed {s : State} (h : step s = .next s) (n : Nat) : runSteps n s = .next s := by
  induction n with
  | zero => rfl
  | succ n ih => rw [runSteps_succ_of_step h, ih]

/-- Settles O7: a waiting step is the identity, and with the missing elements the word's packet is whole. -/
theorem undersuppliedCommandWaits : Obligations.UndersuppliedCommandWaits := by
  refine fun s w rest hcmd hfew => ⟨runSteps_of_fixed (step_of_undersupplied hcmd hfew), fun more hmore => ?_⟩
  exact step_of_supplied (s := hostAct (.putElements more) s) hcmd (by simpa [hostAct] using hmore)

/-- Settles O9, by induction on the number of steps. -/
theorem packetsAreConsumedInOrder : Obligations.PacketsAreConsumedInOrder := by
  intro s n
  induction n generalizing s with
  | zero => exact fun _ _ => ⟨s, rfl, rfl, rfl⟩
  | succ n ih =>
    intro hcount hsupply
    cases hcmd : s.cmd with
    | nil => simp [hcmd] at hcount
    | cons w rest =>
      simp only [hcmd, List.length_cons, List.map_cons, List.sum_cons] at hcount hsupply
      obtain ⟨t, ht, hrest, hdin⟩ := step_of_supplied hcmd (by omega)
      obtain ⟨u, hu, hcmd', hdin'⟩ := ih t (by rw [hrest]; omega) (by rw [hrest, hdin, List.length_drop]; omega)
      refine ⟨u, (runSteps_succ_of_step ht).trans hu, by rw [hcmd', hrest, List.drop_succ_cons], ?_⟩
      rw [hdin', hdin, hrest, List.drop_drop, List.take_succ_cons, List.map_cons, List.sum_cons]

/-! ### Whole packets -/

theorem transact_answers {p : Packet} (h : packetWhole p = true) (s : State) : ∃ t r, transact p s = .next (t, r) := by
  obtain ⟨t, ht⟩ := everyStepAnswersANextState (putPacket p s)
  exact ⟨_, _, transact_of_step h ht⟩

theorem runPackets_answers {ps : List Packet} (h : ∀ p ∈ ps, packetWhole p = true) (s : State) :
    ∃ t rs, runPackets s ps = .next (t, rs) ∧ rs.length = ps.length := by
  induction ps generalizing s with
  | nil => exact ⟨s, [], rfl, rfl⟩
  | cons p rest ih =>
    obtain ⟨hp, hrest⟩ := List.forall_mem_cons.1 h
    obtain ⟨t, r, ht⟩ := transact_answers hp s
    obtain ⟨u, rs, hu, hlen⟩ := ih hrest t
    exact ⟨u, r :: rs, runPackets_of_next ht hu, congrArg Nat.succ hlen⟩

/-- One malformed packet anywhere in a run has the run refused. -/
theorem runPackets_refused {ps : List Packet} (h : ∃ p ∈ ps, packetWhole p = false) (s : State) :
    runPackets s ps = .refused .malformedPacket := by
  induction ps generalizing s with
  | nil => simp at h
  | cons p rest ih =>
    cases hp : packetWhole p with
    | false => exact runPackets_of_malformed hp s rest
    | true =>
      obtain ⟨q, hq, hbad⟩ := h
      rcases List.mem_cons.1 hq with rfl | hq
      · rw [hp] at hbad
        cases hbad
      · obtain ⟨t, r, ht⟩ := transact_answers hp s
        exact runPackets_of_refused ht (ih ⟨q, hq, hbad⟩ t)

/-- A command's own word counts its operand exactly when LEN can (R72). -/
theorem packetWhole_encodeInstr {i : Instr} {es : List Byte} (h : es.length = i.len) :
    packetWhole ⟨encodeInstr i, es⟩ = true ↔ es.length ≤ maxLen := by
  rw [packetWhole_iff]
  constructor
  · intro hwhole
    rw [hwhole]
    exact lenField_le _
  · intro hfits
    rw [h] at hfits ⊢
    exact (lenField_commandWord _ hfits).symm

/-- Settles O58: a run of whole packets answers, one with a malformed packet is refused, and there is no third run. -/
theorem runsRefuseMalformedPackets : Obligations.RunsRefuseMalformedPackets := by
  have answers : ∀ (s : State) (ps : List Packet), (∀ p ∈ ps, p.elements.length = lenField p.word) →
      ∃ t rs, runPackets s ps = .next (t, rs) ∧ rs.length = ps.length := fun s ps h =>
    runPackets_answers (fun p hp => packetWhole_iff.2 (h p hp)) s
  refine ⟨fun s ps => ⟨fun hrefused => ?_, fun ⟨p, hp, hbad⟩ => ?_⟩, answers, fun i es => packetWhole_encodeInstr⟩
  · by_contra hnone
    obtain ⟨t, rs, hnext, -⟩ := answers s ps fun p hp => not_not.1 fun hbad => hnone ⟨p, hp, hbad⟩
    cases hrefused.symm.trans hnext
  · exact runPackets_refused ⟨p, hp, Bool.eq_false_iff.2 (mt packetWhole_iff.1 hbad)⟩ s

end Sys2Proof.Machine
end

section
/-! ENCODE and DECODE under one configuration (42_decode.md R149, R150): the symbol values of a text of canonical
characters, the round trip from bytes, and the texts for which there is one from text. -/

namespace Sys2Proof.Machine

open Sys2Proof.Claims

/-! ### Which answers the two commands give -/

theorem okState_inj {c : Codec} {out out' : List Byte} {len : Nat} {s : State} :
    okState c out len s = okState c out' len s ↔ out = out' :=
  ⟨fun h => List.append_cancel_left (congrArg State.dout h), fun h => h ▸ rfl⟩

theorem exec_encode_eq_okState_iff {len : Nat} {s : State} {text : List Byte} (hv : s.codec.valid = true)
    (hl : Supplied len s) :
    exec (.encode len) s = .next (okState s.codec text len s) ↔ encodeText s.codec (s.din.take len) = text := by
  rw [exec_encode_of_valid hv hl, Host.Outcome.next.injEq, okState_inj]

theorem exec_decode_eq_okState_iff {len : Nat} {s : State} {out : List Byte} (hl : Supplied len s) :
    exec (.decode len) s = .next (okState s.codec out len s) ↔ decodeText s.codec (s.din.take len) = .ok out := by
  refine ⟨fun h => ?_, exec_decode_of_ok hl⟩
  obtain ⟨c, out', hb, heq⟩ := exec_of_code_zero h hl (statusCodeField_okState ..)
  obtain ⟨rfl, hdecode⟩ := produced_eq_ok.1 hb
  rw [okState_inj.1 heq]
  exact hdecode

theorem decodeText_eq_ok_iff {c : Codec} {text out : List Byte} (hv : c.valid = true) :
    decodeText c text = .ok out ↔
      (∀ ch ∈ text, ¬ Invalid c ch) ∧ valueBytes c.bps.toNat (textValues c text) = out := by
  constructor
  · intro h
    have hvalid : ∀ ch ∈ text, ¬ Invalid c ch := fun ch hch hc =>
      (decodeText_eq_ok.1 h).2.1 ch hch (classify_eq_invalid_iff.2 hc)
    rw [decodeText_of_noneInvalid hv hvalid] at h
    exact ⟨hvalid, Except.ok.inj h⟩
  · rintro ⟨hvalid, rfl⟩
    exact decodeText_of_noneInvalid hv hvalid

/-- A stream that is zero behind its whole bytes, and as long as ENCODE would make it, is the padded stream of those. -/
theorem paddedStream_valueBytes {B : Nat} (hB : 1 ≤ B) {values : List Symbol}
    (hlen : values.length = symbolCount B (valueBytes B values).length)
    (hzero : ∀ o, 8 * (valueBytes B values).length ≤ o → o < values.length * B → valueBit B values o = 0) :
    paddedStream B (valueBytes B values) = symbolStream B values := by
  have hcount := symbolCount_mul_eq hB (valueBytes B values).length
  rw [← hlen] at hcount
  have htail : (symbolStream B values).drop (8 * (valueBytes B values).length) =
      List.replicate (paddingBits B (valueBytes B values).length) false := by
    refine List.eq_replicate_iff.2 ⟨by rw [List.length_drop, symbolStream_length]; omega, fun b hb => ?_⟩
    obtain ⟨j, hj⟩ := List.mem_iff_getElem?.1 hb
    rw [List.getElem?_drop] at hj
    have hroom := (List.getElem?_eq_some_iff.1 hj).1
    rw [symbolStream_length] at hroom
    have hbit := hzero _ (Nat.le_add_right _ j) hroom
    rw [← symbolStream_getD hB, List.getD_eq_getElem?_getD, hj] at hbit
    exact Bool.toNat_eq_zero.1 hbit
  conv_rhs => rw [← List.take_append_drop (8 * (valueBytes B values).length) (symbolStream B values), htail]
  rw [paddedStream, byteStream_valueBytes, valueBytes_length, Nat.mul_comm 8]

/-! ### Canonical characters -/

theorem elementValue_eq_some {c : Codec} {ch : Byte} {v : Symbol} :
    elementValue c ch = some v ↔ c.readIg (ch.setWidth 7) = false ∧ c.readDt (ch.setWidth 7) = .mapped v := by
  unfold elementValue
  cases c.readIg (ch.setWidth 7) <;> cases c.readDt (ch.setWidth 7) <;> simp

/-- A canonical character of a configuration: one that ENCODE can output. -/
def Canonical (c : Codec) (ch : Byte) : Prop :=
  ∃ v : Symbol, v.toNat < c.size ∧ ch = (c.readAlpha v).setWidth 8

section

variable {c : Codec} (hw : c.Wf) (hv : c.valid = true)

include hw hv

theorem Codec.Wf.not_ignored_of_mapped {i : Code7} {v : Symbol} (h : c.readDt i = .mapped v) : c.readIg i = false := by
  refine Bool.eq_false_iff.2 fun hig => ?_
  cases h.symm.trans (hw.ignored_unmapped hv i hig)

theorem elementValue_canonical {v : Symbol} (hlt : v.toNat < c.size) :
    elementValue c ((c.readAlpha v).setWidth 8) = some v := by
  have hdt := hw.canonical_mapped hv v hlt
  rw [elementValue_eq_some, ← tableIndex_eq, tableIndex_setWidth]
  exact ⟨hw.not_ignored_of_mapped hv hdt, hdt⟩

theorem canonical_not_invalid {ch : Byte} (h : Canonical c ch) : ¬ Invalid c ch := by
  obtain ⟨v, hlt, rfl⟩ := h
  have hascii := (isAscii_iff _).1 (isAscii_setWidth (c.readAlpha v))
  have hdt := (elementValue_eq_some.1 (elementValue_canonical hw hv hlt)).2
  rintro (hbig | ⟨-, hunmapped⟩)
  · omega
  · cases hunmapped.symm.trans hdt

/-- The characters of a text of canonical characters are those of its symbol values. -/
theorem map_textValues_of_canonical {text : List Byte} (h : ∀ ch ∈ text, Canonical c ch) :
    (textValues c text).map (fun v => (c.readAlpha v).setWidth 8) = text := by
  induction text with
  | nil => rfl
  | cons ch rest ih =>
    obtain ⟨⟨v, hlt, rfl⟩, hrest⟩ := List.forall_mem_cons.1 h
    have hhead : textValues c ((c.readAlpha v).setWidth 8 :: rest) = v :: textValues c rest :=
      List.filterMap_cons_some (elementValue_canonical hw hv hlt)
    rw [hhead, List.map_cons, ih hrest]

theorem textValues_lt {text : List Byte} {v : Symbol} (h : v ∈ textValues c text) : v.toNat < 2 ^ c.bps.toNat := by
  obtain ⟨ch, -, hch⟩ := List.mem_filterMap.1 h
  exact hw.values_below hv _ v (elementValue_eq_some.1 hch).2

/-! ### From bytes to text and back -/

theorem textValues_encodeText (data : List Byte) :
    textValues c (encodeText c data) = (symbolValues c.bps.toNat data).map (BitVec.ofNat 7) := by
  rw [textValues, encodeText, List.filterMap_map, ← List.filterMap_eq_map]
  refine List.filterMap_congr fun n hn => ?_
  obtain ⟨htoNat, hlt⟩ := toNat_symbolValue hn
  exact elementValue_canonical hw hv (htoNat.symm ▸ hlt)

/-- The text's stream is the buffer's bits and less than a byte of padding, so its whole bytes are the buffer (R149). -/
theorem decodeText_encodeText (data : List Byte) : decodeText c (encodeText c data) = .ok data := by
  have hB := hw.bps_pos hv
  rw [decodeText_eq_ok_iff hv, textValues_encodeText hw hv]
  refine ⟨fun ch hch => canonical_not_invalid hw hv (mem_encodeText hch), ?_⟩
  refine valueBytes_of_stream (symbolStream_symbolValues hB (bps_le c) data) ?_
  have hpad := paddingBits_lt hB data.length
  have hmax := bps_le c
  rw [List.length_replicate]
  omega

/-! ### From text to bytes and back -/

/-- Behind the buffer's bits a text that ENCODE gives has zeros. -/
theorem valueBit_encodeText {data : List Byte} {o : Nat} (h : 8 * data.length ≤ o) :
    valueBit c.bps.toNat (textValues c (encodeText c data)) o = 0 := by
  have hnone : data[o / 8]? = none := List.getElem?_eq_none (by omega)
  rw [textValues_encodeText hw hv, ← symbolStream_getD (hw.bps_pos hv),
    symbolStream_symbolValues (hw.bps_pos hv) (bps_le c), paddedStream_getD, streamBit, hnone]

/-- ENCODE of a text's bytes gives the text exactly when ENCODE can give it at all (R150). -/
theorem encodeText_valueBytes_eq_iff (text : List Byte) :
    encodeText c (valueBytes c.bps.toNat (textValues c text)) = text ↔
      (∀ ch ∈ text, Canonical c ch) ∧
      text.length = symbolCount c.bps.toNat (valueBytes c.bps.toNat (textValues c text)).length ∧
      ∀ o, 8 * (valueBytes c.bps.toNat (textValues c text)).length ≤ o → o < text.length * c.bps.toNat →
        valueBit c.bps.toNat (textValues c text) o = 0 := by
  have hB := hw.bps_pos hv
  constructor
  · intro h
    refine ⟨fun ch hch => mem_encodeText (h.symm ▸ hch), ?_, fun o hbehind _ => ?_⟩
    · rw [← encodeText_length, h]
    · have hbit := valueBit_encodeText hw hv hbehind
      rwa [h] at hbit
  · rintro ⟨hcanonical, hlen, hzero⟩
    have htext := map_textValues_of_canonical hw hv hcanonical
    have hcount : (textValues c text).length = text.length := by rw [← List.length_map, htext]
    rw [← hcount] at hlen hzero
    have hstream := paddedStream_valueBytes hB hlen hzero
    rw [← symbolStream_symbolValues hB (bps_le c)] at hstream
    have hvalues := symbolStream_inj hB (fun v hmem => ?_) (fun v => textValues_lt hw hv) hstream
    · conv_rhs => rw [← htext, ← hvalues, List.map_map]
      rfl
    · obtain ⟨n, hn, rfl⟩ := List.mem_map.1 hmem
      obtain ⟨htoNat, hlt⟩ := toNat_symbolValue hn
      exact htoNat.symm ▸ hlt

end

/-- Settles O42: a reachable configuration keeps the invariants, under which DECODE undoes ENCODE. -/
theorem decodeOfEncodeIsTheBuffer : Obligations.DecodeOfEncodeIsTheBuffer := by
  intro len s hr hv hl hmax hfits
  refine ⟨_, exec_encode_of_valid hv hl, ?_, fun u hcodec hlu htake => exec_decode_of_ok hlu ?_⟩
  · rw [encodeText_length, take_length_of_supplied hl]
    exact hfits
  · rw [htake, hcodec]
    exact decodeText_encodeText hr.wf.codec hv _

/-- Settles O43: under a reachable configuration, from the condition for ENCODE to give a text again. -/
theorem encodeOfDecodeIsTheTextExactlyWhen : Obligations.EncodeOfDecodeIsTheTextExactlyWhen := by
  intro len s bytes hr hv hl hdecode u hcodec hlu htake
  obtain ⟨-, rfl⟩ := (decodeText_eq_ok_iff hv).1 ((exec_decode_eq_okState_iff hl).1 hdecode)
  rw [exec_encode_eq_okState_iff (hcodec.symm ▸ hv) hlu, htake, hcodec,
    encodeText_valueBytes_eq_iff hr.wf.codec hv, take_length_of_supplied hl]
  rfl

end Sys2Proof.Machine
end

section
/-! The command sequence of PRESET.B32CI (40_configuration.md R97, R98): no command after a CREATE reads ALPHA, so the
sequence is accepted from any state exactly when the parameters are legal; and a run of configuring commands on a quiet
unit does what their bodies do one after the other. -/

namespace Sys2Proof.Machine

open Sys2Proof.Claims

/-! ### ADDSYN and IGNORE do not read ALPHA -/

section

variable (alpha : Vector Code7 128)

theorem mapSynonyms_withAlpha (v : Symbol) (c : Codec) (synonyms : List Byte) :
    mapSynonyms v { c with alpha := alpha } synonyms = { mapSynonyms v c synonyms with alpha := alpha } := by
  induction synonyms generalizing c with
  | nil => rfl
  | cons ch rest ih => exact ih (c.writeDt (tableIndex ch) (.mapped v))

theorem setIgnored_withAlpha (c : Codec) (din : List Byte) :
    setIgnored { c with alpha := alpha } din = { setIgnored c din with alpha := alpha } := by
  induction din generalizing c with
  | nil => rfl
  | cons ch rest ih => exact ih (c.writeIg (tableIndex ch) true)

theorem addSynonyms_withAlpha (c : Codec) (din : List Byte) :
    addSynonyms { c with alpha := alpha } din = (addSynonyms c din).map fun d => { d with alpha := alpha } := by
  have hdt : Codec.readDt { c with alpha := alpha } = c.readDt := rfl
  have hconflicts : synonymConflicts { c with alpha := alpha } = synonymConflicts c := rfl
  simp only [addSynonyms, hdt, hconflicts, mapSynonyms_withAlpha]
  split
  · rfl
  · split
    · rfl
    · split
      · rfl
      · split
        · rfl
        · split <;> rfl

theorem ignoreCharacters_withAlpha (c : Codec) (din : List Byte) :
    ignoreCharacters { c with alpha := alpha } din =
      (ignoreCharacters c din).map fun d => { d with alpha := alpha } := by
  have hmapped : isMapped { c with alpha := alpha } = isMapped c := rfl
  simp only [ignoreCharacters, hmapped, setIgnored_withAlpha]
  split
  · rfl
  · split
    · rfl
    · split <;> rfl

theorem specsAccepted_withAlpha (c : Codec) (specs : List (List Byte)) :
    specsAccepted { c with alpha := alpha } specs = specsAccepted c specs := by
  induction specs generalizing c with
  | nil => rfl
  | cons spec rest ih =>
    rw [specsAccepted, specsAccepted, addSynonyms_withAlpha]
    cases addSynonyms c spec with
    | ok d => exact ih d
    | error r => rfl

theorem afterSpecs_withAlpha (c : Codec) (specs : List (List Byte)) :
    afterSpecs { c with alpha := alpha } specs = { afterSpecs c specs with alpha := alpha } := by
  induction specs generalizing c with
  | nil => rfl
  | cons spec rest ih =>
    rw [afterSpecs_cons, afterSpecs_cons, addSynonyms_withAlpha]
    cases addSynonyms c spec with
    | ok d => exact ih d
    | error r => exact ih c

end

/-! ### The specs of the preset from any configuration -/

/-- Two CREATEs of one alphabet differ in ALPHA at most. -/
theorem createCommit_eq_withAlpha (c d : Codec) (din : List Byte) :
    createCommit c din = { createCommit d din with alpha := (createCommit c din).alpha } := by
  refine codec_ext ?_ ?_ (fun v => rfl) (fun i => ?_) fun i => ?_
  · exact (createCommit_valid c din).trans (createCommit_valid d din).symm
  · exact (createCommit_bps c din).trans (createCommit_bps d din).symm
  · simp only [Codec.readDt, createCommit_dt_congr c d]
  · simp only [Codec.readIg, createCommit_ig_congr c d]

/-- After the CREATE and the case specs a unit is as a blank one, but for ALPHA. -/
theorem caseSpecs_of_presetCreated (c : Codec) :
    specsAccepted (presetCreated c) caseSpecs = true ∧
      afterSpecs (presetCreated c) caseSpecs = { caseConfiguration with alpha := (presetCreated c).alpha } := by
  have hblank := caseSpecs_accepted
  rw [caseConfiguration]
  rw [presetCreated_eq] at hblank ⊢
  rw [presetCreated_eq, createCommit_eq_withAlpha c ⟨false, 0#3, Vector.replicate 128 0#7, emptyDt, emptyIg⟩,
    specsAccepted_withAlpha, afterSpecs_withAlpha]
  exact ⟨hblank, rfl⟩

/-- The specs of the preset are accepted from any configuration exactly when they are from a blank one. -/
theorem specsAccepted_presetCreated (p : PresetParams) (c : Codec) :
    specsAccepted (presetCreated c) (caseSpecs ++ p.confusables) = specsAccepted caseConfiguration p.confusables := by
  obtain ⟨haccepted, hafter⟩ := caseSpecs_of_presetCreated c
  rw [specsAccepted_append, haccepted, hafter, specsAccepted_withAlpha, Bool.true_and]

theorem afterSpecs_presetCreated (p : PresetParams) (c : Codec) :
    afterSpecs (presetCreated c) (caseSpecs ++ p.confusables) =
      { afterSpecs caseConfiguration p.confusables with alpha := (presetCreated c).alpha } := by
  rw [afterSpecs_append, (caseSpecs_of_presetCreated c).2, afterSpecs_withAlpha]

/-! ### A sequence of commands -/

/-- The configuration after commands, each with its operand, of which every one completes with OK; none where one of
them raises. -/
def configureAll (c : Codec) : List (Instr × List Byte) → Option Codec
  | [] => some c
  | (i, operand) :: rest =>
    match commandBody i c operand with
    | .ok (d, _) => configureAll d rest
    | .error _ => none

theorem configureAll_cons_of_ok {i : Instr} {c d : Codec} {operand out : List Byte}
    (h : commandBody i c operand = .ok (d, out)) (rest : List (Instr × List Byte)) :
    configureAll c ((i, operand) :: rest) = configureAll d rest := by
  rw [configureAll, h]

theorem configureAll_cons_of_error {i : Instr} {c : Codec} {operand : List Byte} {r : Raised}
    (h : commandBody i c operand = .error r) (rest : List (Instr × List Byte)) :
    configureAll c ((i, operand) :: rest) = none := by
  rw [configureAll, h]

theorem configureAll_append (c : Codec) (first second : List (Instr × List Byte)) :
    configureAll c (first ++ second) = (configureAll c first).bind fun d => configureAll d second := by
  induction first generalizing c with
  | nil => rfl
  | cons command rest ih =>
    obtain ⟨i, operand⟩ := command
    rw [List.cons_append, configureAll, configureAll]
    cases commandBody i c operand with
    | ok p => exact ih p.1
    | error r => rfl

/-- A list of ADDSYNs is accepted as a sequence of commands when it is as a list of specs. -/
theorem configureAll_addsyns (c : Codec) (specs : List (List Byte)) :
    configureAll c (specs.map fun spec => (.addsyn spec.length, spec)) =
      if specsAccepted c specs = true then some (afterSpecs c specs) else none := by
  induction specs generalizing c with
  | nil => rfl
  | cons spec rest ih =>
    rw [List.map_cons, specsAccepted, afterSpecs_cons]
    cases h : addSynonyms c spec with
    | ok d =>
      rw [configureAll_cons_of_ok (i := .addsyn _) (configured_eq_ok.2 ⟨h, rfl⟩)]
      exact ih d
    | error r =>
      rw [configureAll_cons_of_error (i := .addsyn _) (configured_eq_error.2 h)]
      rfl

theorem configureAll_ignore (c : Codec) (din : List Byte) :
    configureAll c [(.ignore din.length, din)] = (ignoreCharacters c din).toOption := by
  cases h : ignoreCharacters c din with
  | ok d => exact configureAll_cons_of_ok (i := .ignore _) (configured_eq_ok.2 ⟨h, rfl⟩) []
  | error r => exact configureAll_cons_of_error (i := .ignore _) (configured_eq_error.2 h) []

/-- The packet in which the host issues a command with its operand. -/
def commandPacket (command : Instr × List Byte) : Packet := ⟨encodeInstr command.1, command.2⟩

/-- The operand is as long as the command says, and LEN can count it. -/
def Issuable (command : Instr × List Byte) : Prop :=
  command.2.length = command.1.len ∧ command.1.len ≤ maxLen

/-- A command issued to a quiet unit runs on its own operand and leaves the unit quiet. -/
theorem transact_command {i : Instr} {operand : List Byte} {s : State} (hq : Quiet s) (h : Issuable (i, operand)) :
    ∃ t u, transact (commandPacket (i, operand)) s = .next (t, resultRecord u) ∧ Quiet t ∧ t.codec = u.codec ∧
      ((statusCodeField u.status = 0#4 ∧ ∃ out, commandBody i s.codec operand = .ok (u.codec, out)) ∨
        (statusCodeField u.status ≠ 0#4 ∧ ∃ r, commandBody i s.codec operand = .error r)) := by
  obtain ⟨hcmd, hdin, hdout⟩ := hq
  obtain ⟨hlen, hmax⟩ := h
  have hfield : lenField (encodeInstr i) = i.len := lenField_commandWord _ hmax
  have hwhole : packetWhole (commandPacket (i, operand)) = true := packetWhole_iff.2 (hlen.trans hfield.symm)
  have hdin' : (putPacket (commandPacket (i, operand)) s).din = operand := by
    rw [putPacket_din, hdin]
    rfl
  have hcmd' : (putPacket (commandPacket (i, operand)) s).cmd = [encodeInstr i] := by
    rw [putPacket_cmd, hcmd]
    rfl
  have hl : Supplied i.len (putPacket (commandPacket (i, operand)) s) := by
    rw [Supplied, hdin']
    exact hlen.ge
  obtain ⟨u, out, hstep, hcmdu, hdinu, hdoutu, hcount⟩ := step_of_supplied_output hcmd' (hfield.symm ▸ hl)
  have hexec : exec i (putPacket (commandPacket (i, operand)) s) = .next u := by
    rw [← hstep, step_of_command hcmd' (decodeWord_encodeInstr (i.wf_iff.2 hmax))]
  rw [putPacket_dout, hdout, List.nil_append] at hdoutu
  rw [hdin', hfield] at hdinu
  refine ⟨_, u, transact_of_step hwhole hstep, ⟨hcmdu, ?_, ?_⟩, rfl, ?_⟩
  · rw [drainDout_din, hdinu, List.drop_eq_nil_of_le hlen.le]
  · rw [drainDout_dout, hdoutu, hcount, List.drop_length]
  · have hoperand : (putPacket (commandPacket (i, operand)) s).din.take i.len = operand := by
      rw [hdin', List.take_of_length_le hlen.le]
    rcases exec_supplied_cases hexec hl with ⟨hzero, c, out', hb, rfl⟩ | ⟨hcode, r, hb, -⟩
    · rw [hoperand] at hb
      exact .inl ⟨hzero, out', hb⟩
    · rw [hoperand] at hb
      exact .inr ⟨hcode, r, hb⟩

/-- A run of commands on a quiet unit: one record for each; all with code 0 exactly when the sequence is accepted, and
then the configuration is the one it leaves. -/
theorem runPackets_commands {commands : List (Instr × List Byte)} {s : State} (hq : Quiet s)
    (h : ∀ command ∈ commands, Issuable command) :
    ∃ t rs, runPackets s (commands.map commandPacket) = .next (t, rs) ∧ rs.length = commands.length ∧
      ((∀ r ∈ rs, statusCodeField r.status = 0#4) ↔ ∃ c, configureAll s.codec commands = some c) ∧
      ∀ c, configureAll s.codec commands = some c → t.codec = c := by
  induction commands generalizing s with
  | nil => exact ⟨s, [], rfl, rfl, ⟨fun _ => ⟨_, rfl⟩, fun _ => nofun⟩, fun _ => Option.some.inj⟩
  | cons command rest ih =>
    obtain ⟨i, operand⟩ := command
    obtain ⟨hi, hrest⟩ := List.forall_mem_cons.1 h
    obtain ⟨t, u, htransact, hqt, hcodec, hcases⟩ := transact_command hq hi
    obtain ⟨v, rs, hrun, hlen, haccepted, hleft⟩ := ih hqt hrest
    refine ⟨v, resultRecord u :: rs, runPackets_of_next htransact hrun, congrArg Nat.succ hlen, ?_⟩
    rw [List.forall_mem_cons]
    rcases hcases with ⟨hzero, out, hb⟩ | ⟨hcode, r, hb⟩
    · rw [configureAll_cons_of_ok hb, ← hcodec]
      exact ⟨(and_iff_right hzero).trans haccepted, hleft⟩
    · rw [configureAll_cons_of_error hb]
      exact ⟨⟨fun hall => absurd hall.1 hcode, nofun⟩, nofun⟩

/-! ### The preset's sequence -/

/-- The commands of R97 with their operands, for a value of the two parameters. -/
def presetCommands (p : PresetParams) : List (Instr × List Byte) :=
  (.create base32Alphabet.length, base32Alphabet) ::
    ((caseSpecs ++ p.confusables).map (fun spec => (.addsyn spec.length, spec)) ++
      [(.ignore p.ignored.length, p.ignored)])

theorem presetPackets_eq (p : PresetParams) : presetPackets p = (presetCommands p).map commandPacket := by
  simp [presetPackets, presetCommands, commandPacket, assemble, Function.comp_def]

theorem presetCommands_length (p : PresetParams) : (presetCommands p).length = 28 + p.confusables.length := by
  have hcase : caseSpecs.length = 26 := by decide
  simp only [presetCommands, List.length_cons, List.length_append, List.length_map, List.length_nil, hcase]
  omega

theorem presetCommands_issuable {p : PresetParams} (hspecs : ∀ spec ∈ p.confusables, spec.length ≤ maxLen)
    (hignored : p.ignored.length ≤ maxLen) : ∀ command ∈ presetCommands p, Issuable command := by
  have hcase : ∀ spec ∈ caseSpecs, spec.length ≤ maxLen := by decide
  intro command hcommand
  rcases List.mem_cons.1 hcommand with rfl | hcommand
  · exact ⟨rfl, by decide⟩
  · rcases List.mem_append.1 hcommand with hspec | hlast
    · obtain ⟨spec, hmem, rfl⟩ := List.mem_map.1 hspec
      exact ⟨rfl, (List.mem_append.1 hmem).elim (hcase spec) (hspecs spec)⟩
    · rw [List.mem_singleton.1 hlast]
      exact ⟨rfl, hignored⟩

/-- The sequence is accepted exactly for a legal value, and leaves then what PRESET.B32CI writes (R97, R98). -/
theorem configureAll_presetCommands (p : PresetParams) (c : Codec) :
    configureAll c (presetCommands p) = if presetLegal p = true then some (presetConfiguration p c) else none := by
  have hcreate : createAlphabet c base32Alphabet = .ok (presetCreated c) := by
    rw [presetCreated_eq]
    exact createAlphabet_eq_ok.2 ⟨by decide, by decide, by decide, rfl⟩
  have hleft : presetConfiguration p c =
      afterCommand { afterSpecs caseConfiguration p.confusables with alpha := (presetCreated c).alpha }
        (ignoreCharacters { afterSpecs caseConfiguration p.confusables with alpha := (presetCreated c).alpha }
          p.ignored) := by
    rw [(presetConfiguration_wf p c).2, ← afterSpecs_presetCreated, afterSpecs_append]
    rfl
  rw [presetCommands, configureAll_cons_of_ok (i := .create _) (configured_eq_ok.2 ⟨hcreate, rfl⟩),
    configureAll_append, configureAll_addsyns, specsAccepted_presetCreated, afterSpecs_presetCreated, hleft,
    presetLegal]
  generalize presetCreated c = d
  generalize caseConfiguration = z
  cases specsAccepted z p.confusables with
  | false => rfl
  | true =>
    rw [if_pos rfl, Option.bind_some, configureAll_ignore, ignoreCharacters_withAlpha]
    cases ignoreCharacters (afterSpecs z p.confusables) p.ignored <;> rfl

theorem execPresetWith_eq (p : PresetParams) (s : State) :
    execPresetWith p s = .next (okState (presetConfiguration p s.codec) [] 0 s) :=
  runCommand_ok (Nat.zero_le _) rfl

/-- A run of the preset's packets on a quiet unit: code 0 throughout exactly for a legal value. -/
theorem runPackets_preset {p : PresetParams} {s : State} (hq : Quiet s)
    (hspecs : ∀ spec ∈ p.confusables, spec.length ≤ maxLen) (hignored : p.ignored.length ≤ maxLen) :
    ∃ t rs, runPackets s (presetPackets p) = .next (t, rs) ∧ rs.length = 28 + p.confusables.length ∧
      ((∀ r ∈ rs, statusCodeField r.status = 0#4) ↔ presetLegal p = true) ∧
      (presetLegal p = true → t.codec = presetConfiguration p s.codec) := by
  obtain ⟨t, rs, hrun, hlen, haccepted, hleft⟩ :=
    runPackets_commands hq (presetCommands_issuable hspecs hignored)
  rw [← presetPackets_eq] at hrun
  rw [presetCommands_length] at hlen
  rw [configureAll_presetCommands] at haccepted hleft
  refine ⟨t, rs, hrun, hlen, haccepted.trans ?_, fun hlegal => hleft _ (if_pos hlegal)⟩
  cases presetLegal p <;> simp

/-- Settles O16: each command of the run does what its body does on the configuration before it. -/
theorem presetEqualsItsSequence : Obligations.PresetEqualsItsSequence := by
  intro p s hlegal hq hspecs hignored
  obtain ⟨t, rs, hrun, hlen, hcodes, hcodec⟩ := runPackets_preset hq hspecs hignored
  exact ⟨t, _, rs, hrun, execPresetWith_eq p s, hcodec hlegal, hlen, hcodes.2 hlegal⟩

end Sys2Proof.Machine
end

section
/-! The tables that PRESET.B32CI leaves (40_configuration.md R97, R99) and what R98 asks of a legal value of its
parameters. -/

namespace Sys2Proof.Machine

open Sys2Proof.Claims

/-! ### The case configuration, by character -/

theorem base32Alphabet_letter : ∀ k < 26, base32Alphabet[k]? = some (BitVec.ofNat 8 (0x41 + k)) := by decide

theorem base32Alphabet_digit : ∀ k < 6, base32Alphabet[26 + k]? = some (BitVec.ofNat 8 (0x32 + k)) := by decide

theorem caseConfiguration_upper {i : Code7} (h : 0x41 ≤ i.toNat ∧ i.toNat ≤ 0x5A) :
    caseConfiguration.readDt i = .mapped (BitVec.ofNat 7 (i.toNat - 0x41)) := by
  rw [caseConfiguration_readDt, if_pos h]

theorem caseConfiguration_lower {i : Code7} (h : 0x61 ≤ i.toNat ∧ i.toNat ≤ 0x7A) :
    caseConfiguration.readDt i = .mapped (BitVec.ofNat 7 (i.toNat - 0x61)) := by
  rw [caseConfiguration_readDt, if_neg (by omega), if_pos h]

theorem caseConfiguration_digit {i : Code7} (h : 0x32 ≤ i.toNat ∧ i.toNat ≤ 0x37) :
    caseConfiguration.readDt i = .mapped (BitVec.ofNat 7 (i.toNat - 0x32 + 26)) := by
  rw [caseConfiguration_readDt, if_neg (by omega), if_neg (by omega), if_pos h]

/-- Nothing but the letters of both cases and the digits 2 to 7 is mapped after the case specs. -/
theorem caseConfiguration_mapped {i : Code7} (h : caseConfiguration.readDt i ≠ .unmapped) :
    (0x41 ≤ i.toNat ∧ i.toNat ≤ 0x5A) ∨ (0x61 ≤ i.toNat ∧ i.toNat ≤ 0x7A) ∨ (0x32 ≤ i.toNat ∧ i.toNat ≤ 0x37) := by
  by_contra hnone
  simp only [not_or] at hnone
  obtain ⟨hupper, hlower, hdigit⟩ := hnone
  exact h (by rw [caseConfiguration_readDt, if_neg hupper, if_neg hlower, if_neg hdigit])

theorem toNat_code7 {n : Nat} (h : n < 128) : (BitVec.ofNat 7 n).toNat = n :=
  BitVec.toNat_ofNat .. ▸ Nat.mod_eq_of_lt h

/-! ### The preset's tables -/

section

variable {p : PresetParams} (hlegal : presetLegal p = true) (c : Codec)

include hlegal

/-- The specs of the parameters change no mapping of the letters and digits. -/
theorem presetConfiguration_keeps_case {i : Code7} {v : Symbol} (h : caseConfiguration.readDt i = .mapped v) :
    (presetConfiguration p c).readDt i = .mapped v := by
  rw [(presetConfiguration_tables hlegal c).1]
  exact (specsAccepted_spec (presetLegal_spec hlegal).1).1 i v h

theorem presetConfiguration_letters {k : Nat} (hk : k < 26) :
    (presetConfiguration p c).readAlpha (BitVec.ofNat 7 k) = BitVec.ofNat 7 (0x41 + k) ∧
      (presetConfiguration p c).readDt (BitVec.ofNat 7 (0x41 + k)) = .mapped (BitVec.ofNat 7 k) ∧
      (presetConfiguration p c).readDt (BitVec.ofNat 7 (0x61 + k)) = .mapped (BitVec.ofNat 7 k) := by
  have hup : (BitVec.ofNat 7 (0x41 + k)).toNat = 0x41 + k := toNat_code7 (by omega)
  have hlow : (BitVec.ofNat 7 (0x61 + k)).toNat = 0x61 + k := toNat_code7 (by omega)
  refine ⟨?_, presetConfiguration_keeps_case hlegal c ?_, presetConfiguration_keeps_case hlegal c ?_⟩
  · rw [presetConfiguration_readAlpha, createCommit_readAlpha (by decide) (base32Alphabet_letter k hk)]
    exact (by decide : ∀ k < 26, tableIndex (BitVec.ofNat 8 (0x41 + k)) = BitVec.ofNat 7 (0x41 + k)) k hk
  · rw [caseConfiguration_upper (by omega), hup, Nat.add_sub_cancel_left]
  · rw [caseConfiguration_lower (by omega), hlow, Nat.add_sub_cancel_left]

theorem presetConfiguration_digits {k : Nat} (hk : k < 6) :
    (presetConfiguration p c).readAlpha (BitVec.ofNat 7 (26 + k)) = BitVec.ofNat 7 (0x32 + k) ∧
      (presetConfiguration p c).readDt (BitVec.ofNat 7 (0x32 + k)) = .mapped (BitVec.ofNat 7 (26 + k)) := by
  have hdigit : (BitVec.ofNat 7 (0x32 + k)).toNat = 0x32 + k := toNat_code7 (by omega)
  refine ⟨?_, presetConfiguration_keeps_case hlegal c ?_⟩
  · rw [presetConfiguration_readAlpha, createCommit_readAlpha (by decide) (base32Alphabet_digit k hk)]
    exact (by decide : ∀ k < 6, tableIndex (BitVec.ofNat 8 (0x32 + k)) = BitVec.ofNat 7 (0x32 + k)) k hk
  · rw [caseConfiguration_digit (by omega), hdigit, Nat.add_sub_cancel_left, Nat.add_comm k]

/-- A confusable spec maps as a whole to one value. -/
theorem presetConfiguration_spec {spec : List Byte} (h : spec ∈ p.confusables) :
    ∃ anchor synonyms v, spec = anchor :: synonyms ∧
      ∀ ch ∈ spec, (presetConfiguration p c).readDt (ch.setWidth 7) = .mapped v := by
  obtain ⟨-, anchor, synonyms, v, hspec, hall⟩ := (specsAccepted_spec (presetLegal_spec hlegal).1).2.1 spec h
  refine ⟨anchor, synonyms, v, hspec, fun ch hch => ?_⟩
  rw [(presetConfiguration_tables hlegal c).1, ← tableIndex_eq]
  exact hall ch hch

theorem presetConfiguration_mapped {i : Code7} (h : (presetConfiguration p c).readDt i ≠ .unmapped) :
    (0x41 ≤ i.toNat ∧ i.toNat ≤ 0x5A) ∨ (0x61 ≤ i.toNat ∧ i.toNat ≤ 0x7A) ∨
      (0x32 ≤ i.toNat ∧ i.toNat ≤ 0x37) ∨ ∃ spec ∈ p.confusables, ∃ ch ∈ spec, ch.setWidth 7 = i := by
  rw [(presetConfiguration_tables hlegal c).1] at h
  rcases (specsAccepted_spec (presetLegal_spec hlegal).1).2.2 i h with hcase | ⟨spec, hspec, ch, hch, he⟩
  · rcases caseConfiguration_mapped hcase with hupper | hlower | hdigit
    · exact .inl hupper
    · exact .inr (.inl hlower)
    · exact .inr (.inr (.inl hdigit))
  · exact .inr (.inr (.inr ⟨spec, hspec, ch, hch, tableIndex_eq ch ▸ he⟩))

theorem presetConfiguration_ignored (i : Code7) :
    (presetConfiguration p c).readIg i = true ↔ ∃ ch ∈ p.ignored, ch.setWidth 7 = i := by
  simp only [(presetConfiguration_tables hlegal c).2, tableIndex_eq]

/-- A confusable decodes as the letter or digit that is its anchor. -/
theorem presetConfiguration_synonym {anchor synonym : Byte} {v : Symbol} (h : [anchor, synonym] ∈ p.confusables)
    (hanchor : caseConfiguration.readDt (anchor.setWidth 7) = .mapped v) :
    (presetConfiguration p c).readDt (synonym.setWidth 7) = .mapped v := by
  obtain ⟨-, -, w, -, hall⟩ := presetConfiguration_spec hlegal c h
  have hkept := presetConfiguration_keeps_case hlegal c hanchor
  rw [hall synonym (by simp), ← hall anchor (by simp), hkept]

end

/-- Settles O15: PRESET.B32CI cannot raise, and its tables are read off the sequence that R97 gives. -/
theorem presetWritesItsTables : Obligations.PresetWritesItsTables := by
  refine ⟨⟨presetParams, presetParams_legal, fun s => ⟨rfl, _, execPresetWith_eq presetParams s,
    presetConfiguration_valid _ _, presetConfiguration_bps _ _⟩⟩, fun p s hlegal => ?_, fun s => ?_⟩
  · have hvalid := presetConfiguration_valid p s.codec
    have hbps := presetConfiguration_bps p s.codec
    refine ⟨_, execPresetWith_eq p s, hvalid, hbps, by rw [Codec.size, hbps]; rfl, ?_,
      fun k => presetConfiguration_letters hlegal s.codec, fun k => presetConfiguration_digits hlegal s.codec,
      fun spec => presetConfiguration_spec hlegal s.codec, fun i => presetConfiguration_mapped hlegal s.codec,
      presetConfiguration_ignored hlegal s.codec⟩
    rw [okState_status_of_valid hvalid, hbps]
    decide
  · refine ⟨_, execPresetWith_eq referencePreset s, ?_, ?_, fun i => ?_⟩
    · exact presetConfiguration_synonym (anchor := 0x4F#8) (synonym := 0x30#8) referencePreset_legal s.codec (by decide)
        (caseConfiguration_upper (by decide))
    · exact presetConfiguration_synonym (anchor := 0x49#8) (synonym := 0x31#8) referencePreset_legal s.codec (by decide)
        (caseConfiguration_upper (by decide))
    · have hnone := mt (presetConfiguration_ignored referencePreset_legal s.codec i).1 (by simp [referencePreset])
      exact Bool.eq_false_iff.2 hnone

/-! ### Legal values -/

/-- What accepted specs map beyond what was mapped are their later elements. -/
theorem specsAccepted_mapped {c : Codec} {specs : List (List Byte)} (h : specsAccepted c specs = true) {i : Code7}
    (hi : (afterSpecs c specs).readDt i ≠ .unmapped) :
    c.readDt i ≠ .unmapped ∨ ∃ spec ∈ specs, ∃ ch ∈ spec.drop 1, tableIndex ch = i := by
  induction specs generalizing c with
  | nil => exact .inl hi
  | cons spec rest ih =>
    rw [specsAccepted] at h
    rw [afterSpecs_cons] at hi
    cases hadd : addSynonyms c spec with
    | error r => rw [hadd] at h; cases h
    | ok d =>
      rw [hadd] at h hi
      rcases ih h hi with hd | ⟨later, hlater, hch⟩
      · obtain ⟨-, -, anchor, synonyms, v, rfl, -, -, rfl⟩ := addSynonyms_eq_ok.1 hadd
        rw [mapSynonyms_readDt] at hd
        split at hd
        case isTrue hmem => exact .inr ⟨_, List.mem_cons_self, hmem⟩
        case isFalse => exact .inl hd
      · exact .inr ⟨later, List.mem_cons_of_mem _ hlater, hch⟩

/-- Specs that stand first in a legal value are a legal value of their own. -/
theorem presetLegal_of_prefix {specs : List (List Byte)} (h : specsAccepted caseConfiguration specs = true) :
    presetLegal ⟨specs, []⟩ = true := by
  have hvalid : (afterSpecs caseConfiguration specs).valid = true := by
    rw [(afterSpecs_frame caseConfiguration specs).1, caseConfiguration, (afterSpecs_frame _ caseSpecs).1,
      presetCreated_eq, createCommit_valid]
  have hignore : ignoreCharacters (afterSpecs caseConfiguration specs) [] = .ok (afterSpecs caseConfiguration specs) :=
    ignoreCharacters_eq_ok.2 ⟨hvalid, nofun, nofun, rfl⟩
  rw [presetLegal, h, hignore]
  rfl

/-- A spec of a legal value is accepted on what the specs before it leave (R98). -/
theorem addSynonyms_of_legal {p : PresetParams} (hlegal : presetLegal p = true) {before behind : List (List Byte)}
    {spec : List Byte} (hsplit : p.confusables = before ++ spec :: behind) :
    specsAccepted caseConfiguration before = true ∧
      ∃ d, addSynonyms (afterSpecs caseConfiguration before) spec = .ok d := by
  have haccepted := (presetLegal_spec hlegal).1
  rw [hsplit, specsAccepted_append, Bool.and_eq_true, specsAccepted] at haccepted
  obtain ⟨hbefore, hspec⟩ := haccepted
  refine ⟨hbefore, ?_⟩
  cases hadd : addSynonyms (afterSpecs caseConfiguration before) spec with
  | ok d => exact ⟨d, rfl⟩
  | error r => rw [hadd] at hspec; cases hspec

/-- The anchor of a spec of a legal value (R98): a character of the case configuration, or an earlier synonym. -/
theorem anchor_of_legal {p : PresetParams} (hlegal : presetLegal p = true) {before behind : List (List Byte)}
    {anchor : Byte} {synonyms : List Byte} (hsplit : p.confusables = before ++ (anchor :: synonyms) :: behind) :
    (0x41 ≤ anchor.toNat ∧ anchor.toNat ≤ 0x5A) ∨ (0x61 ≤ anchor.toNat ∧ anchor.toNat ≤ 0x7A) ∨
      (0x32 ≤ anchor.toNat ∧ anchor.toNat ≤ 0x37) ∨ ∃ earlier ∈ before, anchor ∈ earlier.drop 1 := by
  obtain ⟨hbefore, d, hadd⟩ := addSynonyms_of_legal hlegal hsplit
  obtain ⟨-, hascii, a, l, v, he, hanchor, -⟩ := addSynonyms_eq_ok.1 hadd
  cases he
  have hanchorAscii := hascii anchor List.mem_cons_self
  rcases specsAccepted_mapped hbefore (by rw [hanchor]; nofun) with hcase | ⟨earlier, hmem, ch, hch, hindex⟩
  · have hrange := caseConfiguration_mapped hcase
    rw [tableIndex_toNat hanchorAscii] at hrange
    rcases hrange with hupper | hlower | hdigit
    · exact .inl hupper
    · exact .inr (.inl hlower)
    · exact .inr (.inr (.inl hdigit))
  · have hchAscii := ((specsAccepted_spec hbefore).2.1 earlier hmem).1 ch (List.mem_of_mem_drop hch)
    exact .inr (.inr (.inr ⟨earlier, hmem, tableIndex_inj hchAscii hanchorAscii hindex ▸ hch⟩))

/-- On the preset of the specs before it, a spec of a legal value has a mapped anchor and no conflict (R98). -/
theorem spec_free_of_conflicts {p : PresetParams} (hlegal : presetLegal p = true) {before behind : List (List Byte)}
    {anchor : Byte} {synonyms : List Byte} (hsplit : p.confusables = before ++ (anchor :: synonyms) :: behind)
    (c : Codec) :
    ∃ v, (presetConfiguration ⟨before, []⟩ c).readDt (anchor.setWidth 7) = .mapped v ∧
      ∀ ch ∈ synonyms, ¬ Conflicting (presetConfiguration ⟨before, []⟩ c) v ch := by
  obtain ⟨hbefore, d, hadd⟩ := addSynonyms_of_legal hlegal hsplit
  obtain ⟨-, -, a, l, v, he, hanchor, hfree, -⟩ := addSynonyms_eq_ok.1 hadd
  cases he
  have hprefix := presetLegal_of_prefix hbefore
  obtain ⟨hdt, -⟩ := presetConfiguration_tables hprefix c
  refine ⟨v, by rw [hdt, ← tableIndex_eq, hanchor], fun ch hch => ?_⟩
  have hmapping := (synonymConflicts_eq_false.1 (hfree ch hch)).1
  rw [tableIndex_eq, ← hdt] at hmapping
  rintro (⟨w, hne, hw⟩ | hig)
  · rcases hmapping with hunmapped | hmapped
    · cases hunmapped.symm.trans hw
    · exact hne (DtEntry.mapped.inj (hw.symm.trans hmapped))
  · simpa using (presetConfiguration_ignored hprefix c _).1 hig

/-- 1 cannot decode as I, 8, and as L, 11. -/
theorem doubleSynonym_not_legal : presetLegal ⟨[[0x49#8, 0x31#8], [0x4C#8, 0x31#8]], []⟩ = false := by
  refine Bool.eq_false_iff.2 fun hlegal => ?_
  have hI := presetConfiguration_synonym (anchor := 0x49#8) (synonym := 0x31#8) hlegal caseConfiguration (by decide)
    (caseConfiguration_upper (by decide))
  have hL := presetConfiguration_synonym (anchor := 0x4C#8) (synonym := 0x31#8) hlegal caseConfiguration (by decide)
    (caseConfiguration_upper (by decide))
  exact absurd (hI.symm.trans hL) (by decide)

/-- Settles O17: a run's codes are 0 throughout exactly for a legal value, and each spec is accepted on what the specs
before it leave. -/
theorem legalPresetValues : Obligations.LegalPresetValues := by
  refine ⟨referencePreset_legal, doubleSynonym_not_legal, fun p s hq hspecs hignored => ?_, fun p hlegal => ?_⟩
  · obtain ⟨t, rs, hrun, -, hcodes, -⟩ := runPackets_preset hq hspecs hignored
    refine ⟨fun hlegal => ⟨t, rs, hrun, hcodes.2 hlegal⟩, ?_⟩
    rintro ⟨t', rs', hrun', hzero⟩
    cases hrun.symm.trans hrun'
    exact hcodes.1 hzero
  · obtain ⟨haccepted, -, hascii, hunmapped⟩ := presetLegal_spec hlegal
    refine ⟨fun before behind anchor synonyms hsplit => ⟨anchor_of_legal hlegal hsplit, fun s => ?_⟩,
      fun spec hspec => ?_, hascii, fun s => ⟨_, execPresetWith_eq p s, fun ch hch => ?_⟩⟩
    · obtain ⟨v, hanchor, hfree⟩ := spec_free_of_conflicts hlegal hsplit s.codec
      exact ⟨_, v, execPresetWith_eq _ s, hanchor, hfree⟩
    · obtain ⟨hspecAscii, anchor, synonyms, v, rfl, -⟩ := (specsAccepted_spec haccepted).2.1 spec hspec
      exact ⟨nofun, hspecAscii⟩
    · have hentry := (presetConfiguration_tables hlegal s.codec).1 (ch.setWidth 7)
      exact hentry.trans (tableIndex_eq ch ▸ hunmapped ch hch)

end Sys2Proof.Machine
end

section
/-! Texts that DECODE cannot tell apart (42_decode.md R142, R152, R153): elements of one class for each other, and an
ignored element more. -/

namespace Sys2Proof.Machine

open Sys2Proof.Claims

/-! ### Elements of one class -/

/-- Elements that DECODE cannot tell apart: of one class, and where the class is invalid the same element, since the
error names it. -/
def SameClass (c : Codec) (a b : Byte) : Prop := classify c a = classify c b ∧ (classify c a = .invalid → a = b)

theorem SameClass.refl (c : Codec) (a : Byte) : SameClass c a a := ⟨rfl, fun _ => rfl⟩

theorem SameClass.of_mapped {c : Codec} {a b : Byte} {v : Symbol} (ha : classify c a = .mapped v)
    (hb : classify c b = .mapped v) : SameClass c a b :=
  ⟨ha.trans hb.symm, fun hc => nomatch ha.symm.trans hc⟩

theorem scanText_of_sameClass {c : Codec} {text text' : List Byte} (h : List.Forall₂ (SameClass c) text text')
    (pos : Nat) : scanText c pos text = scanText c pos text' := by
  induction h generalizing pos with
  | nil => rfl
  | @cons a b rest rest' hab _ ih =>
    obtain ⟨hclass, hinvalid⟩ := hab
    simp only [scanText, ← hclass, ih]
    cases hc : classify c a with
    | ignored => rfl
    | mapped v => rfl
    | invalid => rw [hinvalid hc]

theorem decodeText_of_sameClass {c : Codec} {text text' : List Byte} (h : List.Forall₂ (SameClass c) text text') :
    decodeText c text = decodeText c text' := by
  rw [decodeText, decodeText, scanText_of_sameClass h]

theorem classify_of_mapped {c : Codec} {ch : Byte} {v : Symbol} (hw : c.Wf) (hv : c.valid = true)
    (hascii : ch.toNat < 128) (h : c.readDt (ch.setWidth 7) = .mapped v) : classify c ch = .mapped v := by
  rw [← tableIndex_eq] at h
  exact classify_eq_mapped.2 ⟨hascii, hw.not_ignored_of_mapped hv h, h⟩

/-! ### The cases of a letter after PRESET.B32CI -/

theorem swapCase_letters : ∀ k < 26, swapCase (BitVec.ofNat 8 (0x41 + k)) = BitVec.ofNat 8 (0x61 + k) ∧
    swapCase (BitVec.ofNat 8 (0x61 + k)) = BitVec.ofNat 8 (0x41 + k) := by
  decide

theorem swapCase_cases (ch : Byte) : (∃ k < 26, ch = BitVec.ofNat 8 (0x41 + k)) ∨
    (∃ k < 26, ch = BitVec.ofNat 8 (0x61 + k)) ∨ swapCase ch = ch := by
  have letter : ∀ n, n ≤ ch.toNat → ch = BitVec.ofNat 8 (n + (ch.toNat - n)) := fun n hn => by
    rw [Nat.add_sub_cancel' hn, BitVec.ofNat_toNat, BitVec.setWidth_eq]
  unfold swapCase
  split
  case isTrue h => exact .inl ⟨_, by omega, letter 0x41 h.1⟩
  case isFalse =>
    split
    case isTrue h => exact .inr (.inl ⟨_, by omega, letter 0x61 h.1⟩)
    case isFalse => exact .inr (.inr rfl)

theorem letter_ascii_index : ∀ k < 26,
    ((BitVec.ofNat 8 (0x41 + k)).toNat < 128 ∧ (BitVec.ofNat 8 (0x41 + k)).setWidth 7 = BitVec.ofNat 7 (0x41 + k)) ∧
    ((BitVec.ofNat 8 (0x61 + k)).toNat < 128 ∧ (BitVec.ofNat 8 (0x61 + k)).setWidth 7 = BitVec.ofNat 7 (0x61 + k)) := by
  decide

theorem classify_preset_letters {p : PresetParams} (hlegal : presetLegal p = true) (c : Codec) {k : Nat} (hk : k < 26) :
    classify (presetConfiguration p c) (BitVec.ofNat 8 (0x41 + k)) = .mapped (BitVec.ofNat 7 k) ∧
      classify (presetConfiguration p c) (BitVec.ofNat 8 (0x61 + k)) = .mapped (BitVec.ofNat 7 k) := by
  have hw := (presetConfiguration_wf p c).1
  have hv := presetConfiguration_valid p c
  obtain ⟨-, hupper, hlower⟩ := presetConfiguration_letters hlegal c hk
  obtain ⟨⟨hu, hiu⟩, hl, hil⟩ := letter_ascii_index k hk
  exact ⟨classify_of_mapped hw hv hu (hiu ▸ hupper), classify_of_mapped hw hv hl (hil ▸ hlower)⟩

theorem sameClass_swapCase {p : PresetParams} (hlegal : presetLegal p = true) (c : Codec) (ch : Byte) :
    SameClass (presetConfiguration p c) ch (swapCase ch) := by
  rcases swapCase_cases ch with ⟨k, hk, rfl⟩ | ⟨k, hk, rfl⟩ | hsame
  · obtain ⟨hupper, hlower⟩ := classify_preset_letters hlegal c hk
    rw [(swapCase_letters k hk).1]
    exact .of_mapped hupper hlower
  · obtain ⟨hupper, hlower⟩ := classify_preset_letters hlegal c hk
    rw [(swapCase_letters k hk).2]
    exact .of_mapped hlower hupper
  · rw [hsame]
    exact .refl _ _

/-- A text with the case of any of its letters changed has elements of the same classes. -/
theorem sameClass_of_caseChanged {p : PresetParams} (hlegal : presetLegal p = true) (c : Codec)
    {text text' : List Byte} (hlen : text.length = text'.length)
    (hcase : ∀ (k : Nat) (ch ch' : Byte), text[k]? = some ch → text'[k]? = some ch' → ch' = ch ∨ ch' = swapCase ch) :
    List.Forall₂ (SameClass (presetConfiguration p c)) text text' := by
  refine List.forall₂_of_length_eq_of_get hlen fun k hk hk' => ?_
  rw [List.get_eq_getElem, List.get_eq_getElem]
  rcases hcase k _ _ (List.getElem?_eq_getElem hk) (List.getElem?_eq_getElem hk') with heq | heq
  · rw [heq]
    exact .refl _ _
  · rw [heq]
    exact sameClass_swapCase hlegal c _

/-! ### The synonym law -/

theorem sameClass_replace {c : Codec} {a b : Byte} (h : SameClass c a b) (before behind : List Byte) :
    List.Forall₂ (SameClass c) (before ++ a :: behind) (before ++ b :: behind) :=
  List.rel_append (List.forall₂_same.2 fun ch _ => .refl c ch) (.cons h (List.forall₂_same.2 fun ch _ => .refl c ch))

theorem exec_answers (i : Instr) (s : State) : ∃ t, exec i s = .next t := by
  rw [exec_eq_runCommand]
  exact runCommand_next _ _ _

/-- Two texts of one length for which the bit-stream form has one answer leave the same state. -/
theorem exec_decode_of_sameAnswer {len : Nat} {s : State} {text text' : List Byte} (rest : List Byte)
    (hlen : text.length = len) (hlen' : text'.length = len) (h : decodeText s.codec text = decodeText s.codec text') :
    exec (.decode len) { s with din := text ++ rest } = exec (.decode len) { s with din := text' ++ rest } := by
  have hl : ∀ l : List Byte, l.length = len → Supplied len { s with din := l ++ rest } := fun l hl => by
    simp [Supplied, hl]
  have htake : (text ++ rest).take len = text := List.take_left' hlen
  have htake' : (text' ++ rest).take len = text' := List.take_left' hlen'
  cases hd : decodeText s.codec text with
  | ok out =>
    rw [exec_decode_of_ok (s := { s with din := text ++ rest }) (hl _ hlen) (htake.symm ▸ hd),
      exec_decode_of_ok (s := { s with din := text' ++ rest }) (hl _ hlen') (htake'.symm ▸ h ▸ hd)]
    simp only [okState, List.drop_left' hlen, List.drop_left' hlen']
  | error r =>
    rw [exec_decode_of_error (s := { s with din := text ++ rest }) (hl _ hlen) (htake.symm ▸ hd),
      exec_decode_of_error (s := { s with din := text' ++ rest }) (hl _ hlen') (htake'.symm ▸ h ▸ hd)]
    simp only [errorState, List.drop_left' hlen, List.drop_left' hlen']

/-- Settles O44: mapped characters of one value are of one class, and so are the two cases of a letter after the
preset. -/
theorem synonymsDecodeAlike : Obligations.SynonymsDecodeAlike := by
  refine ⟨fun s a b v before behind rest hw hv ha hb hda hdb => ?_,
    fun p s t text text' hlegal ht _ hlen hcase bytes hdecode => ?_⟩
  · have hab : SameClass s.codec a b :=
      .of_mapped (classify_of_mapped hw hv ha hda) (classify_of_mapped hw hv hb hdb)
    have hcount : ∀ ch : Byte, (before ++ ch :: behind).length = before.length + 1 + behind.length := fun ch => by
      rw [List.length_append, List.length_cons, Nat.add_assoc, Nat.add_comm 1]
    have hsame := exec_decode_of_sameAnswer rest (hcount a) (hcount b)
      (decodeText_of_sameClass (sameClass_replace hab before behind))
    obtain ⟨t, ht⟩ := exec_answers (.decode (before.length + 1 + behind.length))
      { s with din := before ++ a :: behind ++ rest }
    exact ⟨t, ht, hsame.symm.trans ht⟩
  · rw [execPresetWith_eq] at ht
    cases ht
    have hclasses := sameClass_of_caseChanged hlegal s.codec hlen hcase
    have hanswer := (exec_decode_eq_okState_iff
      (s := { okState (presetConfiguration p s.codec) [] 0 s with din := text }) le_rfl).1 hdecode
    refine exec_decode_of_ok le_rfl ?_
    rw [List.take_length] at hanswer ⊢
    exact (decodeText_of_sameClass hclasses).symm.trans hanswer

/-! ### The ignore law -/

theorem getElem?_insert {α : Type} (before behind : List α) (g : α) (k : Nat) :
    (before ++ g :: behind)[k]? = if k < before.length then (before ++ behind)[k]?
      else if k = before.length then some g else (before ++ behind)[k - 1]? := by
  split
  case isTrue h => rw [List.getElem?_append_left h, List.getElem?_append_left h]
  case isFalse h =>
    split
    case isTrue he => rw [he, List.getElem?_append_right le_rfl, Nat.sub_self, List.getElem?_cons_zero]
    case isFalse hne =>
      rw [List.getElem?_append_right (by omega), List.getElem?_append_right (by omega),
        show k - before.length = k - 1 - before.length + 1 by omega, List.getElem?_cons_succ]

/-- An element that is not bad, put into a text, moves the lowest bad element behind it by one. -/
theorem lowestBad_insert {bad : Byte → Prop} {before behind : List Byte} {g ch : Byte} {i : Nat} (hg : ¬ bad g)
    (h : LowestBad bad (before ++ behind) i ch) :
    LowestBad bad (before ++ g :: behind) (if i < before.length then i else i + 1) ch := by
  obtain ⟨hi, hbad, hlowest⟩ := h
  refine ⟨?_, hbad, fun k d hk hd => ?_⟩
  · rw [getElem?_insert]
    split
    case isTrue => exact hi
    case isFalse hge => rw [if_neg (by omega), if_neg (by omega), Nat.add_sub_cancel, hi]
  · rw [getElem?_insert] at hd
    split at hd
    case isTrue hlt => exact hlowest k d (by split at hk <;> omega) hd
    case isFalse hge =>
      split at hd
      case isTrue => exact Option.some.inj hd ▸ hg
      case isFalse hne => exact hlowest (k - 1) d (by split at hk <;> omega) hd

theorem textValues_insert_ignored {c : Codec} {g : Byte} (hg : elementValue c g = none) (before behind : List Byte) :
    textValues c (before ++ g :: behind) = textValues c (before ++ behind) := by
  simp only [textValues, List.filterMap_append, List.filterMap_cons, hg]

theorem decodeText_insert_ignored {c : Codec} {g : Byte} {before behind out : List Byte} (hv : c.valid = true)
    (hg : g.toNat < 128 ∧ c.readIg (g.setWidth 7) = true) :
    decodeText c (before ++ behind) = .ok out ↔ decodeText c (before ++ g :: behind) = .ok out := by
  obtain ⟨hvalid, hvalue⟩ := ignored_valueless hg
  rw [decodeText_eq_ok_iff hv, decodeText_eq_ok_iff hv, textValues_insert_ignored hvalue]
  simp only [List.forall_mem_append, List.forall_mem_cons, hvalid, not_false_eq_true, true_and]

/-- Settles O45: an ignored element is valid and contributes no value, and stands between what was before and behind. -/
theorem ignoredCharactersDoNotCount : Obligations.IgnoredCharactersDoNotCount := by
  rintro s g before behind rest hv hascii hig u u' rfl rfl
  have hg := ignored_valueless ⟨hascii, hig⟩
  have hlen : (before ++ behind).length = before.length + behind.length := List.length_append
  have hlen' : (before ++ g :: behind).length = before.length + behind.length + 1 := List.length_append
  have htake := List.take_left' (l₂ := rest) hlen
  have htake' := List.take_left' (l₂ := rest) hlen'
  have hl : Supplied (before.length + behind.length) { s with din := before ++ behind ++ rest } := by
    simp only [Supplied, List.length_append]
    omega
  have hl' : Supplied (before.length + behind.length + 1) { s with din := before ++ g :: behind ++ rest } := by
    simp only [Supplied, List.length_append, List.length_cons]
    omega
  refine ⟨fun out => ?_, fun i ch hlowest => ⟨?_, ?_⟩⟩
  · rw [exec_decode_eq_okState_iff hl, exec_decode_eq_okState_iff hl']
    simp only [htake, htake']
    exact decodeText_insert_ignored hv ⟨hascii, hig⟩
  · exact exec_decode_of_lowestInvalid hv hl (htake.symm ▸ hlowest)
  · exact exec_decode_of_lowestInvalid hv hl' (htake'.symm ▸ lowestBad_insert hg.1 hlowest)

end Sys2Proof.Machine
end

section
/-! What each command may answer and write (10_state.md R36; 60_exceptions.md R161), and that no step depends on a table
entry that the spec leaves unspecified (10_state.md R23, R34). -/

namespace Sys2Proof.Machine

open Sys2Proof.Claims

/-! ### The codes -/

/-- Settles O48: code 0, or the number of an error that the command can raise. -/
theorem onlyTheListedCodesOccur : Obligations.OnlyTheListedCodesOccur := by
  intro i s t hl h
  have hcode : statusCodeField t.status ∈ (StatusCode.ok :: possibleErrors i).map statusNumber := by
    rcases exec_supplied_cases h hl with ⟨hzero, -⟩ | ⟨-, r, hb, rfl⟩
    · rw [hzero]
      exact List.mem_cons_self
    · rw [statusCodeField_errorState]
      exact List.mem_map_of_mem (List.mem_cons_of_mem _ (commandBody_error_code hb))
  cases i <;> exact hcode

/-! ### The frame -/

theorem addSynonyms_frame {c d : Codec} {din : List Byte} (h : addSynonyms c din = .ok d) :
    d.valid = c.valid ∧ d.bps = c.bps ∧ d.alpha = c.alpha ∧ d.ig = c.ig ∧
      ∀ j : Code7, (∀ ch ∈ din.drop 1, ch.setWidth 7 ≠ j) → d.readDt j = c.readDt j := by
  obtain ⟨-, -, anchor, synonyms, v, rfl, -, -, rfl⟩ := addSynonyms_eq_ok.1 h
  refine ⟨mapSynonyms_valid .., mapSynonyms_bps .., mapSynonyms_alpha .., mapSynonyms_ig .., fun j hj => ?_⟩
  exact mapSynonyms_readDt_other fun ch hch => tableIndex_eq ch ▸ hj ch hch

theorem ignoreCharacters_frame {c d : Codec} {din : List Byte} (h : ignoreCharacters c din = .ok d) :
    d.valid = c.valid ∧ d.bps = c.bps ∧ d.alpha = c.alpha ∧ d.dt = c.dt ∧
      ∀ j : Code7, (∀ ch ∈ din, ch.setWidth 7 ≠ j) → d.readIg j = c.readIg j := by
  obtain ⟨-, -, -, rfl⟩ := ignoreCharacters_eq_ok.1 h
  refine ⟨setIgnored_valid .., setIgnored_bps .., setIgnored_alpha .., setIgnored_dt .., fun j hj => ?_⟩
  exact setIgnored_readIg_other fun ch hch => tableIndex_eq ch ▸ hj ch hch

/-- Settles O50: an error leaves the configuration and DOUT, and what a command commits is read off its body. -/
theorem commandsWriteOnlyTheirColumns : Obligations.CommandsWriteOnlyTheirColumns := by
  intro i s t hl h
  rcases exec_supplied_cases h hl with ⟨-, c, out, hb, rfl⟩ | ⟨-, r, -, rfl⟩
  · refine ⟨rfl, rfl, fun hv => commandBody_valid hv hb, ?_⟩
    cases i with
    | create n =>
      obtain ⟨hcreate, rfl⟩ := configured_eq_ok.1 hb
      obtain ⟨hlen, -, -, rfl⟩ := createAlphabet_eq_ok.1 hcreate
      refine ⟨List.append_nil _, fun v hv => createCommit_readAlpha_other (alphabetLengths_le hlen).2 ?_⟩
      exact (take_length_of_supplied hl).symm ▸ hv
    | presetB32CI =>
      cases hb
      refine ⟨List.append_nil _, fun v hv => (presetConfiguration_readAlpha ..).trans ?_⟩
      exact createCommit_readAlpha_other (by decide) hv
    | addsyn n =>
      obtain ⟨hadd, rfl⟩ := configured_eq_ok.1 hb
      exact ⟨List.append_nil _, addSynonyms_frame hadd⟩
    | ignore n =>
      obtain ⟨hignore, rfl⟩ := configured_eq_ok.1 hb
      exact ⟨List.append_nil _, ignoreCharacters_frame hignore⟩
    | encode n =>
      obtain ⟨rfl, -⟩ := produced_eq_ok.1 hb
      exact ⟨rfl, List.prefix_append _ _⟩
    | decode n =>
      obtain ⟨rfl, -⟩ := produced_eq_ok.1 hb
      exact ⟨rfl, List.prefix_append _ _⟩
  · refine ⟨rfl, rfl, id, ?_⟩
    cases i with
    | create n => exact ⟨rfl, fun _ _ => rfl⟩
    | presetB32CI => exact ⟨rfl, fun _ _ => rfl⟩
    | addsyn n => exact ⟨rfl, rfl, rfl, rfl, rfl, fun _ _ => rfl⟩
    | ignore n => exact ⟨rfl, rfl, rfl, rfl, rfl, fun _ _ => rfl⟩
    | encode n => exact ⟨rfl, List.prefix_rfl⟩
    | decode n => exact ⟨rfl, List.prefix_rfl⟩

/-! ### Configurations that agree where the spec specifies them -/

/-- Two configurations that agree on everything but ALPHA at N and above, and but for the tables while VALID = 0. -/
structure SameSpecified (c d : Codec) : Prop where
  valid : c.valid = d.valid
  bps : c.bps = d.bps
  alpha : c.valid = true → ∀ v : Symbol, v.toNat < c.size → c.readAlpha v = d.readAlpha v
  dt : c.valid = true → c.dt = d.dt
  ig : c.valid = true → c.ig = d.ig

/-- Two answers of a command that the host cannot tell apart. -/
inductive SameAnswer : Except Raised (Codec × List Byte) → Except Raised (Codec × List Byte) → Prop where
  | ok {c d : Codec} (h : SameSpecified c d) (out : List Byte) : SameAnswer (.ok (c, out)) (.ok (d, out))
  | error (r : Raised) : SameAnswer (.error r) (.error r)

theorem SameSpecified.of_sameAlphabet {c d : Codec} (h : SameAlphabet c d) (hdt : c.dt = d.dt) (hig : c.ig = d.ig) :
    SameSpecified c d :=
  ⟨h.1, h.2.1, fun _ => h.2.2, fun _ => hdt, fun _ => hig⟩

section

variable {c d : Codec} (h : SameSpecified c d) (hv : d.valid = true)

include h hv

theorem SameSpecified.sameAlphabet : SameAlphabet c d := ⟨h.valid, h.bps, h.alpha (h.valid.trans hv)⟩

/-- With VALID = 1 only ALPHA can differ. -/
theorem SameSpecified.eq_withAlpha : c = { d with alpha := c.alpha } := by
  have hc := h.valid.trans hv
  rw [← h.valid, ← h.bps, ← h.dt hc, ← h.ig hc]

/-- A command that leaves BPS and ALPHA leaves the configurations as alike as they were. -/
theorem SameSpecified.withAlpha {e : Codec} (hbps : e.bps = d.bps) (halpha : e.alpha = d.alpha) :
    SameSpecified { e with alpha := c.alpha } e where
  valid := rfl
  bps := rfl
  alpha := fun _ v hlt => by
    have hsame := (h.sameAlphabet hv).2.2 v
    simp only [Codec.size, hbps] at hlt
    simp only [Codec.size, h.bps, Codec.readAlpha, hlt, true_imp_iff] at hsame
    simp only [Codec.readAlpha, halpha, hsame]
  dt := fun _ => rfl
  ig := fun _ => rfl

theorem addSynonyms_sameAnswer (din : List Byte) :
    SameAnswer (configured (addSynonyms c din)) (configured (addSynonyms d din)) := by
  rw [h.eq_withAlpha hv, addSynonyms_withAlpha]
  cases hadd : addSynonyms d din with
  | ok e =>
    obtain ⟨-, hbps, halpha, -⟩ := addSynonyms_frame hadd
    exact .ok (h.withAlpha hv hbps halpha) []
  | error r => exact .error r

theorem ignoreCharacters_sameAnswer (din : List Byte) :
    SameAnswer (configured (ignoreCharacters c din)) (configured (ignoreCharacters d din)) := by
  rw [h.eq_withAlpha hv, ignoreCharacters_withAlpha]
  cases hignore : ignoreCharacters d din with
  | ok e =>
    obtain ⟨-, hbps, halpha, -⟩ := ignoreCharacters_frame hignore
    exact .ok (h.withAlpha hv hbps halpha) []
  | error r => exact .error r

theorem encodeBytes_sameAnswer (din : List Byte) :
    SameAnswer (produced c (encodeBytes c din)) (produced d (encodeBytes d din)) := by
  rw [encodeBytes_of_valid hv, encodeBytes_of_valid (h.valid.trans hv), encodeText_of_sameAlphabet (h.sameAlphabet hv)]
  exact .ok h _

theorem decodeText_sameAnswer (din : List Byte) :
    SameAnswer (produced c (decodeText c din)) (produced d (decodeText d din)) := by
  have hsame : decodeText c din = decodeText d din := by
    rw [h.eq_withAlpha hv]
    exact decodeText_withAlpha d c.alpha din
  rw [hsame]
  cases decodeText d din with
  | ok out => exact .ok h out
  | error r => exact .error r

end

theorem createAlphabet_sameAnswer (c d : Codec) (din : List Byte) :
    SameAnswer (configured (createAlphabet c din)) (configured (createAlphabet d din)) := by
  cases hd : createAlphabet d din with
  | ok e =>
    obtain ⟨hlen, hascii, hnodup, rfl⟩ := createAlphabet_eq_ok.1 hd
    rw [createAlphabet_eq_ok.2 ⟨hlen, hascii, hnodup, rfl⟩]
    exact .ok (.of_sameAlphabet (createCommit_sameAlphabet c d hlen) (createCommit_dt_congr c d din)
      (createCommit_ig_congr c d din)) []
  | error r =>
    rw [createAlphabet_error_congr hd]
    exact .error r

/-- No command's answer depends on an unspecified table entry: CREATE and PRESET.B32CI write all that the other four
read, and those read no table while VALID = 0. -/
theorem commandBody_sameAnswer {c d : Codec} (h : SameSpecified c d) (i : Instr) (din : List Byte) :
    SameAnswer (commandBody i c din) (commandBody i d din) := by
  cases i with
  | create n => exact createAlphabet_sameAnswer c d din
  | presetB32CI =>
    obtain ⟨hdt, hig⟩ := presetConfiguration_congr presetParams c d
    exact .ok (.of_sameAlphabet (presetConfiguration_sameAlphabet presetParams c d) hdt hig) []
  | addsyn n =>
    cases hv : d.valid with
    | true => exact addSynonyms_sameAnswer h hv din
    | false =>
      rw [commandBody, commandBody, addSynonyms_notCreated hv, addSynonyms_notCreated (h.valid.trans hv)]
      exact .error notCreated
  | ignore n =>
    cases hv : d.valid with
    | true => exact ignoreCharacters_sameAnswer h hv din
    | false =>
      rw [commandBody, commandBody, ignoreCharacters_notCreated hv, ignoreCharacters_notCreated (h.valid.trans hv)]
      exact .error notCreated
  | encode n =>
    cases hv : d.valid with
    | true => exact encodeBytes_sameAnswer h hv din
    | false =>
      rw [commandBody, commandBody, encodeBytes_notCreated hv, encodeBytes_notCreated (h.valid.trans hv)]
      exact .error notCreated
  | decode n =>
    cases hv : d.valid with
    | true => exact decodeText_sameAnswer h hv din
    | false =>
      rw [commandBody, commandBody, decodeText_notCreated hv, decodeText_notCreated (h.valid.trans hv)]
      exact .error notCreated

/-! ### States that the host cannot tell apart -/

section

variable {s s' t t' : State} (hs : SameButUnspecified s s')

include hs

theorem SameButUnspecified.codec : SameSpecified s.codec s'.codec := ⟨hs.valid, hs.bps, hs.alpha, hs.dt, hs.ig⟩

/-- One packet run through bodies with like answers leaves like states, whether it waits or completes. -/
theorem runCommand_sameButUnspecified {len : Nat}
    {body : Codec → List Byte → Except Raised (Codec × List Byte)}
    (hbody : ∀ din, SameAnswer (body s.codec din) (body s'.codec din)) (h : runCommand len body s = .next t)
    (h' : runCommand len body s' = .next t') : SameButUnspecified t t' := by
  rcases Nat.lt_or_ge s.din.length len with hl | hl
  · rw [runCommand_waits hl] at h
    rw [runCommand_waits (hs.din ▸ hl)] at h'
    cases h
    cases h'
    exact hs
  · have hanswer := hbody (s.din.take len)
    generalize hb : body s.codec (s.din.take len) = answer at hanswer
    generalize hb' : body s'.codec (s.din.take len) = answer' at hanswer
    rw [hs.din] at hb'
    cases hanswer with
    | @ok c d hcodec out =>
      rw [runCommand_ok hl hb] at h
      rw [runCommand_ok (hs.din ▸ hl) hb'] at h'
      cases h
      cases h'
      exact {
        valid := hcodec.valid
        bps := hcodec.bps
        alpha := hcodec.alpha
        dt := hcodec.dt
        ig := hcodec.ig
        status := by simp [hcodec.valid, hcodec.bps]
        errpos := rfl
        reslen := rfl
        cmd := by simp [hs.cmd]
        din := by simp [hs.din]
        dout := by simp [hs.dout] }
    | error r =>
      rw [runCommand_error hl hb] at h
      rw [runCommand_error (hs.din ▸ hl) hb'] at h'
      cases h
      cases h'
      exact { hs with
        status := by simp [hs.valid, hs.bps]
        errpos := rfl
        reslen := rfl
        cmd := by simp [hs.cmd]
        din := by simp [hs.din] }

end

/-- Settles O55: both steps run the same word with the same operand, and the answers are alike. -/
theorem unspecifiedEntriesAreNeverRead : Obligations.UnspecifiedEntriesAreNeverRead := by
  intro s s' t t' hs h h'
  cases hcmd : s.cmd with
  | nil =>
    rw [step_of_empty hcmd] at h
    rw [step_of_empty (hs.cmd ▸ hcmd)] at h'
    cases h
    cases h'
    exact hs
  | cons w rest =>
    have hcmd' : s'.cmd = w :: rest := hs.cmd ▸ hcmd
    cases hd : decodeWord w with
    | command i =>
      rw [step_of_command hcmd hd, exec_eq_runCommand] at h
      rw [step_of_command hcmd' hd, exec_eq_runCommand] at h'
      exact runCommand_sameButUnspecified hs (commandBody_sameAnswer hs.codec i) h h'
    | reserved kind len =>
      rw [step_of_reserved hcmd hd] at h
      rw [step_of_reserved hcmd' hd] at h'
      exact runCommand_sameButUnspecified hs (fun _ => .error ⟨.illegalCommand, 0#8, 0⟩) h h'

end Sys2Proof.Machine
end
